-- ==== Sys2Proof/Word.lean ====
section
/-! DEFINITION. The words of the VMK core (00_scope.md R11): bytes, 7-bit register addresses, 16-bit register
values, 3-bit device ids, 7-bit CRCs, and time as an exact rational number of seconds. -/

namespace Sys2Proof

/-- One byte of a frame or of the link (R11: "frame bytes 8 bits each"). -/
abbrev Byte := BitVec 8

/-- A device register address (R11: 7 bits; R80: 0x00..0x7F). -/
abbrev Addr := BitVec 7

/-- A device register value (R11: 16 bits, unsigned). -/
abbrev Value := BitVec 16

/-- A device id (R11: 3 bits). -/
abbrev DevId := BitVec 3

/-- A checksum (R11: CRC 7 bits). -/
abbrev Crc := BitVec 7

/-- A time, or a span of time, in seconds (R11: "timestamps exact non-negative rationals in seconds"). -/
abbrev Time := Rat

/-- A span of time above 0 (R9: "> 0"; R211: "must remain non-zero"), as the fraction (num + 1) / (den + 1) of a second.
Every rational above 0 is one. -/
structure PosTime where
  num : Nat
  den : Nat
  deriving DecidableEq, Repr, Inhabited

/-- The span in seconds. -/
def PosTime.val (t : PosTime) : Time := mkRat ((t.num : Int) + 1) (t.den + 1)

/-- One register write of an action: where, and what (R360). -/
abbrev Write := Addr × Value

/-- A sample: the address read and the value read (R124). -/
abbrev Sample := Addr × Value

/-- A frame: exactly five bytes, `b1` first on the link (R110, R82). -/
structure Frame where
  b1 : Byte
  b2 : Byte
  b3 : Byte
  b4 : Byte
  b5 : Byte
  deriving DecidableEq, Repr, Inhabited

/-- The five bytes in the order they travel (R82: "byte 1 is transmitted first and received first"). -/
def Frame.bytes (f : Frame) : List Byte := [f.b1, f.b2, f.b3, f.b4, f.b5]

/-- A list of register writes with at least one entry (R360: "Every list is non-empty"). -/
structure WriteList where
  first : Write
  rest  : List Write
  deriving DecidableEq, Repr, Inhabited

/-- The writes in the order they are performed. -/
def WriteList.toList (l : WriteList) : List Write := l.first :: l.rest

end Sys2Proof
end

