-- ==== Sys2Proof/Syntax.lean ====
section
/-! DEFINITION. The syntax of what the VMK core is given to run: the 21 host commands of 30_encoding.md R130 and the
three link frames of R115, R116, R117. One constructor of `Instr` per row of spec/opcode_table.json. -/

namespace Sys2Proof

/-- Motor 1 or motor 2, the operand of PERIOD (R343). -/
inductive Motor where
  | m1
  | m2
  deriving DecidableEq, Repr, Inhabited

/-- The configuration registers SETCFG can name (R52, R347). -/
inductive CfgField where
  | startDelay
  | purgeDuration
  | purgePulses
  | backSpeedEn
  | manualReturnEn
  deriving DecidableEq, Repr, Inhabited

/-- What CONNECT is given, and `T.port_cfg` keeps (R37, R203): a port, a rate and a receive timeout. The spec gives the
port and the rate no type or width; that the port is any list of bytes and the rate any natural number, neither refused,
is the model's choice (log 29). -/
structure PortCfg where
  port    : List Byte
  baud    : Nat
  timeout : Time
  deriving DecidableEq, Repr, Inhabited

/-- Where an encoded item stands: at the host command port, on the transmit side of the link, or on its receive side
(R4). A link frame's bytes alone do not say which side they stand on: every request is also the shape of a reply (R176). -/
inductive Port where
  | host
  | tx
  | rx
  deriving DecidableEq, Repr, Inhabited

/-- Why bytes at a port spell nothing. -/
inductive PortRefusal where
  /-- R131, R385: an opcode byte outside the table of R130. -/
  | illegalCommand
  /-- R132, R385: an operand outside its width or type. -/
  | illegalOperand
  /-- Bytes on a side of the link that are no frame of that side (R115, R116, R117). -/
  | notAFrame
  deriving DecidableEq, Repr, Inhabited

/-- The commands of the host port and the frames of the link. -/
inductive Instr where
  /-- 0x01 CRC7 (R150). -/
  | crc7 (bytes : List Byte)
  /-- 0x02 BUILD (R170). The address may be any natural number: the builder masks it (R132). -/
  | build (address : Nat) (w : Bool) (data : Value)
  /-- 0x03 PARSE (R172). -/
  | parse (resp : List Byte) (addr : Addr) (dev : DevId)
  /-- 0x04 SDECODE (R270). -/
  | sdecode (word : Value)
  /-- 0x10 CONNECT (R203). -/
  | connect (cfg : PortCfg)
  /-- 0x11 DISCONNECT (R204). -/
  | disconnect
  /-- 0x12 ISCONN (R205). -/
  | isconn
  /-- 0x13 RDREG (R206). -/
  | rdreg (addr : Addr)
  /-- 0x14 WRREG (R207). -/
  | wrreg (addr : Addr) (value : Value)
  /-- 0x20 PCONFIG (R230). -/
  | pconfig (addrs : List Addr)
  /-- 0x21 PSTART (R231). -/
  | pstart
  /-- 0x22 PSTOP (R232). -/
  | pstop
  /-- 0x30 DECODE (R290). -/
  | decode (word : Value)
  /-- 0x31 PERIOD (R343). -/
  | period (motor : Motor) (value : Value)
  /-- 0x32 ARM (R340). -/
  | arm (aux : Bool)
  /-- 0x33 CANCEL (R341). -/
  | cancel
  /-- 0x34 PURGE (R345). -/
  | purge
  /-- 0x35 PPEND (R346). -/
  | ppend (b : Bool)
  /-- 0x36 SETCFG (R347). The value as the port is given it, a number. -/
  | setcfg (field : CfgField) (value : Rat)
  /-- 0x37 VERIFY (R348). -/
  | verify
  /-- 0x38 DRAIN (R350). -/
  | drain
  /-- The read request frame (R115), on the transmit side. -/
  | readReq (dev : DevId) (addr : Addr) (crc : Crc)
  /-- The write request frame (R116), on the transmit side. -/
  | writeReq (dev : DevId) (addr : Addr) (data : Value) (crc : Crc)
  /-- A response frame (R117), on the receive side: `w` is b1[5] and `x`, `y`, `z`, `v` are bit 7 of b2, b3, b4, b5. -/
  | response (w : Bool) (dev : DevId) (addr : Addr) (data : Value) (crc : Crc) (x y z v : Bool)
  deriving DecidableEq, Repr

end Sys2Proof
end

