-- ==== Sys2Proof/Config.lean ====
section
/-! DEFINITION. The parameters of the VMK core (00_scope.md R8, R9, R10) and its free values.

R10 makes the open parameters ARGUMENTS of the model. They stand in one record, `Params`, which the state carries
and no step changes (log 4), so that a claim about every state is a claim about every choice of them and a test can
name the example set E of 95_test_vectors.md. After reset the record is `Config.params`: the defaults the spec names,
and an opaque constant for every parameter it leaves OPEN. -/

namespace Sys2Proof

/-- R8: QUEUE_CAP. -/
def queueCap : Nat := 10

/-- R8: BACK_PERIOD, the fast reverse period of motor 1. -/
def backPeriod : Value := 5000

/-- R9, R203: the rate CONNECT has where none is named. -/
def baudDefault : Nat := 38400

/-- R380: the severities of a log event. -/
inductive Severity where
  | info
  | success
  | warning
  | error
  deriving DecidableEq, Repr, Inhabited

/-- The configuration registers C (R52). -/
structure Cfg where
  startDelay     : Time
  purgeDuration  : Time
  purgePulses    : Nat
  backSpeedEn    : Bool
  manualReturnEn : Bool
  deriving DecidableEq, Repr, Inhabited

/-- STATUS_BIT_INDEX (R122): the bit, among bits 0..10, that holds each flag. -/
structure StatusIndex where
  start    : Fin 11
  begBlk   : Fin 11
  endBlk   : Fin 11
  m1Fwd    : Fin 11
  m1Back   : Fin 11
  m2Fwd    : Fin 11
  m2Back   : Fin 11
  valve1On : Fin 11
  valve2On : Fin 11
  reset    : Fin 11
  ping     : Fin 11
  deriving DecidableEq, Repr, Inhabited

/-- The eleven bits in the order R122 lists the flags. -/
def StatusIndex.toList (x : StatusIndex) : List (Fin 11) :=
  [x.start, x.begBlk, x.endBlk, x.m1Fwd, x.m1Back, x.m2Fwd, x.m2Back, x.valve1On, x.valve2On, x.reset, x.ping]

/-- R122: "an injective map from the 11 flags into bits 0..10". -/
def StatusIndex.injective (x : StatusIndex) : Bool := decide x.toList.Nodup

/-- R122: the default, the listing order (START = bit 0 ... PING = bit 10). -/
def StatusIndex.listed : StatusIndex := ⟨0, 1, 2, 3, 4, 5, 6, 7, 8, 9, 10⟩

/-- ACTION_WRITES (R10, R360) for the six actions whose writes are OPEN. -/
structure ActionWrites where
  m1Fwd     : WriteList
  m1Back    : WriteList
  m2Fwd     : WriteList
  m2Stop    : WriteList
  valve2On  : WriteList
  valve2Off : WriteList
  deriving DecidableEq, Repr, Inhabited

/-- The addresses of the named device registers (R81). -/
structure RegMap where
  status       : Addr
  control      : Addr
  cmdM1        : Addr
  cmdM2        : Addr
  setPeriodM1  : Addr
  setPeriodM2  : Addr
  measPeriodM1 : Addr
  measPeriodM2 : Addr
  startDelay   : Addr
  grind        : Addr
  purge        : Addr
  verify       : Addr
  deriving DecidableEq, Repr, Inhabited

/-- The twelve addresses in the order of R81. -/
def RegMap.toList (m : RegMap) : List Addr :=
  [m.status, m.control, m.cmdM1, m.cmdM2, m.setPeriodM1, m.setPeriodM2, m.measPeriodM1, m.measPeriodM2,
   m.startDelay, m.grind, m.purge, m.verify]

/-- R81: "The addresses are pairwise distinct". -/
def RegMap.distinct (m : RegMap) : Bool := decide m.toList.Nodup

/-- The delays of R9 and the bound on a stop's wait: each above 0 (R9, R211, R431), whatever the parameters. -/
structure Delays where
  readSettle  : PosTime
  writeSettle : PosTime
  interpoll   : PosTime
  backoff     : PosTime
  join        : PosTime
  deriving DecidableEq, Repr, Inhabited

/-- Everything fixed when the block is constructed (R9, R10). -/
structure Params where
  deviceId     : DevId
  statusIndex  : StatusIndex
  regs         : RegMap
  actionWrites : ActionWrites
  /-- SPEED, written out for the raw periods listed; any other raw period has `Config.freeSpeed` (log 5). -/
  speed        : List (Value × Rat)
  periodSrcM1  : Addr
  periodSrcM2  : Addr
  idCode       : Byte
  cfg0         : Cfg
  /-- DRAIN_ORDER: the queues visited first, by index; the others follow in configured order (log 17). -/
  drainOrder   : List Nat
  auxPresent   : Bool
  flowPresent  : Bool
  rateCb       : Bool
  dataCb       : Bool
  delays       : Delays
  deriving DecidableEq, Repr, Inhabited

/-- What the spec asks of the parameters beyond their types: an injective status index (R122), pairwise distinct
addresses (R81), thresholds that are not negative (R52). It holds of the parameters after reset, and no step changes
them. -/
def Params.ok (p : Params) : Bool :=
  p.statusIndex.injective && p.regs.distinct &&
  decide (0 ≤ p.cfg0.startDelay) && decide (0 ≤ p.cfg0.purgeDuration)

/-! ### OPEN parameters: constants with no body (log 4) -/

opaque Config.deviceId : DevId
/-- Any register map; `Config.regs` reads it. -/
opaque Config.anyRegs : RegMap
opaque Config.actionWrites : ActionWrites
opaque Config.idCode : Byte
/-- Any configuration; `Config.cfg0` reads it. -/
opaque Config.anyCfg0 : Cfg
opaque Config.auxPresent : Bool
opaque Config.flowPresent : Bool
opaque Config.rateCb : Bool
opaque Config.dataCb : Bool
opaque Config.delays : Delays

/-- The addresses of the named registers: `Config.anyRegs` where they are pairwise distinct (R81), so any such map; else
one that is (log 4). -/
def Config.regs : RegMap :=
  if Config.anyRegs.distinct then Config.anyRegs else ⟨0, 1, 2, 3, 4, 5, 6, 7, 8, 9, 10, 11⟩

/-- CFG0: `Config.anyCfg0`, a threshold below 0 read as 0 (R52), so any values that R52 admits. -/
def Config.cfg0 : Cfg :=
  { Config.anyCfg0 with
    startDelay := max 0 Config.anyCfg0.startDelay
    purgeDuration := max 0 Config.anyCfg0.purgeDuration }

/-- SPEED of a raw period that `Params.speed` does not list (R362, U13: "a total function to rationals; nothing is
assumed of it"). -/
opaque Config.freeSpeed : Value → Rat

/-- The severity of the log event that PERIOD puts out (D41), which no rule states (log 30). -/
opaque Config.periodSeverity : Motor → Value → Severity

/-- The severity of the log event that PPEND puts out (D41), which no rule states (log 30). -/
opaque Config.pendingSeverity : Bool → Severity

/-- The parameters after reset: R122's default index, R344's default period sources, R352's reference drain order, and
the opaque constants above. -/
def Config.params : Params where
  deviceId := Config.deviceId
  statusIndex := StatusIndex.listed
  regs := Config.regs
  actionWrites := Config.actionWrites
  speed := []
  periodSrcM1 := Config.regs.measPeriodM1
  periodSrcM2 := Config.regs.measPeriodM2
  idCode := Config.idCode
  cfg0 := Config.cfg0
  drainOrder := []
  auxPresent := Config.auxPresent
  flowPresent := Config.flowPresent
  rateCb := Config.rateCb
  dataCb := Config.dataCb
  delays := Config.delays

/-! ### Free inputs, once the state's own lists of them are used up (log 3)

Each is applied to the state's counter of draws, so that no two draws need be equal. -/

/-- Does `OpenPort` succeed (R203). -/
opaque Config.freeOpenOk : Nat → Bool
/-- What the receive buffer holds after a connect (R203 "T.rx <- any", U12). -/
opaque Config.freeConnectRx : Nat → List Byte
/-- Does the link take a request (R206 "an I/O failure is a free input"). -/
opaque Config.freeTxOk : Nat → Bool
/-- Does the link report a failure on receive (R381, code 0x02). -/
opaque Config.freeRxFails : Nat → Bool
/-- The bytes that arrive while `Rx` waits (R15, R404). -/
opaque Config.freeRxBytes : Nat → List Byte
/-- `Aux.is_connected()` (R55, U19). -/
opaque Config.freeAuxConnected : Nat → Bool
/-- `Aux.is_running` (R55, U19). -/
opaque Config.freeAuxRunning : Nat → Bool
/-- USER_FWD_SETTINGS as the settings surface holds them (R55, R403). -/
opaque Config.freeUserFwd : Nat → WriteList
/-- How far the time input has moved on since it was last read (R12, R392), beyond what the waits since make sure of; read
as no less than 0. -/
opaque Config.freeTick : Nat → Time

end Sys2Proof
end

