-- ==== Sys2Proof/Machine/State.lean ====
section
/-! DEFINITION. The state of the VMK core as plain data: S = (T, P, Q, A, C) of 10_state.md R30, the consumer agent's
unfinished work (R31, R200), the parameters it was built with, the environment's inputs not read yet, and the
outputs it has made. -/

namespace Sys2Proof.Machine

/-- The two agents (R405). They also name the owner of the link lock (R35). -/
inductive Agent where
  | poller
  | consumer
  deriving DecidableEq, Repr, Inhabited

/-! ### Outputs -/

/-- The actions of the automaton (R360). -/
inductive Action where
  | m1Fwd
  | m1Back
  | m2Fwd
  | m2Stop
  | valve2On
  | valve2Off
  | setPeriodM1 (v : Value)
  | applyFwd
  deriving DecidableEq, Repr, Inhabited

/-- The error kinds of R381 that a transaction or CONNECT raises (CommandFailed and VerifyFailed are `LogKind`s). -/
inductive ErrorKind where
  | notOpen
  | io
  | timeout
  | openFailed
  | shortRead
  | badHeader
  | deviceId
  | address
  | crc
  deriving DecidableEq, Repr, Inhabited

/-- R380: the kinds of a log event, an error of R381 or a command kind. R380's list has none for PERIOD and PPEND, to which
decision D41 gives one event all the same: `period` and `purgePending` are the model's names for theirs (log 30). -/
inductive LogKind where
  | error (e : ErrorKind)
  | arm
  | cancel
  | purgeStart
  | period (m : Motor)
  | purgePending
  | setConfig (f : CfgField)
  | write (a : Addr) (v : Value)
  | command (a : Action)
  | verifyOk
  | verifyFailed
  deriving DecidableEq, Repr, Inhabited

/-- The 11 status flags (R44, R53). -/
structure Flags where
  start    : Bool := false
  begBlk   : Bool := false
  endBlk   : Bool := false
  m1Fwd    : Bool := false
  m1Back   : Bool := false
  m2Fwd    : Bool := false
  m2Back   : Bool := false
  valve1On : Bool := false
  valve2On : Bool := false
  reset    : Bool := false
  ping     : Bool := false
  deriving DecidableEq, Repr, Inhabited

/-- What a host command returns (R130, the result column), or the refusal of R385. -/
inductive Result where
  | unit
  | bool (b : Bool)
  | crc (c : Crc)
  | frame (f : Frame)
  | value (v : Option Value)
  | flags (f : Flags)
  | version (v : Option Byte)
  | samples (l : List Sample)
  | refused (r : PortRefusal)
  deriving DecidableEq, Repr, Inhabited

/-- The waits of R9: those `Sleep` names, and T_JOIN, which bounds a stop's wait. -/
inductive Delay where
  | readSettle
  | writeSettle
  | interpoll
  | backoff
  | join
  deriving DecidableEq, Repr, Inhabited

/-- What the core does at its ports, oldest first in `State.out` (R388, R406): the link (flush strobe, bytes sent, a
frame handed to a send that failed, bytes received within T_RX_TIMEOUT, a receive that failed), the waits as they end, the
serial handle, the logger, the two reports of the poller, the calls on the peers and the results of host commands. -/
inductive Event where
  | flush (g : Agent)
  | tx (g : Agent) (bytes : List Byte)
  | txFailed (g : Agent) (bytes : List Byte)
  | rx (g : Agent) (bytes : List Byte) (within : Time)
  | rxFailed (g : Agent)
  | sleep (g : Agent) (d : Delay) (atLeast : Time)
  | portOpened (cfg : PortCfg) (ok : Bool)
  | portClosed
  | log (k : LogKind) (sev : Severity)
  | rate (dt : Time)
  | newData
  | auxSendStart
  | auxSendEnd
  | flowOpen
  | flowStart
  | result (r : Result)
  deriving DecidableEq, Repr, Inhabited

/-! ### T: the register transport -/

/-- What a transaction moves: one whole register, read or written (R87). -/
inductive Req where
  | read (a : Addr)
  | write (a : Addr) (v : Value)
  deriving DecidableEq, Repr, Inhabited

/-- The register a transaction is about. -/
def Req.addr : Req → Addr
  | .read a => a
  | .write a _ => a

/-- The steps of one transaction in R206's and R207's order: take the lock; check the connection, flush and transmit;
wait the settle delay, until `wake` at least; receive, parse and release. At `late` T_RX_TIMEOUT has passed (R15). -/
inductive XPhase where
  | acquire
  | send
  | settle (wake : Time)
  | receive (late : Time)
  deriving DecidableEq, Repr, Inhabited

/-- One register transaction in progress (R200): its request, the frame it sends, and the step it is at. -/
structure Xact where
  req   : Req
  frame : Frame
  phase : XPhase
  deriving DecidableEq, Repr, Inhabited

/-- The transport state T (R33-R37). -/
structure Transport where
  connected : Bool
  deviceId  : DevId
  lock      : Option Agent
  rx        : List Byte
  portCfg   : PortCfg
  deriving DecidableEq, Repr, Inhabited

/-! ### P: the poller -/

/-- The poller agent's control state with its cursor (R41, R234). -/
inductive PollCtl where
  | idle
  | read (i : Nat)
  | delay (i : Nat)
  | endPass
  | backoff (i : Nat)
  deriving DecidableEq, Repr, Inhabited

/-- How far the poller has come in its control state (R234): the read inside `Read(i)` ("a transaction of several steps")
not begun, in its transaction, or done with its value not pushed yet (R43: a push is an atomic step of its own); or
asleep in `Delay(i)` or `Backoff(i)`, until `wake` at least. -/
inductive PollIo where
  | idle
  | xact (x : Xact)
  | got (v : Option Value)
  | asleep (wake : Time)
  deriving DecidableEq, Repr, Inhabited

/-- The poller state P (R38-R42). A queue's identity is its index in `State.q`. -/
structure Poller where
  config  : Option (List (Addr × Nat))
  running : Bool
  alive   : Bool
  ctl     : PollCtl
  io      : PollIo
  passT0  : Option Time
  rateCb  : Bool
  dataCb  : Bool
  deriving DecidableEq, Repr, Inhabited

/-! ### A: the automaton -/

/-- The process state A (R44-R51). -/
structure Automaton where
  flags        : Flags
  tPrev        : Option Time
  periodM1     : Option Value
  periodM2     : Option Value
  position     : Rat
  elapsed      : Time
  override     : Bool
  armed        : Bool
  armTime      : Time
  armAux       : Bool
  purgeActive  : Bool
  purgeCount   : Nat
  purgeLast    : Time
  purgeValve   : Bool
  purgePending : Bool
  deriving DecidableEq, Repr, Inhabited

/-! ### The consumer's unfinished work -/

/-- What a decode step, or PURGE, has to put out, in R311's order. `auxStart` and `auxEnd` read the auxiliary peer
when they are reached (R301, R307). -/
inductive Emission where
  | act (a : Action)
  | flowOpen
  | flowStart
  | auxStart
  | auxEnd
  | logPurgeStart
  deriving DecidableEq, Repr, Inhabited

/-- Whose a transaction's result is: RDREG's, WRREG's, VERIFY's, or an action's with the writes it has still to do and
whether all before succeeded (R360). -/
inductive After where
  | read
  | write
  | verify
  | emit (a : Action) (rest : List Write) (ok : Bool)
  deriving DecidableEq, Repr, Inhabited

/-- One piece of a command the consumer has still to do. A command that another agent's turn interrupts leaves its
pieces in `Consumer.todo` (R200: "the other agent may step meanwhile"). -/
inductive Work where
  | xact (x : Xact) (k : After)
  | emission (e : Emission)
  /-- DRAIN's samples of the queue it has just emptied. -/
  | samples (l : List Sample)
  /-- DRAIN's queues not visited yet, by index. -/
  | drain (js : List Nat)
  | connect (cfg : PortCfg)
  | disconnect
  | posture
  /-- PSTOP's wait (R232); at `wake` T_JOIN has passed since it began. -/
  | join (wake : Time)
  | done (r : Result)
  deriving DecidableEq, Repr, Inhabited

/-- The consumer agent: the work of its current command, and the samples DRAIN has collected (R350's `out`). -/
structure Consumer where
  todo    : List Work
  drained : List Sample
  deriving DecidableEq, Repr, Inhabited

/-! ### The environment -/

/-- Who moves next (R94, R200): an agent, the device (whose bytes arrive, R36), or the clock of a stop's wait, when
T_JOIN passes (R232). -/
inductive Turn where
  | poller
  | consumer
  | device
  | joinTimeout
  deriving DecidableEq, Repr, Inhabited

/-- What one `Rx` meets: a failure of the link (R381, code 0x02), or the bytes that arrive while it waits (R15). -/
inductive RxDraw where
  | fails
  | bytes (l : List Byte)
  deriving DecidableEq, Repr, Inhabited

/-- The free inputs not read yet, each kind in the order it will be read, and the number of draws taken from Config's
free values after a list was used up (log 3). -/
structure Env where
  sched     : List Turn
  openOk    : List Bool
  connectRx : List (List Byte)
  txOk      : List Bool
  rx        : List RxDraw
  auxConn   : List Bool
  auxRun    : List Bool
  userFwd   : List WriteList
  ticks     : List Time
  draws     : Nat
  deriving DecidableEq, Repr, Inhabited

/-- One item waiting at the host command port, or one request frame handed to the transport, with the value of `now`
at which it runs (R130, R133). -/
structure Item where
  now   : Time
  port  : Port
  bytes : List Byte
  deriving DecidableEq, Repr, Inhabited

/-- The whole machine. -/
structure State where
  /-- The parameters (R30: "fixed at construction"); no step changes them. -/
  param  : Params
  t      : Transport
  p      : Poller
  /-- Q: the sample queues by index, each oldest first (R43). -/
  q      : List (List Sample)
  a      : Automaton
  /-- C: the configuration registers (R52). -/
  c      : Cfg
  con    : Consumer
  /-- The time input `now` as last read (R12, R392). -/
  clock  : Time
  /-- The time that has been reached for certain: no earlier than the time input was read, nor than the end of any wait
  (R12, R15: `Sleep(T)` "lets at least time T pass"). No later reading inside the core is earlier (log 9). -/
  reached : Time
  /-- Commands (and request frames) waiting, oldest first (R130: in arrival order). -/
  inbox  : List Item
  /-- Bytes under way from the device, in the pieces in which they will arrive (R36). -/
  linkIn : List (List Byte)
  env    : Env
  /-- Every output so far, oldest first. -/
  out    : List Event
  /-- The result of the last command that completed. -/
  result : Option Result
  deriving DecidableEq, Repr

/-- Why the machine has no next step. -/
inductive Fault where
  /-- Raised by `exec` of every host command, and by `step` when it fetches an item or goes on with a command, where the
  time input is earlier than the previous decode step, or than the time input as it was last read. R386: the machine "has
  no step: the model is stuck there". Safe: the model stops where the spec gives no step. -/
  | timeBackwards
  deriving DecidableEq, Repr

/-- Why an instruction has no meaning here. The host port's own refusals (R385) are results, not these (log 7). -/
inductive Refusal where
  /-- Raised by an arm of `exec` whose instruction has no meaning yet; no arm of this model raises it. Safe. -/
  | notModelled (mnemonic : String)
  deriving DecidableEq, Repr

/-- What a step or a meaning answers. -/
abbrev Out := Host.Outcome State Fault Refusal

/-- Right after construction: the values of R57. T.port_cfg, A.arm_time, A.arm_aux and A.purge_last have none there
("unspecified"); log 10 names the values they hold here. -/
def State.reset : State where
  param := Config.params
  t := { connected := false, deviceId := Config.params.deviceId, lock := none, rx := [],
         portCfg := { port := [], baud := baudDefault, timeout := 0 } }
  p := { config := none, running := false, alive := false, ctl := .idle, io := .idle, passT0 := none,
         rateCb := Config.params.rateCb, dataCb := Config.params.dataCb }
  q := []
  a := { flags := {}, tPrev := none, periodM1 := none, periodM2 := none, position := 0, elapsed := 0,
         override := false, armed := false, armTime := 0, armAux := false, purgeActive := false, purgeCount := 0,
         purgeLast := 0, purgeValve := false, purgePending := false }
  c := Config.params.cfg0
  con := { todo := [], drained := [] }
  clock := 0
  reached := 0
  inbox := []
  linkIn := []
  env := { sched := [], openOk := [], connectRx := [], txOk := [], rx := [], auxConn := [], auxRun := [],
           userFwd := [], ticks := [], draws := 0 }
  out := []
  result := none

end Sys2Proof.Machine
end

