-- ==== Sys2Proof/Machine/Codec.lean ====
section
/-! DEFINITION. The CRC7 generator (40_crc7.md) and the frame codec (41_frame_codec.md): pure functions. -/

namespace Sys2Proof.Machine

/-! ### CRC7 -/

/-- One bit of R150's inner loop: `fb <- bit ^ crc[6]`, shift left, and subtract 0x09 where `fb` is 1. -/
def crcBit (crc : Crc) (b : Bool) : Crc :=
  if xor b (crc.getLsbD 6) then (crc <<< 1) ^^^ 0x09#7 else crc <<< 1

/-- One byte, bit 7 first (R151). R156's `step(crc, byte)`. -/
def crcByte (crc : Crc) (b : Byte) : Crc :=
  [7, 6, 5, 4, 3, 2, 1, 0].foldl (fun c i => crcBit c (b.getLsbD i)) crc

/-- R150: `CRC7(bytes)`, from 0, bytes in list order. -/
def crc7 (bytes : List Byte) : Crc := bytes.foldl crcByte 0

/-! ### Fields of a frame -/

/-- R110's header byte: the SYNC bits 11, the W bit, data bits 15 and 14, the device id (R170's `b1`). -/
def headerByte (w : Bool) (data : Value) (dev : DevId) : Byte :=
  0xC0#8 ||| (if w then 0x20#8 else 0#8) ||| ((data.extractLsb' 14 2).setWidth 8 <<< 3) ||| dev.setWidth 8

/-- A byte of bit 7 `top` over the seven bits `low`. -/
def byteOf (top : Bool) (low : BitVec 7) : Byte :=
  (if top then 0x80#8 else 0#8) ||| low.setWidth 8

/-- R111: data bits 13:7. -/
def dataHigh (data : Value) : BitVec 7 := data.extractLsb' 7 7

/-- R111: data bits 6:0. -/
def dataLow (data : Value) : BitVec 7 := data.extractLsb' 0 7

/-- R172: b1[7:6]. -/
def syncOf (b1 : Byte) : BitVec 2 := b1.extractLsb' 6 2

/-- R110: b1[5], the W bit. -/
def wBitOf (b1 : Byte) : Bool := b1.getLsbD 5

/-- R172: b1[2:0]. -/
def devOf (b1 : Byte) : DevId := b1.extractLsb' 0 3

/-- The low seven bits of a byte (`& 0x7F`). -/
def low7 (b : Byte) : BitVec 7 := b.extractLsb' 0 7

/-- Bit 7 of a byte. -/
def top1 (b : Byte) : Bool := b.getLsbD 7

/-- R111: `d = (b1[4:3] << 14) | (b3[6:0] << 7) | b4[6:0]`. -/
def dataOf (b1 b3 b4 : Byte) : Value :=
  ((b1.extractLsb' 3 2).setWidth 16 <<< 14) ||| ((low7 b3).setWidth 16 <<< 7) ||| (low7 b4).setWidth 16

/-! ### The three frame kinds -/

/-- R115: the bytes of a read request with the checksum `crc`. -/
def readReqFrame (dev : DevId) (addr : Addr) (crc : Crc) : Frame :=
  ⟨headerByte false 0 dev, byteOf false addr, 0, 0, byteOf false crc⟩

/-- R116: the bytes of a write request with the checksum `crc`. -/
def writeReqFrame (dev : DevId) (addr : Addr) (data : Value) (crc : Crc) : Frame :=
  ⟨headerByte true data dev, byteOf false addr, byteOf false (dataHigh data),
   byteOf false (dataLow data), byteOf false crc⟩

/-- R117: the bytes of a response. -/
def responseFrame (w : Bool) (dev : DevId) (addr : Addr) (data : Value) (crc : Crc) (x y z v : Bool) : Frame :=
  ⟨headerByte w data dev, byteOf x addr, byteOf y (dataHigh data),
   byteOf z (dataLow data), byteOf v crc⟩

/-- R114: the checksum of a frame's first four bytes is the one it carries. -/
def frameCrcOk (f : Frame) : Bool :=
  decide (crc7 [f.b1, f.b2, f.b3, f.b4] = low7 f.b5)

/-! ### BUILD and PARSE -/

/-- R170: the request frame for `address`, masked to seven bits by its type, with its CRC (R114). -/
def build (dev : DevId) (address : Addr) (w : Bool) (data : Value) : Frame :=
  let b1 := headerByte w data dev
  let b2 := byteOf false address
  let b3 := byteOf false (dataHigh data)
  let b4 := byteOf false (dataLow data)
  ⟨b1, b2, b3, b4, byteOf false (crc7 [b1, b2, b3, b4])⟩

/-- R172: the value of a response, or none where any of the five checks fails. -/
def parse (response : List Byte) (expected : Addr) (dev : DevId) : Option Value :=
  match response with
  | [b1, b2, b3, b4, b5] =>
    if syncOf b1 ≠ 0b11#2 then none
    else if devOf b1 ≠ dev then none
    else if low7 b2 ≠ expected then none
    else if crc7 [b1, b2, b3, b4] ≠ low7 b5 then none
    else some (dataOf b1 b3 b4)
  | _ => none

/-- R206: `FailKind(r, addr)`, the code of the first failing check of what `Rx` returned. `Rx` never returns more than
five bytes, so the last arm meets one to four. -/
def failKind (r : List Byte) (expected : Addr) (dev : DevId) : ErrorKind :=
  match r with
  | [] => .timeout
  | [b1, b2, _, _, _] =>
    if syncOf b1 ≠ 0b11#2 then .badHeader
    else if devOf b1 ≠ dev then .deviceId
    else if low7 b2 ≠ expected then .address
    else .crc
  | _ => .shortRead

/-- R381: the numbers of the error kinds. -/
def ErrorKind.code : ErrorKind → Byte
  | .notOpen => 0x01
  | .io => 0x02
  | .timeout => 0x03
  | .openFailed => 0x04
  | .shortRead => 0x11
  | .badHeader => 0x12
  | .deviceId => 0x13
  | .address => 0x14
  | .crc => 0x15

/-- R381: the code of a log event, where it reports an error: an action's event of severity `error` is CommandFailed
(log 14), and VERIFY's failure is VerifyFailed. -/
def logCode (k : LogKind) (sev : Severity) : Option Byte :=
  match k, sev with
  | .error e, _ => some e.code
  | .command _, .error => some 0x21
  | .verifyFailed, _ => some 0x22
  | _, _ => none

end Sys2Proof.Machine
end

