-- ==== Sys2Proof/Machine/Operands.lean ====
section
/-! DEFINITION. Operand forms: which operands the port accepts beyond their types (R132), the value SETCFG stores, and
the requests the transport is handed. -/

namespace Sys2Proof.Machine

/-- R52, R132: is the number a value of the field's type: a time that is not negative, a natural number, a Boolean. -/
def cfgAccepts (f : CfgField) (v : Rat) : Bool :=
  match f with
  | .startDelay => decide (0 ≤ v)
  | .purgeDuration => decide (0 ≤ v)
  | .purgePulses => decide (0 ≤ v) && decide (v.den = 1)
  | .backSpeedEn => decide (v = 0) || decide (v = 1)
  | .manualReturnEn => decide (v = 0) || decide (v = 1)

/-- R9: a receive timeout is greater than 0 (log 6). -/
def portAccepts (c : PortCfg) : Bool := decide (0 < c.timeout)

/-- R347: `C.field <- value`, the number read as the field's type. -/
def cfgSet (f : CfgField) (v : Rat) (c : Cfg) : Cfg :=
  match f with
  | .startDelay => { c with startDelay := v }
  | .purgeDuration => { c with purgeDuration := v }
  | .purgePulses => { c with purgePulses := v.num.toNat }
  | .backSpeedEn => { c with backSpeedEn := decide (v = 1) }
  | .manualReturnEn => { c with manualReturnEn := decide (v = 1) }

/-- R170: BUILD masks its address to seven bits (R132's one exception). -/
def maskAddr (address : Nat) : Addr := BitVec.ofNat 7 address

/-- R206: the transaction of `read_register(addr)` before its first step. R171: a read carries data 0. -/
def readXact (dev : DevId) (a : Addr) : Xact := ⟨.read a, build dev a false 0, .acquire⟩

/-- R207: the transaction of `write_register(addr, value)` before its first step. -/
def writeXact (dev : DevId) (a : Addr) (v : Value) : Xact := ⟨.write a v, build dev a true v, .acquire⟩

end Sys2Proof.Machine
end

