-- ==== Sys2Proof/WellFormed.lean ====
section
/-! DEFINITION. Which instructions are well formed. An operand's width is in its type; what is left is checked here
(30_encoding.md R132, R52; 00_scope.md R9; R115, R116). -/

namespace Sys2Proof

/-- Well-formed instructions: those the port accepts (R132), and the requests a builder can have built (R170: "b5 <-
CRC7"). Every response of five bytes with the SYNC bits is one: its checksum is the parse's business (R117, R172). -/
def Instr.wf : Instr → Bool
  | .crc7 _ => true
  | .build _ _ _ => true
  | .parse _ _ _ => true
  | .sdecode _ => true
  | .connect cfg => Machine.portAccepts cfg
  | .disconnect => true
  | .isconn => true
  | .rdreg _ => true
  | .wrreg _ _ => true
  | .pconfig _ => true
  | .pstart => true
  | .pstop => true
  | .decode _ => true
  | .period _ _ => true
  | .arm _ => true
  | .cancel => true
  | .purge => true
  | .ppend _ => true
  | .setcfg f v => Machine.cfgAccepts f v
  | .verify => true
  | .drain => true
  | .readReq dev addr crc => Machine.frameCrcOk (Machine.readReqFrame dev addr crc)
  | .writeReq dev addr data crc => Machine.frameCrcOk (Machine.writeReqFrame dev addr data crc)
  | .response _ _ _ _ _ _ _ _ _ => true

end Sys2Proof
end

