-- ==== Sys2Proof/Decode.lean ====
section
/-! DEFINITION. From bytes to instructions and back.

Frames follow 30_encoding.md R110-R120. For a host command the spec gives the opcode byte (R130, one byte) and the
operands' values, not their bytes: the operand bytes are this model's own (log 6). Every operand is a natural number in
base 128, low digit first, with bit 7 of a byte set where another digit follows, so that the port can be given a number
outside an operand's width and refuse it (R132). A list is its length and then its items. -/

namespace Sys2Proof

/-! ### Operand readers: the operand, and the bytes after it; none where bytes run out or a width is exceeded -/

/-- A natural number. -/
def takeNat : List Byte → Option (Nat × List Byte)
  | [] => none
  | b :: r =>
    if b.toNat < 128 then some (b.toNat, r)
    else match takeNat r with
      | none => none
      | some (n, r') => some (b.toNat - 128 + 128 * n, r')

/-- A number of `w` bits; a wider one is refused (R132). -/
def takeBits (w : Nat) (l : List Byte) : Option (BitVec w × List Byte) :=
  match takeNat l with
  | none => none
  | some (n, r) => if n < 2 ^ w then some (BitVec.ofNat w n, r) else none

/-- A Boolean, 0 or 1. -/
def takeBool (l : List Byte) : Option (Bool × List Byte) :=
  match takeNat l with
  | some (0, r) => some (false, r)
  | some (1, r) => some (true, r)
  | _ => none

/-- `n` items. -/
def takeMany {α : Type} (item : List Byte → Option (α × List Byte)) : Nat → List Byte → Option (List α × List Byte)
  | 0, l => some ([], l)
  | n + 1, l =>
    match item l with
    | none => none
    | some (a, r) =>
      match takeMany item n r with
      | none => none
      | some (as, r') => some (a :: as, r')

/-- A list: its length, then its items. -/
def takeList {α : Type} (item : List Byte → Option (α × List Byte)) (l : List Byte) : Option (List α × List Byte) :=
  match takeNat l with
  | none => none
  | some (n, r) => takeMany item n r

/-- A rational: sign (1 for minus), numerator, denominator less 1. -/
def takeRat (l : List Byte) : Option (Rat × List Byte) :=
  match takeBool l with
  | none => none
  | some (neg, r1) =>
    match takeNat r1 with
    | none => none
    | some (n, r2) =>
      match takeNat r2 with
      | none => none
      | some (d, r3) => some (mkRat (if neg then -(n : Int) else n) (d + 1), r3)

/-- A rational above 0: numerator less 1, denominator less 1. -/
def takePosRat (l : List Byte) : Option (Rat × List Byte) :=
  match takeNat l with
  | none => none
  | some (n, r1) =>
    match takeNat r1 with
    | none => none
    | some (d, r2) => some (mkRat ((n : Int) + 1) (d + 1), r2)

/-- PERIOD's motor: 0 for motor 1, 1 for motor 2; R132 refuses any other. -/
def takeMotor (l : List Byte) : Option (Motor × List Byte) :=
  match takeNat l with
  | some (0, r) => some (.m1, r)
  | some (1, r) => some (.m2, r)
  | _ => none

/-- SETCFG's field, in R52's order; R132 refuses any other. -/
def takeField (l : List Byte) : Option (CfgField × List Byte) :=
  match takeNat l with
  | some (0, r) => some (.startDelay, r)
  | some (1, r) => some (.purgeDuration, r)
  | some (2, r) => some (.purgePulses, r)
  | some (3, r) => some (.backSpeedEn, r)
  | some (4, r) => some (.manualReturnEn, r)
  | _ => none

/-- BUILD's data (R170: "0 when omitted"): omitted where the bytes end before it. -/
def takeData (l : List Byte) : Option (Value × List Byte) :=
  match l with
  | [] => some (0, [])
  | _ :: _ => takeBits 16 l

/-- CONNECT's rate (R203: "default 38400"): 0 where it is omitted, else one more than the rate (log 6). -/
def takeBaud (l : List Byte) : Option (Nat × List Byte) :=
  match takeNat l with
  | none => none
  | some (0, r) => some (baudDefault, r)
  | some (n + 1, r) => some (n, r)

/-- Applies `f` to the operand read. -/
def mapOperand {α β : Type} (f : α → β) : Option (α × List Byte) → Option (β × List Byte)
  | none => none
  | some (a, r) => some (f a, r)

/-- Reads one operand more and applies `f` to both. -/
def andThen {α β γ : Type} (x : Option (α × List Byte)) (next : List Byte → Option (β × List Byte)) (f : α → β → γ) :
    Option (γ × List Byte) :=
  match x with
  | none => none
  | some (a, r) => mapOperand (f a) (next r)

/-! ### The host port -/

/-- R130: the reader of each opcode's operands; none for an opcode that spells no command (R131). -/
def operandsOf (opcode : Byte) : Option (List Byte → Option (Instr × List Byte)) :=
  match opcode.toNat with
  | 0x01 => some fun l => mapOperand Instr.crc7 (takeList (takeBits 8) l)
  | 0x02 => some fun l => andThen (andThen (takeNat l) takeBool Prod.mk) takeData fun aw d => .build aw.1 aw.2 d
  | 0x03 => some fun l => andThen (andThen (takeList (takeBits 8) l) (takeBits 7) Prod.mk) (takeBits 3)
      fun ra d => .parse ra.1 ra.2 d
  | 0x04 => some fun l => mapOperand Instr.sdecode (takeBits 16 l)
  | 0x10 => some fun l => andThen (andThen (takeList (takeBits 8) l) takeBaud Prod.mk) takePosRat
      fun pb t => .connect ⟨pb.1, pb.2, t⟩
  | 0x11 => some fun l => some (.disconnect, l)
  | 0x12 => some fun l => some (.isconn, l)
  | 0x13 => some fun l => mapOperand Instr.rdreg (takeBits 7 l)
  | 0x14 => some fun l => andThen (takeBits 7 l) (takeBits 16) Instr.wrreg
  | 0x20 => some fun l => mapOperand Instr.pconfig (takeList (takeBits 7) l)
  | 0x21 => some fun l => some (.pstart, l)
  | 0x22 => some fun l => some (.pstop, l)
  | 0x30 => some fun l => mapOperand Instr.decode (takeBits 16 l)
  | 0x31 => some fun l => andThen (takeMotor l) (takeBits 16) Instr.period
  | 0x32 => some fun l => mapOperand Instr.arm (takeBool l)
  | 0x33 => some fun l => some (.cancel, l)
  | 0x34 => some fun l => some (.purge, l)
  | 0x35 => some fun l => mapOperand Instr.ppend (takeBool l)
  | 0x36 => some fun l => andThen (takeField l) takeRat Instr.setcfg
  | 0x37 => some fun l => some (.verify, l)
  | 0x38 => some fun l => some (.drain, l)
  | _ => none

/-- Zero bytes after a command's operands are padding; anything else there is no operand of it (log 6). -/
def isPadding (l : List Byte) : Bool := l.all (· == 0)

/-- The command that bytes at the host port spell, or the port's refusal (R131, R132). No byte at all is no opcode. -/
def decodeHost : List Byte → Except PortRefusal Instr
  | [] => .error .illegalCommand
  | op :: l =>
    match operandsOf op with
    | none => .error .illegalCommand
    | some read =>
      match read l with
      | none => .error .illegalOperand
      | some (i, r) => if i.wf && isPadding r then .ok i else .error .illegalOperand

/-! ### The link -/

/-- The request on the transmit side: R115's shape or R116's, with its checksum right (R170). -/
def decodeTx : List Byte → Except PortRefusal Instr
  | [b1, b2, b3, b4, b5] =>
    if Machine.syncOf b1 ≠ 0b11#2 || Machine.top1 b2 || Machine.top1 b3 || Machine.top1 b4 || Machine.top1 b5 then
      .error .notAFrame
    else
      let i := if Machine.wBitOf b1 then
          Instr.writeReq (Machine.devOf b1) (Machine.low7 b2) (Machine.dataOf b1 b3 b4) (Machine.low7 b5)
        else Instr.readReq (Machine.devOf b1) (Machine.low7 b2) (Machine.low7 b5)
      if (Machine.wBitOf b1 || decide (Machine.dataOf b1 b3 b4 = 0)) && i.wf then .ok i else .error .notAFrame
  | _ => .error .notAFrame

/-- The response on the receive side: five bytes with the SYNC bits (R117). Its other checks are the parse's (R172). -/
def decodeRx : List Byte → Except PortRefusal Instr
  | [b1, b2, b3, b4, b5] =>
    if Machine.syncOf b1 ≠ 0b11#2 then .error .notAFrame
    else .ok (.response (Machine.wBitOf b1) (Machine.devOf b1) (Machine.low7 b2) (Machine.dataOf b1 b3 b4)
      (Machine.low7 b5) (Machine.top1 b2) (Machine.top1 b3) (Machine.top1 b4) (Machine.top1 b5))
  | _ => .error .notAFrame

/-- The decoder: total on any bytes, at any port. -/
def decode : Port → List Byte → Except PortRefusal Instr
  | .host, l => decodeHost l
  | .tx, l => decodeTx l
  | .rx, l => decodeRx l

/-! ### The encoder -/

/-- The digits of a number, with `fuel` of them at most after the first. -/
def putNatF : Nat → Nat → List Byte
  | 0, n => [BitVec.ofNat 8 n]
  | fuel + 1, n => if n < 128 then [BitVec.ofNat 8 n] else BitVec.ofNat 8 (128 + n % 128) :: putNatF fuel (n / 128)

/-- A natural number. -/
def putNat (n : Nat) : List Byte := putNatF n n

/-- A bit field, as a number. -/
def putBits {w : Nat} (v : BitVec w) : List Byte := putNat v.toNat

/-- A Boolean. -/
def putBool (b : Bool) : List Byte := putNat (if b then 1 else 0)

/-- A list: its length, then its items. -/
def putList {α : Type} (item : α → List Byte) (l : List α) : List Byte := putNat l.length ++ l.flatMap item

/-- A rational. -/
def putRat (v : Rat) : List Byte := putBool (decide (v < 0)) ++ putNat v.num.natAbs ++ putNat (v.den - 1)

/-- A rational above 0. -/
def putPosRat (v : Rat) : List Byte := putNat (v.num.natAbs - 1) ++ putNat (v.den - 1)

/-- CONNECT's rate, named. -/
def putBaud (n : Nat) : List Byte := putNat (n + 1)

/-- PERIOD's motor. -/
def putMotor : Motor → List Byte
  | .m1 => putNat 0
  | .m2 => putNat 1

/-- SETCFG's field. -/
def putField : CfgField → List Byte
  | .startDelay => putNat 0
  | .purgeDuration => putNat 1
  | .purgePulses => putNat 2
  | .backSpeedEn => putNat 3
  | .manualReturnEn => putNat 4

/-- The port an instruction stands at. -/
def Instr.port : Instr → Port
  | .crc7 _ => .host
  | .build _ _ _ => .host
  | .parse _ _ _ => .host
  | .sdecode _ => .host
  | .connect _ => .host
  | .disconnect => .host
  | .isconn => .host
  | .rdreg _ => .host
  | .wrreg _ _ => .host
  | .pconfig _ => .host
  | .pstart => .host
  | .pstop => .host
  | .decode _ => .host
  | .period _ _ => .host
  | .arm _ => .host
  | .cancel => .host
  | .purge => .host
  | .ppend _ => .host
  | .setcfg _ _ => .host
  | .verify => .host
  | .drain => .host
  | .readReq _ _ _ => .tx
  | .writeReq _ _ _ _ => .tx
  | .response _ _ _ _ _ _ _ _ _ => .rx

/-- The bytes of a well-formed instruction: the opcode of R130 and its operands, or the frame of R115, R116, R117. -/
def encode : Instr → List Byte
  | .crc7 l => 0x01 :: putList putBits l
  | .build a w d => 0x02 :: (putNat a ++ putBool w ++ putBits d)
  | .parse l a d => 0x03 :: (putList putBits l ++ putBits a ++ putBits d)
  | .sdecode w => 0x04 :: putBits w
  | .connect c => 0x10 :: (putList putBits c.port ++ putBaud c.baud ++ putPosRat c.timeout)
  | .disconnect => [0x11]
  | .isconn => [0x12]
  | .rdreg a => 0x13 :: putBits a
  | .wrreg a v => 0x14 :: (putBits a ++ putBits v)
  | .pconfig l => 0x20 :: putList putBits l
  | .pstart => [0x21]
  | .pstop => [0x22]
  | .decode w => 0x30 :: putBits w
  | .period m v => 0x31 :: (putMotor m ++ putBits v)
  | .arm b => 0x32 :: putBool b
  | .cancel => [0x33]
  | .purge => [0x34]
  | .ppend b => 0x35 :: putBool b
  | .setcfg f v => 0x36 :: (putField f ++ putRat v)
  | .verify => [0x37]
  | .drain => [0x38]
  | .readReq d a c => (Machine.readReqFrame d a c).bytes
  | .writeReq d a v c => (Machine.writeReqFrame d a v c).bytes
  | .response w d a v c x y z u => (Machine.responseFrame w d a v c x y z u).bytes

/-! ### The host's numbering of a table row's bits -/

/-- The low `n` bytes of a number, the least significant first. -/
def bytesOf : Nat → Nat → List Byte
  | 0, _ => []
  | n + 1, w => BitVec.ofNat 8 w :: bytesOf n (w / 256)

/-- The bytes a table word stands for, and the port they stand at. A word of five bytes is a frame; where a request's
shape and checksum fit, it is taken as on the transmit side, else as on the receive side (log 11). A word of another
length is a host command with operand bytes of zero after it. -/
def tableBytes (nbits w : Nat) : Port × List Byte :=
  if nbits = 40 then
    let l := bytesOf 5 w
    match decodeTx l with
    | .ok _ => (.tx, l)
    | .error _ => (.rx, l)
  else (.host, bytesOf 16 (w % 2 ^ nbits))

/-- The instruction the decoder reads from a table word. -/
def decodeTableWord (nbits w : Nat) : Option Instr :=
  match decode (tableBytes nbits w).1 (tableBytes nbits w).2 with
  | .ok i => some i
  | .error _ => none

end Sys2Proof
end

