-- ==== Sys2Proof/Machine/Flags.lean ====
section
/-! DEFINITION. The status-word decoder (44_status_decoder.md) and the predicates on flags the automaton uses (R273). -/

namespace Sys2Proof.Machine

/-- R270: `flags[f] <- word[STATUS_BIT_INDEX(f)]` for the eleven flags. -/
def decodeStatus (ix : StatusIndex) (word : Value) : Flags where
  start := word.getLsbD ix.start.val
  begBlk := word.getLsbD ix.begBlk.val
  endBlk := word.getLsbD ix.endBlk.val
  m1Fwd := word.getLsbD ix.m1Fwd.val
  m1Back := word.getLsbD ix.m1Back.val
  m2Fwd := word.getLsbD ix.m2Fwd.val
  m2Back := word.getLsbD ix.m2Back.val
  valve1On := word.getLsbD ix.valve1On.val
  valve2On := word.getLsbD ix.valve2On.val
  reset := word.getLsbD ix.reset.val
  ping := word.getLsbD ix.ping.val

/-- R273: `M1_running(F)`. -/
def Flags.m1Running (f : Flags) : Bool := f.m1Fwd || f.m1Back

/-- R273: `M2_running(F)`. -/
def Flags.m2Running (f : Flags) : Bool := f.m2Fwd || f.m2Back

/-- R273: `rising(f, old, new)`, on the two values of one flag. -/
def rising (old new : Bool) : Bool := new && !old

end Sys2Proof.Machine
end

