-- ==== Sys2Proof/Machine/Phases.lean ====
section
/-! DEFINITION. The decode step of the process automaton (45_automaton_decode.md), as a function on A.

No other agent reads or writes A or C (R32, R240) and no state update depends on a write's result (R308), so the step is
one change of A and the list of what it puts out, in R311's order; the consumer then performs the list (R309, log 12). -/

namespace Sys2Proof.Machine

/-- SPEED (R10, R362): the speed listed for a raw period, or its free value. -/
def speedOf (par : Params) (p : Value) : Rat :=
  match par.speed.find? (fun e => e.1 == p) with
  | some e => e.2
  | none => Config.freeSpeed p

/-- How far motor 1 moves the position in `dt` at its last known period (R294); it does not where none is known. -/
def travel (par : Params) (dt : Time) (a : Automaton) : Rat :=
  match a.periodM1 with
  | some p => speedOf par p * dt
  | none => 0

/-- R293: the home reset. -/
def homeReset (old new : Flags) (a : Automaton) : Automaton :=
  if rising old.begBlk new.begBlk && !old.m1Running then { a with position := 0, elapsed := 0 } else a

/-- R294: forward integration. -/
def integrateForward (par : Params) (new : Flags) (dt : Time) (a : Automaton) : Automaton :=
  if new.m1Fwd then
    { a with position := a.position + travel par dt a, elapsed := a.elapsed + dt }
  else a

/-- R295: backward integration. -/
def integrateBackward (par : Params) (new : Flags) (dt : Time) (a : Automaton) : Automaton :=
  if new.m1Back then { a with position := a.position - travel par dt a } else a

/-- Phase 1 (R293, then R294, then R295). -/
def phase1 (par : Params) (old new : Flags) (dt : Time) (a : Automaton) : Automaton :=
  integrateBackward par new dt (integrateForward par new dt (homeReset old new a))

/-- R296: the back-speed override on. -/
def overrideOn (c : Cfg) (old new : Flags) (a : Automaton) : Automaton × List Emission :=
  if rising old.m1Back new.m1Back && c.backSpeedEn then
    ({ a with override := true }, [.act (.setPeriodM1 backPeriod)])
  else (a, [])

/-- R297: the override off. -/
def overrideOff (c : Cfg) (new : Flags) (a : Automaton) : Automaton × List Emission :=
  if new.begBlk && a.override && c.backSpeedEn then
    ({ a with override := false }, [.act .applyFwd])
  else (a, [])

/-- R345: purge initiation, ignored while a sequence runs. -/
def purgeInit (now : Time) (a : Automaton) : Automaton × List Emission :=
  if a.purgeActive then (a, [])
  else
    ({ a with purgeActive := true, purgeCount := 0, purgeLast := now, purgeValve := false },
      [.flowOpen, .logPurgeStart])

/-- R298: the return stroke at the end block, and the pending purge. -/
def returnStroke (c : Cfg) (new : Flags) (now : Time) (a : Automaton) : Automaton × List Emission :=
  if new.endBlk && !new.m1Back && c.manualReturnEn then
    if a.purgePending then
      let r := purgeInit now { a with purgePending := false }
      (r.1, [.act .m2Fwd, .act .m1Back] ++ r.2)
    else (a, [.act .m2Fwd, .act .m1Back])
  else (a, [])

/-- R299: motor 2 stopped at home. -/
def stopMotor2 (new : Flags) : List Emission :=
  if new.begBlk && new.m2Running && !new.m1Running then [.act .m2Stop] else []

/-- R300, R301: the deferred start fires once its delay has passed. -/
def manualStart (c : Cfg) (now : Time) (a : Automaton) : Automaton × List Emission :=
  if a.armed && decide (c.startDelay ≤ now - a.armTime) then
    ({ a with armed := false }, [.act .m1Fwd, .act .m2Fwd] ++ (if a.armAux then [.auxStart] else []))
  else (a, [])

/-- R304: one toggle of valve 2. -/
def purgeToggle (now : Time) (a : Automaton) : Automaton × List Emission :=
  ({ a with purgeValve := !a.purgeValve, purgeCount := a.purgeCount + 1, purgeLast := now },
    [.act (if a.purgeValve then .valve2Off else .valve2On)])

/-- R303's first test: is a toggle due. -/
def toggleDue (c : Cfg) (now : Time) (a : Automaton) : Bool :=
  decide (a.purgeCount < 2 * c.purgePulses) && decide (c.purgeDuration ≤ now - a.purgeLast)

/-- R303's second test with R305: the end of the sequence. -/
def purgeEnd (c : Cfg) (a : Automaton) : Automaton × List Emission :=
  if 2 * c.purgePulses ≤ a.purgeCount then
    ({ a with purgeValve := false, purgeActive := false }, [.act .valve2Off, .flowStart])
  else (a, [])

/-- Phase 5 (R303). -/
def purgeStep (c : Cfg) (now : Time) (a : Automaton) : Automaton × List Emission :=
  if a.purgeActive then
    let r1 := if toggleDue c now a then purgeToggle now a else (a, [])
    let r2 := purgeEnd c r1.1
    (r2.1, r1.2 ++ r2.2)
  else (a, [])

/-- Phase 6 (R307): the test on the flags; the peer is read when the emission is reached. -/
def auxShutdown (new : Flags) : List Emission :=
  if new.begBlk && !new.m1Fwd then [.auxEnd] else []

/-- R292: the time since the previous decode step, 0 where there was none. -/
def decodeDt (now : Time) (a : Automaton) : Time :=
  match a.tPrev with
  | none => 0
  | some t => now - t

/-- R290: one decode step on A, and what it puts out, in R311's order. -/
def decodeStep (par : Params) (c : Cfg) (now : Time) (word : Value) (a : Automaton) : Automaton × List Emission :=
  let old := a.flags
  let new := decodeStatus par.statusIndex word
  let a1 := phase1 par old new (decodeDt now a) { a with tPrev := some now, flags := new }
  let r2 := overrideOn c old new a1
  let r3 := overrideOff c new r2.1
  let r4 := returnStroke c new now r3.1
  let r5 := manualStart c now r4.1
  let r6 := purgeStep c now r5.1
  (r6.1, r2.2 ++ r3.2 ++ r4.2 ++ stopMotor2 new ++ r5.2 ++ r6.2 ++ auxShutdown new)

/-- R343: the last known period of a motor. -/
def setPeriod (m : Motor) (v : Value) (a : Automaton) : Automaton :=
  match m with
  | .m1 => { a with periodM1 := some v }
  | .m2 => { a with periodM2 := some v }

/-- R421: the quiescent posture of A. -/
def quiescent (a : Automaton) : Automaton :=
  { a with
    flags := {}, tPrev := none, elapsed := 0, armed := false, purgeActive := false, purgeCount := 0,
    purgeValve := false, purgePending := false, override := false, periodM1 := none, periodM2 := none }

end Sys2Proof.Machine
end

