-- ==== Sys2Proof/Machine/Ops.lean ====
section
/-! DEFINITION. The named operations on the state: outputs, the failure primitive, the free inputs, time, the queues,
the link lock and one step of a register transaction. -/

namespace Sys2Proof.Machine

/-! ### Outputs (R18, R388) -/

/-- One event at the core's ports. -/
def State.emit (e : Event) (s : State) : State := { s with out := s.out ++ [e] }

/-- One event where a condition holds. -/
def State.emitIf (b : Bool) (e : Event) (s : State) : State := { s with out := s.out ++ (if b then [e] else []) }

/-- R380: one log event. -/
def State.log (k : LogKind) (sev : Severity) (s : State) : State := s.emit (.log k sev)

/-- R17, R384: the failure primitive. `raise` transfers no control: it is one log event of severity `error`, and the
operation that met the error ends with its failure result. This is all the core has in the place of taking an exception:
"there is no trap vector, no saved state, no cause register and no return-from-trap operation". -/
def State.raise (e : ErrorKind) (s : State) : State := s.log (.error e) .error

/-- The result of a host command (R130). -/
def State.deliver (r : Result) (s : State) : State := { s.emit (.result r) with result := some r }

/-! ### Free inputs (R15, R36, R55): the next of the state's list, or the next free value (log 3) -/

/-- Counts a draw from Config's free values. -/
def State.countDraw (s : State) : State := { s with env := { s.env with draws := s.env.draws + 1 } }

/-- Does the port open (R203). -/
def State.drawOpenOk (s : State) : Bool × State :=
  match s.env.openOk with
  | b :: r => (b, { s with env := { s.env with openOk := r } })
  | [] => (Config.freeOpenOk s.env.draws, s.countDraw)

/-- The receive buffer's content after a connect (R203, U12). -/
def State.drawConnectRx (s : State) : List Byte × State :=
  match s.env.connectRx with
  | l :: r => (l, { s with env := { s.env with connectRx := r } })
  | [] => (Config.freeConnectRx s.env.draws, s.countDraw)

/-- Does the link take a request (R206). -/
def State.drawTxOk (s : State) : Bool × State :=
  match s.env.txOk with
  | b :: r => (b, { s with env := { s.env with txOk := r } })
  | [] => (Config.freeTxOk s.env.draws, s.countDraw)

/-- What one `Rx` meets (R15, R381). -/
def State.drawRx (s : State) : RxDraw × State :=
  match s.env.rx with
  | d :: r => (d, { s with env := { s.env with rx := r } })
  | [] =>
    (if Config.freeRxFails s.env.draws then .fails else .bytes (Config.freeRxBytes s.env.draws), s.countDraw)

/-- R55: `Aux.is_connected()`, false where no auxiliary peer is attached. -/
def State.readAuxConnected (s : State) : Bool × State :=
  if s.param.auxPresent then
    match s.env.auxConn with
    | b :: r => (b, { s with env := { s.env with auxConn := r } })
    | [] => (Config.freeAuxConnected s.env.draws, s.countDraw)
  else (false, s)

/-- R55: `Aux.is_running`, false where no auxiliary peer is attached. -/
def State.readAuxRunning (s : State) : Bool × State :=
  if s.param.auxPresent then
    match s.env.auxRun with
    | b :: r => (b, { s with env := { s.env with auxRun := r } })
    | [] => (Config.freeAuxRunning s.env.draws, s.countDraw)
  else (false, s)

/-- R403: USER_FWD_SETTINGS, read from the settings surface when APPLY_FWD_SETTINGS is emitted. -/
def State.drawUserFwd (s : State) : WriteList × State :=
  match s.env.userFwd with
  | l :: r => (l, { s with env := { s.env with userFwd := r } })
  | [] => (Config.freeUserFwd s.env.draws, s.countDraw)

/-! ### Time (R12, R392) -/

/-- How far the time input has moved on since it was last read. -/
def State.drawTick (s : State) : Time × State :=
  match s.env.ticks with
  | d :: r => (d, { s with env := { s.env with ticks := r } })
  | [] => (Config.freeTick s.env.draws, s.countDraw)

/-- Reads `now` inside a command or in the poller: no earlier than it was last read (R392 "non-decreasing"), nor than the
waits since then allow (R12). The value read is the clock of the state answered. -/
def State.readNow (s : State) : State :=
  let d := s.drawTick
  let now := max (s.clock + max 0 d.1) s.reached
  { d.2 with clock := now, reached := now }

/-- Time has come to `u` at least. -/
def State.reach (u : Time) (s : State) : State := { s with reached := max s.reached u }

/-- The same, where a condition holds. -/
def State.reachIf (b : Bool) (u : Time) (s : State) : State :=
  { s with reached := if b then max s.reached u else s.reached }

/-- R386: the time input is not earlier than the previous decode step. -/
def State.timeOk (s : State) : Bool :=
  match s.a.tPrev with
  | none => true
  | some t => decide (t ≤ s.clock)

/-- R9: the least time a wait lets pass. -/
def delayBound (par : Params) : Delay → Time
  | .readSettle => par.delays.readSettle.val
  | .writeSettle => par.delays.writeSettle.val
  | .interpoll => par.delays.interpoll.val
  | .backoff => par.delays.backoff.val
  | .join => par.delays.join.val

/-- The earliest time at which a wait can end that begins now. -/
def State.wakeAt (d : Delay) (s : State) : Time := s.reached + delayBound s.param d

/-- `Sleep(T)` ends (R15): the agent has waited until `wake` at least, which was set when the wait began. -/
def State.sleep (g : Agent) (d : Delay) (wake : Time) (s : State) : State :=
  (s.emit (.sleep g d (delayBound s.param d))).reach wake

/-! ### The sample queues (R19, R43) -/

/-- R235: `Push(q, e)` on one queue. -/
def pushSample (e : Sample) (l : List Sample) : List Sample :=
  if queueCap ≤ l.length then l.tail ++ [e] else l ++ [e]

/-- `Push` on the queue with index `j`. -/
def State.push (j : Nat) (e : Sample) (s : State) : State := { s with q := s.q.modify j (pushSample e) }

/-- R19: the samples `DrainAll` returns, oldest first. -/
def State.queue (j : Nat) (s : State) : List Sample := (s.q[j]?).getD []

/-- R19: `DrainAll` empties the queue. -/
def State.clearQueue (j : Nat) (s : State) : State := { s with q := s.q.modify j (fun _ => []) }

/-- R352: the queues of a configuration in the order DRAIN visits them. -/
def drainOrder (par : Params) (config : Option (List (Addr × Nat))) : List Nat :=
  let qids := (config.getD []).map Prod.snd
  let first := par.drainOrder.dedup.filter (fun j => qids.contains j)
  first ++ qids.filter (fun j => !first.contains j)

/-! ### The transport (R33-R37, R200-R209) -/

/-- R201: `Acquire` by an agent that finds the lock free, and `Release`. -/
def State.setLock (o : Option Agent) (s : State) : State := { s with t := { s.t with lock := o } }

/-- The receive buffer's new content. -/
def State.setRx (l : List Byte) (s : State) : State := { s with t := { s.t with rx := l } }

/-- The settle delay of a request (R206, R207). -/
def settleDelay : Req → Delay
  | .read _ => .readSettle
  | .write _ _ => .writeSettle

/-- R207's last log line: a write reports its own success or failure. -/
def State.logWrite (r : Req) (ok : Bool) (s : State) : State :=
  match r with
  | .read _ => s
  | .write a v => s.log (.write a v) (if ok then .success else .error)

/-- One step of a transaction: the agent waits for the lock, has moved on, or has ended with a value or none. -/
inductive XStep where
  | wait
  | more (x : Xact) (s : State)
  | done (v : Option Value) (s : State)

/-- The check of the connection, the flush and the transmission (R206, R207): an error here ends the transaction with
the lock released. -/
def sendRequest (g : Agent) (x : Xact) (s : State) : XStep :=
  if s.t.connected then
    let d := ((s.setRx []).emit (.flush g)).drawTxOk
    if d.1 then
      .more { x with phase := .settle (s.wakeAt (settleDelay x.req)) } (d.2.emit (.tx g x.frame.bytes))
    else .done none (((d.2.emit (.txFailed g x.frame.bytes)).setLock none).raise .io)
  else .done none ((s.setLock none).raise .notOpen)

/-- `Rx` within T_RX_TIMEOUT (R37), PARSE, Release and the log (R206, R207). Any bytes may have arrived (R209); `Rx` takes
five at most from the head of the buffer, and the rest stays there until the next flush. It returns fewer than five only
when the timeout has passed (R15), which is at `late`. -/
def receiveReply (g : Agent) (x : Xact) (late : Time) (s : State) : XStep :=
  let d := s.drawRx
  match d.1 with
  | .fails =>
    .done none ((((d.2.emit (.rxFailed g)).setLock none).raise .io).logWrite x.req false)
  | .bytes more =>
    let have5 := d.2.t.rx ++ more
    let r := have5.take 5
    let v := parse r x.req.addr d.2.t.deviceId
    let s1 := (((d.2.setRx (have5.drop 5)).emit (.rx g r s.t.portCfg.timeout)).reachIf (r.length < 5) late).setLock none
    let s2 := match v with
      | some _ => s1
      | none => s1.raise (failKind r x.req.addr d.2.t.deviceId)
    .done v (s2.logWrite x.req v.isSome)

/-- One step of a transaction of agent `g` (R206, R207, R210). -/
def xactStep (g : Agent) (x : Xact) (s : State) : XStep :=
  match x.phase with
  | .acquire =>
    match s.t.lock with
    | none => .more { x with phase := .send } (s.setLock (some g))
    | some _ => .wait
  | .send => sendRequest g x s
  | .settle wake =>
    let s1 := s.sleep g (settleDelay x.req) wake
    .more { x with phase := .receive (s1.reached + s.t.portCfg.timeout) } s1
  | .receive late => receiveReply g x late s

end Sys2Proof.Machine
end

