-- ==== Sys2Proof/Machine/Run.lean ====
section
/-! DEFINITION. How the consumer agent does the work of a command.

A command's work is done piece by piece. Between two pieces the schedule may give the turn away (R94, R200, D1): what is
left then stays in `Consumer.todo`, and a later step goes on with it. With nothing scheduled the command runs to its end
(log 2), unless it waits: for the lock the poller holds (R201), or for the poller to exit (R232). -/

namespace Sys2Proof.Machine

/-- May the consumer go on: nothing is scheduled, or its own turn, which this uses up; none where another moves next. -/
def State.proceed (s : State) : Option State :=
  match s.env.sched with
  | [] => some s
  | .consumer :: r => some { s with env := { s.env with sched := r } }
  | _ :: _ => none

/-- After a piece of work that ended as `r`: where it left nothing and the consumer may go on, `next`; else what it left
and `rest` are left. -/
def afterPiece (r : State × List Work) (rest : List Work) (next : State → State × List Work) : State × List Work :=
  match r with
  | (s, []) =>
    match s.proceed with
    | some s' => next s'
    | none => (s, rest)
  | (s, w :: ws) => (s, w :: ws ++ rest)

/-- As many steps of a transaction as the turn allows, `fuel` at most; a transaction has four. -/
def runXactN : Nat → Xact → State → XStep
  | 0, x, s => .more x s
  | fuel + 1, x, s =>
    match xactStep .consumer x s with
    | .wait => .wait
    | .done v s' => .done v s'
    | .more x' s' =>
      match s'.proceed with
      | some s'' => runXactN fuel x' s''
      | none => .more x' s'

/-- The consumer's transaction, to its end or to the end of the turn. -/
def runXact (x : Xact) (s : State) : XStep := runXactN 4 x s

/-- R360: the writes of an action. APPLY_FWD_SETTINGS reads the settings surface here. -/
def actionWrites (act : Action) (s : State) : List Write × State :=
  match act with
  | .m1Fwd => (s.param.actionWrites.m1Fwd.toList, s)
  | .m1Back => (s.param.actionWrites.m1Back.toList, s)
  | .m2Fwd => (s.param.actionWrites.m2Fwd.toList, s)
  | .m2Stop => (s.param.actionWrites.m2Stop.toList, s)
  | .valve2On => (s.param.actionWrites.valve2On.toList, s)
  | .valve2Off => (s.param.actionWrites.valve2Off.toList, s)
  | .setPeriodM1 v => ([(s.param.regs.setPeriodM1, v)], s)
  | .applyFwd => (s.drawUserFwd.1.toList, s.drawUserFwd.2)

/-- R360: `Emit(a)` from its remaining writes on; `ok` says that all before succeeded. Every write is attempted. Answers
the state and what is left to do. -/
def runWrites (act : Action) : List Write → Bool → State → State × List Work
  | [], ok, s => (s.log (.command act) (if ok then .success else .error), [])
  | w :: rest, ok, s =>
    let x := writeXact s.t.deviceId w.1 w.2
    match s.proceed with
    | none => (s, [.xact x (.emit act rest ok)])
    | some s1 =>
      match runXact x s1 with
      | .wait => (s1, [.xact x (.emit act rest ok)])
      | .more x' s2 => (s2, [.xact x' (.emit act rest ok)])
      | .done v s2 => runWrites act rest (ok && v.isSome) s2

/-- One thing a decode step or PURGE puts out (R311, R345). Calls on a peer that is not attached do nothing (R55). -/
def runEmission (e : Emission) (s : State) : State × List Work :=
  match e with
  | .act act => runWrites act (actionWrites act s).1 true (actionWrites act s).2
  | .flowOpen => (s.emitIf s.param.flowPresent .flowOpen, [])
  | .flowStart => (s.emitIf s.param.flowPresent .flowStart, [])
  | .logPurgeStart => (s.log .purgeStart .info, [])
  | .auxStart =>
    let c := s.readAuxConnected
    (c.2.emitIf c.1 .auxSendStart, [])
  | .auxEnd =>
    let c := s.readAuxConnected
    let r := c.2.readAuxRunning
    (r.2.emitIf (c.1 && r.1) .auxSendEnd, [])

/-- The emissions of one decode step, in order, each a piece. -/
def runEmissions : List Emission → State → State × List Work
  | [], s => (s, [])
  | e :: rest, s => afterPiece (runEmission e s) (rest.map Work.emission) (runEmissions rest)

/-- R348: what VERIFY makes of the register's value. -/
def verifyResult (v : Option Value) (s : State) : State :=
  match v with
  | some x =>
    if x.extractLsb' 8 8 = s.param.idCode then
      (s.log .verifyOk .success).deliver (.version (some (x.extractLsb' 0 8)))
    else (s.log .verifyFailed .warning).deliver (.version none)
  | none => (s.log .verifyFailed .warning).deliver (.version none)

/-- The end of a transaction: its result goes to what asked for it. -/
def afterXact (k : After) (v : Option Value) (s : State) : State × List Work :=
  match k with
  | .read => (s.deliver (.value v), [])
  | .write => (s.deliver (.bool v.isSome), [])
  | .verify => (verifyResult v s, [])
  | .emit act rest ok => runWrites act rest (ok && v.isSome) s

/-- R290's state change at the current time input: A after the decode step. -/
def State.decodeNow (word : Value) (s : State) : State × List Emission :=
  let r := decodeStep s.param s.c s.clock word s.a
  ({ s with a := r.1 }, r.2)

/-- R350's tests on one sample, but for what its decode step puts out: the decode step reads `now` at its own step, and
the periods follow it (log 16). -/
def applySample (e : Sample) (s : State) : State × List Emission :=
  let s0 := { s with con := { s.con with drained := s.con.drained ++ [e] } }
  let r := if e.1 = s0.param.regs.status then s0.readNow.decodeNow e.2 else (s0, [])
  let s1 := if e.1 = s0.param.periodSrcM1 then { r.1 with a := setPeriod .m1 e.2 r.1.a } else r.1
  let s2 := if e.1 = s0.param.periodSrcM2 then { s1 with a := setPeriod .m2 e.2 s1.a } else s1
  (s2, r.2)

/-- R350's inner loop over the samples of one queue: each sample's change of A is a piece, and each of its emissions. -/
def runSamples : List Sample → State → State × List Work
  | [], s => (s, [])
  | e :: rest, s =>
    let r := applySample e s
    afterPiece (afterPiece (r.1, []) (r.2.map Work.emission) (runEmissions r.2)) [.samples rest] (runSamples rest)

/-- R350's outer loop, each queue emptied when it is reached (R351), which is a piece; the samples collected are the
result. -/
def runDrain : List Nat → State → State × List Work
  | [], s =>
    ({ s.deliver (.samples s.con.drained) with con := { s.con with drained := [] } }, [])
  | j :: js, s =>
    afterPiece (afterPiece (s.clearQueue j, []) [.samples (s.queue j)] (runSamples (s.queue j))) [.drain js] (runDrain js)

/-- R203, once the lock is taken; it is free again at the end. Connecting while connected changes nothing. -/
def connectNow (cfg : PortCfg) (s : State) : State :=
  if s.t.connected then s.deliver (.bool true)
  else
    let d := s.drawOpenOk
    let r := if d.1 then d.2.drawConnectRx else (s.t.rx, d.2)
    let s1 : State := { r.2 with t := { s.t with
      connected := d.1
      portCfg := if d.1 then cfg else s.t.portCfg
      rx := r.1 } }
    ((s1.emit (.portOpened cfg d.1)).emitIf (!d.1) (.log (.error .openFailed) .error)).deliver (.bool d.1)

/-- R204, once the lock is taken: the handle is closed, whatever the port says. -/
def disconnectNow (s : State) : State :=
  { s with t := { s.t with connected := false } }.emit .portClosed

/-- R421: the quiescent posture. -/
def posture (s : State) : State := { s with a := quiescent s.a, q := s.q.map (fun _ => []) }

/-- One piece of work: the state after it, and what is left of it. -/
def runItem (w : Work) (s : State) : State × List Work :=
  match w with
  | .xact x k =>
    match runXact x s with
    | .wait => (s, [.xact x k])
    | .more x' s' => (s', [.xact x' k])
    | .done v s' => afterXact k v s'
  | .emission e => runEmission e s
  | .samples l => runSamples l s
  | .drain js => runDrain js s
  | .connect cfg => if s.t.lock = none then (connectNow cfg s, []) else (s, [.connect cfg])
  | .disconnect => if s.t.lock = none then (disconnectNow s, []) else (s, [.disconnect])
  | .posture => (posture s, [])
  | .join wake => if s.p.alive then (s, [.join wake]) else (s, [])
  | .done r => (s.deliver r, [])

/-- Leaves work for a later step, before what was there. -/
def State.leave (ws : List Work) (s : State) : State := { s with con := { s.con with todo := ws ++ s.con.todo } }

/-- The consumer's work, to its end or to the end of the turn. -/
def runWork : List Work → State → State
  | [], s => s
  | w :: ws, s =>
    match runItem w s with
    | (s1, l :: ls) => s1.leave (l :: ls ++ ws)
    | (s1, []) =>
      match ws with
      | [] => s1
      | _ :: _ =>
        match s1.proceed with
        | some s2 => runWork ws s2
        | none => s1.leave ws

/-- A host command: its work, where the time input is not earlier than the previous decode step (R386). -/
def command (s : State) (k : State → State) : Out :=
  if s.timeOk then .next (k s) else .fault .timeBackwards

/-- Does the consumer's work wait: for the lock (R201), or for the poller to exit (R232). -/
def State.consumerWaits (s : State) : Bool :=
  match s.con.todo with
  | .xact x _ :: _ => decide (x.phase = .acquire) && s.t.lock.isSome
  | .connect _ :: _ => s.t.lock.isSome
  | .disconnect :: _ => s.t.lock.isSome
  | .join _ :: _ => s.p.alive
  | _ => false

end Sys2Proof.Machine
end

