-- ==== Sys2Proof/Machine/AutomatonOps.lean ====
section
/-! DEFINITION. The meanings of the automaton's commands (45_automaton_decode.md R290, 46_automaton_ops.md). -/

namespace Sys2Proof.Machine

/-- DECODE (R290): the change of A, then what the step puts out, one after another (R311). -/
def execDecode (word : Value) (s : State) : Out :=
  command s fun s =>
    let r := s.decodeNow word
    runWork (r.2.map Work.emission ++ [.done .unit]) r.1

/-- PERIOD (R343), and the one log event that D41 gives every automaton host command (log 30). -/
def execPeriod (motor : Motor) (value : Value) (s : State) : Out :=
  command s fun s =>
    ({ s with a := setPeriod motor value s.a }.log (.period motor) (Config.periodSeverity motor value)).deliver .unit

/-- ARM (R340). -/
def execArm (aux : Bool) (s : State) : Out :=
  command s fun s =>
    ({ s with a := { s.a with armed := true, armTime := s.clock, armAux := aux } }.log .arm .info).deliver .unit

/-- CANCEL (R341). -/
def execCancel (s : State) : Out :=
  command s fun s => ({ s with a := { s.a with armed := false } }.log .cancel .info).deliver .unit

/-- PURGE (R345). -/
def execPurge (s : State) : Out :=
  command s fun s =>
    let r := purgeInit s.clock s.a
    runWork (r.2.map Work.emission ++ [.done .unit]) { s with a := r.1 }

/-- PPEND (R346), and its one log event (D41, log 30). -/
def execPpend (b : Bool) (s : State) : Out :=
  command s fun s =>
    ({ s with a := { s.a with purgePending := b } }.log .purgePending (Config.pendingSeverity b)).deliver .unit

/-- SETCFG (R347); a value that is none of the field's type is refused (R132). -/
def execSetcfg (field : CfgField) (value : Rat) (s : State) : Out :=
  command s fun s =>
    if cfgAccepts field value then
      ({ s with c := cfgSet field value s.c }.log (.setConfig field) .info).deliver (.bool true)
    else s.deliver (.refused .illegalOperand)

/-- VERIFY (R348). -/
def execVerify (s : State) : Out :=
  command s fun s => runWork [.xact (readXact s.t.deviceId s.param.regs.verify) .verify] s

/-- DRAIN (R350). It is the consumer's and has no log event of its own, nor have the period updates it makes (log 30). -/
def execDrain (s : State) : Out :=
  command s fun s =>
    runWork [.drain (drainOrder s.param s.p.config)] { s with con := { s.con with drained := [] } }

end Sys2Proof.Machine
end

