-- ==== Sys2Proof/Machine/CodecOps.lean ====
section
/-! DEFINITION. The meanings of the pure commands: CRC7, BUILD, PARSE, SDECODE. They change nothing but the result. -/

namespace Sys2Proof.Machine

/-- CRC7 (R150). -/
def execCrc7 (bytes : List Byte) (s : State) : Out :=
  command s fun s => s.deliver (.crc (crc7 bytes))

/-- BUILD (R170), with `dev = T.device_id`; the address is masked (R132). -/
def execBuild (address : Nat) (w : Bool) (data : Value) (s : State) : Out :=
  command s fun s => s.deliver (.frame (build s.t.deviceId (maskAddr address) w data))

/-- PARSE (R172). -/
def execParse (resp : List Byte) (addr : Addr) (dev : DevId) (s : State) : Out :=
  command s fun s => s.deliver (.value (parse resp addr dev))

/-- SDECODE (R270). -/
def execSdecode (word : Value) (s : State) : Out :=
  command s fun s => s.deliver (.flags (decodeStatus s.param.statusIndex word))

end Sys2Proof.Machine
end

