-- ==== Sys2Proof/Machine/LinkOps.lean ====
section
/-! DEFINITION. The meanings of the three link frames (30_encoding.md R115-R117; log 11).

A request frame handed to the transmit side is the request of one transaction of the transport, R206's or R207's. A
response frame is what the device sends: its bytes come into the receive buffer (R36, R404), where an `Rx` takes them. -/

namespace Sys2Proof.Machine

/-- READ_REQ (R115): the transaction of R206 whose request this frame is. -/
def execReadReq (dev : DevId) (addr : Addr) (crc : Crc) (s : State) : Out :=
  .next (runWork [.xact ⟨.read addr, readReqFrame dev addr crc, .acquire⟩ .read] s)

/-- WRITE_REQ (R116): the transaction of R207 whose request this frame is. -/
def execWriteReq (dev : DevId) (addr : Addr) (data : Value) (crc : Crc) (s : State) : Out :=
  .next (runWork [.xact ⟨.write addr data, writeReqFrame dev addr data crc, .acquire⟩ .write] s)

/-- RESPONSE (R117): the five bytes arrive. -/
def execResponse (w : Bool) (dev : DevId) (addr : Addr) (data : Value) (crc : Crc) (x y z v : Bool) (s : State) : Out :=
  .next (s.setRx (s.t.rx ++ (responseFrame w dev addr data crc x y z v).bytes))

end Sys2Proof.Machine
end

