-- ==== Sys2Proof/Machine/PollerOps.lean ====
section
/-! DEFINITION. The background poller (43_poller.md): the meanings of PCONFIG, PSTART, PSTOP, and the poller agent's
own step (R234). -/

namespace Sys2Proof.Machine

/-! ### Host commands -/

/-- PCONFIG (R230): refused while the poller runs or lives; an empty list leaves it unconfigured. -/
def execPconfig (addrs : List Addr) (s : State) : Out :=
  command s fun s =>
    if s.p.running || s.p.alive then s.deliver (.bool false)
    else match addrs with
      | [] => { s with p := { s.p with config := none } }.deliver (.bool false)
      | _ :: _ =>
        { s with
          p := { s.p with config := some addrs.zipIdx }
          q := addrs.map (fun _ => []) }.deliver (.bool true)

/-- PSTART (R231). -/
def execPstart (s : State) : Out :=
  command s fun s =>
    match s.p.config with
    | none => s.deliver (.bool false)
    | some _ =>
      if s.p.running || s.p.alive then s.deliver (.bool false)
      else
        { s with p := { s.p with running := true, alive := true, ctl := .read 0, passT0 := some s.clock } }.deliver
          (.bool true)

/-- PSTOP (R232): the run flag is cleared, then the consumer waits for the poller's exit or for T_JOIN (log 15). -/
def execPstop (s : State) : Out :=
  command s fun s => runWork [.join (s.wakeAt .join), .done .unit] { s with p := { s.p with running := false } }

/-! ### The poller agent -/

/-- The poller's control state and the progress of its read. -/
def State.setPoll (ctl : PollCtl) (io : PollIo) (s : State) : State := { s with p := { s.p with ctl := ctl, io := io } }

/-- The entry `L[i]` of the configured list (R234). -/
def State.pollEntry (i : Nat) (s : State) : Option (Addr × Nat) := (s.p.config.getD [])[i]?

/-- R233: the agent's exit. -/
def State.pollExit (s : State) : State := { s with p := { s.p with alive := false, ctl := .idle } }

/-- R234's `EndPass`: the rate report, then the new-data report (R237, R238). -/
def endPass (s : State) : State :=
  let s1 := s.readNow
  let dt := s1.clock - s.p.passT0.getD s1.clock
  let s2 : State := { s1 with p := { s1.p with passT0 := some s1.clock, ctl := .read 0 } }
  (s2.emitIf s.p.rateCb (.rate dt)).emitIf s.p.dataCb .newData

/-- R234's `Read(i)` at its flag check: exit, begin to back off, or begin the read. -/
def pollCheck (i : Nat) (s : State) : Option State :=
  if !s.p.running then some s.pollExit
  else if !s.t.connected then some (s.setPoll (.backoff i) (.asleep (s.wakeAt .backoff)))
  else (s.pollEntry i).map fun e => s.setPoll (.read i) (.xact (readXact s.t.deviceId e.1))

/-- R234's end of `Read(i)`: a value is pushed (R235), none pushes nothing (R239); the delay begins. -/
def pollPush (i : Nat) (v : Option Value) (s : State) : Option State :=
  (s.pollEntry i).map fun e =>
    match v with
    | some x => (s.push e.2 (e.1, x)).setPoll (.delay i) (.asleep (s.wakeAt .interpoll))
    | none => s.setPoll (.delay i) (.asleep (s.wakeAt .interpoll))

/-- R234: one step of the poller agent; none where it has none (it is not alive, or waits for the lock). In the last arm
its progress does not fit its control state, which no run reaches (log 19). -/
def pollerStep (s : State) : Option State :=
  if !s.p.alive then none
  else match s.p.ctl, s.p.io with
    | .read i, .idle => pollCheck i s
    | .read _, .xact x =>
      match xactStep .poller x s with
      | .wait => none
      | .more x' s' => some (s'.setPoll s'.p.ctl (.xact x'))
      | .done v s' => some (s'.setPoll s'.p.ctl (.got v))
    | .read i, .got v => pollPush i v s
    | .delay i, .asleep wake =>
      some ((s.sleep .poller .interpoll wake).setPoll
        (if i + 1 < (s.p.config.getD []).length then .read (i + 1) else .endPass) .idle)
    | .endPass, .idle => some (endPass s)
    | .backoff i, .asleep wake => some ((s.sleep .poller .backoff wake).setPoll (.read i) .idle)
    | _, _ => none

end Sys2Proof.Machine
end

