-- ==== Sys2Proof/Machine/TransportOps.lean ====
section
/-! DEFINITION. The meanings of the transport's commands (42_transport.md): CONNECT, DISCONNECT, ISCONN, RDREG, WRREG. -/

namespace Sys2Proof.Machine

/-- CONNECT (R203). An operand the port does not accept is refused (R132, R9). -/
def execConnect (cfg : PortCfg) (s : State) : Out :=
  command s fun s =>
    if portAccepts cfg then runWork [.connect cfg] s else s.deliver (.refused .illegalOperand)

/-- DISCONNECT (R204): the handle is closed under the lock, then the quiescent posture. -/
def execDisconnect (s : State) : Out :=
  command s fun s => runWork [.disconnect, .posture, .done .unit] s

/-- ISCONN (R205): it takes no lock and writes no state. -/
def execIsconn (s : State) : Out :=
  command s fun s => s.deliver (.bool s.t.connected)

/-- RDREG (R206). -/
def execRdreg (addr : Addr) (s : State) : Out :=
  command s fun s => runWork [.xact (readXact s.t.deviceId addr) .read] s

/-- WRREG (R207). -/
def execWrreg (addr : Addr) (value : Value) (s : State) : Out :=
  command s fun s => runWork [.xact (writeXact s.t.deviceId addr value) .write] s

end Sys2Proof.Machine
end

