-- ==== Sys2Proof/Machine/Dispatch.lean ====
section
/-! DEFINITION. One arm per instruction. -/

namespace Sys2Proof.Machine

def exec (i : Instr) (s : State) : Host.Outcome State Fault Refusal :=
  match i with
  | .crc7 bytes => Sys2Proof.Machine.execCrc7 bytes s
  | .build address w data => Sys2Proof.Machine.execBuild address w data s
  | .parse resp addr dev => Sys2Proof.Machine.execParse resp addr dev s
  | .sdecode word => Sys2Proof.Machine.execSdecode word s
  | .connect cfg => Sys2Proof.Machine.execConnect cfg s
  | .disconnect => Sys2Proof.Machine.execDisconnect s
  | .isconn => Sys2Proof.Machine.execIsconn s
  | .rdreg addr => Sys2Proof.Machine.execRdreg addr s
  | .wrreg addr value => Sys2Proof.Machine.execWrreg addr value s
  | .pconfig addrs => Sys2Proof.Machine.execPconfig addrs s
  | .pstart => Sys2Proof.Machine.execPstart s
  | .pstop => Sys2Proof.Machine.execPstop s
  | .decode word => Sys2Proof.Machine.execDecode word s
  | .period motor value => Sys2Proof.Machine.execPeriod motor value s
  | .arm aux => Sys2Proof.Machine.execArm aux s
  | .cancel => Sys2Proof.Machine.execCancel s
  | .purge => Sys2Proof.Machine.execPurge s
  | .ppend b => Sys2Proof.Machine.execPpend b s
  | .setcfg field value => Sys2Proof.Machine.execSetcfg field value s
  | .verify => Sys2Proof.Machine.execVerify s
  | .drain => Sys2Proof.Machine.execDrain s
  | .readReq dev addr crc => Sys2Proof.Machine.execReadReq dev addr crc s
  | .writeReq dev addr data crc => Sys2Proof.Machine.execWriteReq dev addr data crc s
  | .response w dev addr data crc x y z v => Sys2Proof.Machine.execResponse w dev addr data crc x y z v s

end Sys2Proof.Machine
end

