-- ==== Sys2Proof/Machine/Agents.lean ====
section
/-! DEFINITION. The turns of the agents (R405, R94): the consumer fetches a command or goes on with one, the poller
takes a step, the device's bytes arrive, a stop's wait runs out. -/

namespace Sys2Proof.Machine

/-- The consumer takes the next item of its port and runs it to its end or to the end of its turn (R130). The item's
`now` is the time input; where it is earlier than it was last read, or than the previous decode step, there is no step
(R386). What spells no command is refused: nothing of T, P, Q, A or C changes (R131, R132, R385). -/
def fetchItem (it : Item) (s : State) : Out :=
  if it.now < s.clock then .fault .timeBackwards
  else
    let s1 : State := { s with clock := it.now, reached := max s.reached it.now }
    if s1.timeOk then
      match decode it.port it.bytes with
      | .ok i => exec i s1
      | .error r => .next (s1.deliver (.refused r))
    else .fault .timeBackwards

/-- Has the consumer a step. -/
def State.consumerCan (s : State) : Bool :=
  match s.con.todo with
  | [] => !s.inbox.isEmpty
  | _ :: _ => !s.consumerWaits

/-- The consumer's turn: it goes on with its command, or fetches the next. -/
def consumerTurn (s : State) : Out :=
  match s.con.todo with
  | w :: ws =>
    if s.timeOk then .next (runWork (w :: ws) { s with con := { s.con with todo := [] } }) else .fault .timeBackwards
  | [] =>
    match s.inbox with
    | it :: rest => fetchItem it { s with inbox := rest }
    | [] => .next s

/-- The device's turn: the next bytes on their way arrive in the receive buffer (R36), as a response frame where they
are one. -/
def deviceTurn (s : State) : Out :=
  match s.linkIn with
  | [] => .next s
  | chunk :: rest =>
    match decodeRx chunk with
    | .ok i => exec i { s with linkIn := rest }
    | .error _ => .next (({ s with linkIn := rest } : State).setRx (s.t.rx ++ chunk))

/-- T_JOIN passes: a stop's wait ends (R232: "after which the caller proceeds regardless"). -/
def joinTurn (s : State) : Out :=
  match s.con.todo with
  | .join wake :: ws =>
    if s.timeOk then
      .next (runWork ws (({ s with con := { s.con with todo := [] } } : State).sleep .consumer .join wake))
    else .fault .timeBackwards
  | _ => .next s

/-- A scheduled turn. An agent that has no step gives its turn to the other (R201: "g has no step (it waits)"); where
neither has one the machine waits for input. -/
def turnStep (turn : Turn) (s : State) : Out :=
  match turn with
  | .poller =>
    match pollerStep s with
    | some s' => .next s'
    | none => if s.consumerCan then consumerTurn s else .next s
  | .consumer =>
    if s.consumerCan then consumerTurn s
    else match pollerStep s with
      | some s' => .next s'
      | none => .next s
  | .device => deviceTurn s
  | .joinTimeout => joinTurn s

/-- The step with nothing scheduled (log 2). -/
def unscheduledStep (s : State) : Out :=
  if s.consumerCan then consumerTurn s
  else match s.linkIn with
    | _ :: _ => deviceTurn s
    | [] =>
      match pollerStep s with
      | some s' => .next s'
      | none => .next s

/-- The time a command may run at: not before the time input as last read, nor before the previous decode step. -/
def State.nextNow (s : State) : Time :=
  match s.a.tPrev with
  | none => s.clock
  | some t => max s.clock t

/-- Places bytes where the next step fetches them, and gives that step the turn: a host command or a request frame at
the head of the consumer's port, the consumer idle and not holding the lock; a response at the head of the bytes on
their way (log 22). -/
def placeWord (port : Port) (bytes : List Byte) (s : State) : State :=
  match port with
  | .rx => { s with linkIn := bytes :: s.linkIn, env := { s.env with sched := .device :: s.env.sched } }
  | .host | .tx =>
    { s with
      inbox := ⟨s.nextNow, port, bytes⟩ :: s.inbox
      con := { s.con with todo := [] }
      t := { s.t with lock := if s.t.lock = some .consumer then none else s.t.lock }
      env := { s.env with sched := .consumer :: s.env.sched } }

end Sys2Proof.Machine
end

