-- ==== Sys2Proof/Machine/Step.lean ====
section
/-! DEFINITION. One step of the machine, and how the host places an instruction where the next step fetches it. -/

namespace Sys2Proof.Machine

/-- One step: the schedule's next turn, or, with none scheduled, the first that has a step of the consumer, the device
and the poller (log 2). -/
def step (s : State) : Host.Outcome State Fault Refusal :=
  match s.env.sched with
  | [] => unscheduledStep s
  | turn :: rest => turnStep turn { s with env := { s.env with sched := rest } }

/-- The state with the table word placed where the next step fetches it: see `placeWord`. -/
def State.withFetchWord (s : State) (nbits w : Nat) : State :=
  placeWord (tableBytes nbits w).1 (tableBytes nbits w).2 s

end Sys2Proof.Machine
end

