-- ==== Sys2Proof/Safety.lean ====
section
/-! DEFINITION. What counts as a safe state and a safe run, in the terms the statements use. -/

namespace Sys2Proof.Machine

/-! ### The link and its lock (R200-R202) -/

/-- What the link's traffic says of the transaction that is on it: none, one that has flushed, one that has sent its
request and not had its reply. -/
inductive LinkPhase where
  | idle
  | flushed (g : Agent)
  | sent (g : Agent)
  deriving DecidableEq, Repr, Inhabited

/-- One event of the link's traffic. None where it breaks into another transaction, or comes out of its order (R91: flush,
transmit, receive). Other events say nothing of the link. -/
def linkEvent (e : Event) (ph : LinkPhase) : Option LinkPhase :=
  match e with
  | .flush g => if ph = .idle then some (.flushed g) else none
  | .tx g _ => if ph = .flushed g then some (.sent g) else none
  | .txFailed g _ => if ph = .flushed g then some .idle else none
  | .rx g _ _ => if ph = .sent g then some .idle else none
  | .rxFailed g => if ph = .sent g then some .idle else none
  | _ => some ph

/-- Reads traffic on from a phase; none where it is no sequence of whole transactions, the last perhaps under way. -/
def linkTraceFrom (ph : LinkPhase) (l : List Event) : Option LinkPhase :=
  l.foldl (fun o e => o.bind (linkEvent e)) (some ph)

/-- The phase the whole output leaves the link in. -/
def linkTrace (l : List Event) : Option LinkPhase := linkTraceFrom .idle l

/-- The step at which a transaction that holds the lock is; none where it has not taken it. -/
def Xact.flight (x : Xact) : Option XPhase := if x.phase = .acquire then none else some x.phase

/-- The transaction with which work begins, where it holds the lock. -/
def flightOf : List Work → Option XPhase
  | .xact x _ :: _ => x.flight
  | _ => none

/-- The poller's transaction, where it holds the lock. -/
def PollIo.flight : PollIo → Option XPhase
  | .xact x => x.flight
  | .idle => none
  | .got _ => none
  | .asleep _ => none

/-- The phase of the link while agent `g`'s transaction is at a step. -/
def phaseOn (g : Agent) (ph : XPhase) : LinkPhase :=
  match ph with
  | .acquire => .idle
  | .send => .idle
  | .settle _ => .sent g
  | .receive _ => .sent g

/-- The lock is held by the agent that is inside a transaction, and by no one where none is; never are both inside one;
and the traffic so far is a sequence of whole transactions but for the holder's own. `fc` and `fp` are the steps at which
the consumer's and the poller's transactions are. -/
def LinkOk (lock : Option Agent) (fc fp : Option XPhase) (trace : Option LinkPhase) : Prop :=
  match fc, fp with
  | none, none => lock = none ∧ trace = some .idle
  | some ph, none => lock = some .consumer ∧ trace = some (phaseOn .consumer ph)
  | none, some ph => lock = some .poller ∧ trace = some (phaseOn .poller ph)
  | some _, some _ => False

/-- Only the first piece of the consumer's work may be inside a transaction. -/
def tailQuiet (l : List Work) : Prop := ∀ w ∈ l.tail, flightOf [w] = none

/-- How far the poller has come fits its control state (R234): a read goes on in `Read(i)` alone, a sleep in `Delay(i)`
and `Backoff(i)`, which are nothing else. -/
def PollIo.fits : PollIo → PollCtl → Bool
  | .idle, .idle => true
  | .idle, .read _ => true
  | .idle, .endPass => true
  | .xact _, .read _ => true
  | .got _, .read _ => true
  | .asleep _, .delay _ => true
  | .asleep _, .backoff _ => true
  | _, _ => false

/-- R201, R202: the lock and the link's traffic. The last two clauses rule out states of the poller that no run reaches:
its progress fits its control state, and it has made some only while it lives. -/
structure LinkInv (s : State) : Prop where
  link  : LinkOk s.t.lock (flightOf s.con.todo) s.p.io.flight (linkTrace s.out)
  quiet : tailQuiet s.con.todo
  fits  : s.p.io.fits s.p.ctl = true
  lives : s.p.io = .idle ∨ s.p.alive = true

/-! ### The queues and the poller (R30, R38-R43) -/

/-- R43: every queue holds at most QUEUE_CAP samples. -/
def queuesBounded (s : State) : Prop := ∀ l ∈ s.q, l.length ≤ queueCap

/-- R124, R230: entry `j` of the configured list has queue `j`, and that queue holds samples of its address alone. -/
def queuesConfigured (s : State) : Prop :=
  match s.p.config with
  | none => True
  | some l =>
    l.map Prod.snd = List.range l.length ∧ s.q.length = l.length ∧
    ∀ j e, l[j]? = some e → ∀ x ∈ s.queue j, x.1 = e.1

/-- R52: thresholds are not negative. -/
def thresholdsOk (s : State) : Prop := 0 ≤ s.c.startDelay ∧ 0 ≤ s.c.purgeDuration

/-- R386, R392: the previous decode step is not later than the time input, and the time input was read no later than the
time reached. -/
def timesOk (s : State) : Prop := (∀ t, s.a.tPrev = some t → t ≤ s.clock) ∧ s.clock ≤ s.reached

/-- The time that agent `g`'s waits among events have let pass for certain (R15): the sum of their bounds, a stop's wait
apart (which either of two things ends, R232). -/
def waitedIn (g : Agent) (l : List Event) : Time :=
  (l.map fun e => match e with
    | .sleep _ .join _ => 0
    | .sleep g' _ bound => if g' = g then bound else 0
    | _ => 0).sum

/-- The time up to which a transaction's waits are counted: where it waits out its settle delay, when that began. -/
def Xact.countedTo (x : Xact) (s : State) : Time :=
  match x.phase with
  | .settle wake => min s.reached (wake - delayBound s.param (settleDelay x.req))
  | _ => s.reached

/-- The time up to which an agent's waits are counted: where it is in one, when that began; else the time reached. -/
def countedTo (g : Agent) (s : State) : Time :=
  match g with
  | .consumer =>
    match s.con.todo with
    | .xact x _ :: _ => x.countedTo s
    | _ => s.reached
  | .poller =>
    match s.p.io, s.p.ctl with
    | .xact x, _ => x.countedTo s
    | .asleep wake, .delay _ => min s.reached (wake - delayBound s.param .interpoll)
    | .asleep wake, .backoff _ => min s.reached (wake - delayBound s.param .backoff)
    | _, _ => s.reached

/-! ### A consumer no one disturbs -/

/-- Nothing is scheduled before the consumer's next pieces of work, and no transaction is under way. -/
def State.ready (s : State) : Prop := s.env.sched = [] ∧ s.t.lock = none

/-- The bytes `Rx` returns to a transaction that begins now and is not disturbed; none where the link fails before
(R206). -/
def replyOf (s : State) : Option (List Byte) :=
  if s.drawTxOk.1 then
    match s.drawTxOk.2.drawRx.1 with
    | .fails => none
    | .bytes more => some (more.take 5)
  else none

/-- R206: the value of an undisturbed transaction about `addr`. -/
def linkValue (addr : Addr) (s : State) : Option Value :=
  if s.t.connected then (replyOf s).bind fun r => parse r addr s.t.deviceId else none

/-- The environment after an undisturbed transaction. -/
def linkEnv (s : State) : Env :=
  if s.t.connected then
    if s.drawTxOk.1 then s.drawTxOk.2.drawRx.2.env else s.drawTxOk.2.env
  else s.env

/-- The time reached after an undisturbed transaction with request `r`: the settle delay has passed, and T_RX_TIMEOUT too
where fewer than five bytes came (R15). -/
def linkReached (r : Req) (s : State) : Time :=
  if s.t.connected then
    if s.drawTxOk.1 then
      let settled := s.reached + delayBound s.param (settleDelay r)
      match s.drawTxOk.2.drawRx.1 with
      | .fails => settled
      | .bytes more => if more.length < 5 then max settled (settled + s.t.portCfg.timeout) else settled
    else s.reached
  else s.reached

/-- The receive buffer after an undisturbed transaction: what arrived beyond five bytes. -/
def linkRx (s : State) : List Byte :=
  if s.t.connected then
    if s.drawTxOk.1 then
      match s.drawTxOk.2.drawRx.1 with
      | .fails => []
      | .bytes more => more.drop 5
    else []
  else s.t.rx

/-- R207's last log line. -/
def writeLog (r : Req) (ok : Bool) : List Event :=
  match r with
  | .read _ => []
  | .write a v => [.log (.write a v) (if ok then .success else .error)]

/-- R206, R207: what an undisturbed transaction of agent `g` puts out, in order. -/
def linkEvents (g : Agent) (x : Xact) (s : State) : List Event :=
  if s.t.connected then
    if s.drawTxOk.1 then
      [.flush g, .tx g x.frame.bytes,
        .sleep g (settleDelay x.req) (delayBound s.param (settleDelay x.req))] ++
      match s.drawTxOk.2.drawRx.1 with
      | .fails => [.rxFailed g, .log (.error .io) .error] ++ writeLog x.req false
      | .bytes more =>
        match parse (more.take 5) x.req.addr s.t.deviceId with
        | some _ => [.rx g (more.take 5) s.t.portCfg.timeout] ++ writeLog x.req true
        | none =>
          [.rx g (more.take 5) s.t.portCfg.timeout,
            .log (.error (failKind (more.take 5) x.req.addr s.t.deviceId)) .error] ++ writeLog x.req false
    else [.flush g, .txFailed g x.frame.bytes, .log (.error .io) .error]
  else [.log (.error .notOpen) .error]

/-- R206, R207, R348, R360: what the end of a transaction with value `v` makes of the command it belongs to, while
another agent's turn comes next: what the command puts out, the last result, and the work it has left. An action reports
when its last write is done; before that its next write is left, whatever became of the one before. -/
def transactionEnd (k : After) (v : Option Value) (s : State) : List Event × Option Result × List Work :=
  match k with
  | .read => ([.result (.value v)], some (.value v), [])
  | .write => ([.result (.bool v.isSome)], some (.bool v.isSome), [])
  | .verify =>
    let version : Option Byte := v.bind fun x =>
      if x.toNat / 2 ^ 8 = s.param.idCode.toNat then some (BitVec.ofNat 8 x.toNat) else none
    ([if version.isSome then .log .verifyOk .success else .log .verifyFailed .warning, .result (.version version)],
      some (.version version), [])
  | .emit act [] ok => ([.log (.command act) (if ok && v.isSome then .success else .error)], s.result, [])
  | .emit act (w :: ws) ok =>
    ([], s.result, [.xact (writeXact s.t.deviceId w.1 w.2) (.emit act ws (ok && v.isSome))])

/-- The actions among the commands reported (R360), in order. -/
def actionsIn (l : List Event) : List Action :=
  l.filterMap fun e => match e with
    | .log (.command act) _ => some act
    | _ => none

/-- The actions among emissions, in order. -/
def actionsOf (l : List Emission) : List Action :=
  l.filterMap fun e => match e with
    | .act act => some act
    | .flowOpen => none
    | .flowStart => none
    | .auxStart => none
    | .auxEnd => none
    | .logPurgeStart => none

/-- The emissions that events show to be performed, in order: the actions reported, PurgeStart's report, and the calls on
the peers. -/
def performedIn (l : List Event) : List Emission :=
  l.filterMap fun e => match e with
    | .log (.command act) _ => some (.act act)
    | .log .purgeStart .info => some .logPurgeStart
    | .flowOpen => some .flowOpen
    | .flowStart => some .flowStart
    | .auxSendStart => some .auxStart
    | .auxSendEnd => some .auxEnd
    | _ => none

/-- R55, R301, R307, R305, R345: those of a list of emissions that reach someone, in order: a call on the flow sensor only
where it is attached; one on the auxiliary peer only where it is attached and answers, when it is asked, that it is
connected, and for the end that it runs. `conn` and `run` are its answers, in the order it is asked. -/
def performs (par : Params) : List Emission → (conn run : List Bool) → List Emission
  | [], _, _ => []
  | .act act :: es, conn, run => .act act :: performs par es conn run
  | .logPurgeStart :: es, conn, run => .logPurgeStart :: performs par es conn run
  | .flowOpen :: es, conn, run => (if par.flowPresent then [.flowOpen] else []) ++ performs par es conn run
  | .flowStart :: es, conn, run => (if par.flowPresent then [.flowStart] else []) ++ performs par es conn run
  | .auxStart :: es, conn, run =>
    if par.auxPresent then (if conn.headD false then [.auxStart] else []) ++ performs par es conn.tail run
    else performs par es conn run
  | .auxEnd :: es, conn, run =>
    if par.auxPresent then
      (if conn.headD false && run.headD false then [.auxEnd] else []) ++ performs par es conn.tail run.tail
    else performs par es conn run

/-- What work that only moves the link leaves alone, at every schedule: everything but the lock, the receive buffer, the
free inputs, the time reached and the outputs (which only grow), the last result and the consumer's unfinished work (R206 "State written:
T.lock (taken and released), T.rx (flushed, then consumed)"). -/
structure WorkFrame (s s' : State) : Prop where
  param     : s'.param = s.param
  connected : s'.t.connected = s.t.connected
  deviceId  : s'.t.deviceId = s.t.deviceId
  portCfg   : s'.t.portCfg = s.t.portCfg
  p         : s'.p = s.p
  q         : s'.q = s.q
  a         : s'.a = s.a
  c         : s'.c = s.c
  drained   : s'.con.drained = s.con.drained
  clock     : s'.clock = s.clock
  reached   : s.reached ≤ s'.reached
  inbox     : s'.inbox = s.inbox
  linkIn    : s'.linkIn = s.linkIn
  out       : s.out <+: s'.out

/-! ### Runs of decode steps -/

/-- Decode steps one after another, each at its time input: A at the end, and all they put out. -/
def decodeRun (par : Params) (c : Cfg) : List (Time × Value) → Automaton → Automaton × List Emission
  | [], a => (a, [])
  | e :: l, a =>
    let r := decodeStep par c e.1 e.2 a
    let r' := decodeRun par c l r.1
    (r'.1, r.2 ++ r'.2)

/-- R350's tests on one sample, its decode step at time `t`. -/
def drainOne (par : Params) (c : Cfg) (t : Time) (e : Sample) (a : Automaton) : Automaton × List Emission :=
  let r := if e.1 = par.regs.status then decodeStep par c t e.2 a else (a, [])
  let a1 := if e.1 = par.periodSrcM1 then setPeriod .m1 e.2 r.1 else r.1
  (if e.1 = par.periodSrcM2 then setPeriod .m2 e.2 a1 else a1, r.2)

/-- The samples of a drain, one after another. -/
def drainRun (par : Params) (c : Cfg) : List (Time × Sample) → Automaton → Automaton × List Emission
  | [], a => (a, [])
  | e :: l, a =>
    let r := drainOne par c e.1 e.2 a
    let r' := drainRun par c l r.1
    (r'.1, r.2 ++ r'.2)

/-- The commands to valve 2 among emissions, in order. -/
def valveActions (l : List Emission) : List Action := (actionsOf l).filter fun a => a == .valve2On || a == .valve2Off

/-- R304: the command of toggle number `k` of a sequence, from 0: the first turns the valve on. -/
def toggleAction (k : Nat) : Action := if k % 2 = 0 then .valve2On else .valve2Off

/-! ### The poller alone -/

/-- `n` steps of the poller, one after another; none where it has none before. -/
def pollerSteps : Nat → State → Option State
  | 0, s => some s
  | n + 1, s => (pollerStep s).bind (pollerSteps n)

/-- The frames handed to the link, in order, whether or not it took them. -/
def requestsIn (l : List Event) : List (List Byte) :=
  l.filterMap fun e => match e with
    | .tx _ bytes => some bytes
    | .txFailed _ bytes => some bytes
    | _ => none

/-- The successful writes among the reports, in order. -/
def writesOkIn (l : List Event) : List Write :=
  l.filterMap fun e => match e with
    | .log (.write a v) .success => some (a, v)
    | _ => none

/-- A run is safe as long as its steps answer a next state: the one fault is a time input that goes back (R386). -/
def StepsOn (s : State) : Prop := ∃ s', step s = .next s'

end Sys2Proof.Machine
end

