-- ==== Sys2Proof/Certificates/Slice0/Obligations.lean ====
section
/-! DEFINITION. The statements about the VMK core, rule by rule. Where a statement rests on a choice of the model and
not on a rule, its docstring names the log entry. -/

open Sys2Proof Sys2Proof.Machine Polynomial

/-! ### CRC7 (40_crc7.md) -/

/-- R152: the checksum is the remainder of the message times x^7, modulo x^7 + x^3 + 1 over GF(2), bit 7 of the first
byte the highest power; bit `k` of the checksum is the coefficient of x^k. -/
def Obligations.CrcIsPolynomialRemainder : Prop :=
  ∀ bytes : List Byte,
    let bitAt : Bool → (ZMod 2)[X] := fun b => if b then 1 else 0
    let message : (ZMod 2)[X] :=
      bytes.foldl (fun m b => m * X ^ 8 + ∑ i : Fin 8, bitAt (b.getLsbD i) * X ^ (i : Nat)) 0
    ∑ i : Fin 7, bitAt ((crc7 bytes).getLsbD i) * X ^ (i : Nat) = (message * X ^ 7) %ₘ (X ^ 7 + X ^ 3 + 1)

/-- R155: the checksum of the bytewise exclusive-or of two inputs of equal length. -/
def Obligations.CrcIsLinear : Prop :=
  ∀ a b : List Byte, a.length = b.length → crc7 (List.zipWith (· ^^^ ·) a b) = crc7 a ^^^ crc7 b

/-- R154: flipping one bit of one byte changes the checksum. -/
def Obligations.CrcDetectsOneBit : Prop :=
  ∀ (before after : List Byte) (b : Byte) (j : Nat), j < 8 →
    crc7 (before ++ (b ^^^ BitVec.twoPow 8 j) :: after) ≠ crc7 (before ++ b :: after)

/-! ### The frame codec (41_frame_codec.md) -/

/-- R170: BUILD completes, whatever its address, with the five bytes of the rule, as numbers; it changes nothing but the
result, and the address is masked. -/
def Obligations.BuildGivesFrame : Prop :=
  ∀ (s : State) (address : Nat) (w : Bool) (data : Value), s.timeOk = true →
    ∃ f : Frame,
      exec (.build address w data) s =
        .next { s with out := s.out ++ [.result (.frame f)], result := some (.frame f) } ∧
      f.b1.toNat = 0xC0 + (if w then 0x20 else 0) + (data.toNat / 2 ^ 15 % 2) * 2 ^ 4 + (data.toNat / 2 ^ 14 % 2) * 2 ^ 3 +
        s.t.deviceId.toNat ∧
      f.b2.toNat = address % 0x80 ∧ f.b3.toNat = data.toNat / 2 ^ 7 % 0x80 ∧ f.b4.toNat = data.toNat % 0x80 ∧
      f.b5.toNat = (crc7 [f.b1, f.b2, f.b3, f.b4]).toNat

/-- R172, R119, R173: PARSE completes, changes nothing but the result, and gives the value `v` exactly when the five
checks hold and `v` is put together from the data bits; otherwise none. -/
def Obligations.ParseAcceptsExactly : Prop :=
  ∀ (s : State) (resp : List Byte) (addr : Addr) (dev : DevId), s.timeOk = true →
    ∃ r : Option Value,
      exec (.parse resp addr dev) s =
        .next { s with out := s.out ++ [.result (.value r)], result := some (.value r) } ∧
      ∀ v : Value, r = some v ↔
        ∃ b1 b2 b3 b4 b5 : Byte, resp = [b1, b2, b3, b4, b5] ∧
          b1.toNat / 2 ^ 6 = 3 ∧ b1.toNat % 2 ^ 3 = dev.toNat ∧ b2.toNat % 0x80 = addr.toNat ∧
          (crc7 [b1, b2, b3, b4]).toNat = b5.toNat % 0x80 ∧
          v.toNat = b1.toNat / 2 ^ 3 % 4 * 2 ^ 14 + b3.toNat % 0x80 * 2 ^ 7 + b4.toNat % 0x80

/-- R174: parsing a built frame gives its data back, at every address, data and device id; a read frame gives 0. -/
def Obligations.ParseOfBuild : Prop :=
  ∀ (i : DevId) (a : Addr) (d : Value),
    parse (build i a true d).bytes a i = some d ∧ parse (build i a false 0).bytes a i = some 0

/-- R175: another address, another device id, or one bit flipped in b1..b4, or b5 with any other low seven bits, and a built
frame is refused. -/
def Obligations.ParseRefusesMutations : Prop :=
  ∀ (i : DevId) (a : Addr) (w : Bool) (d : Value),
    (∀ a', a' ≠ a → parse (build i a w d).bytes a' i = none) ∧
    (∀ i', i' ≠ i → parse (build i a w d).bytes a i' = none) ∧
    ∀ f : Frame, build i a w d = f →
      (∀ j < 8, parse [f.b1 ^^^ BitVec.twoPow 8 j, f.b2, f.b3, f.b4, f.b5] a i = none) ∧
      (∀ j < 8, parse [f.b1, f.b2 ^^^ BitVec.twoPow 8 j, f.b3, f.b4, f.b5] a i = none) ∧
      (∀ j < 8, parse [f.b1, f.b2, f.b3 ^^^ BitVec.twoPow 8 j, f.b4, f.b5] a i = none) ∧
      (∀ j < 8, parse [f.b1, f.b2, f.b3, f.b4 ^^^ BitVec.twoPow 8 j, f.b5] a i = none) ∧
      ∀ b5 : Byte, b5.toNat % 0x80 ≠ f.b5.toNat % 0x80 → parse [f.b1, f.b2, f.b3, f.b4, b5] a i = none

/-- R206 (`FailKind`), R381: a reply that parses as none is reported under the code of the first check it fails. -/
def Obligations.FailKindIsFirstCheck : Prop :=
  ∀ (r : List Byte) (addr : Addr) (dev : DevId), r.length ≤ 5 → parse r addr dev = none →
    (failKind r addr dev).code =
      if r.length = 0 then 0x03
      else if r.length < 5 then 0x11
      else if (r.getD 0 0).toNat / 2 ^ 6 ≠ 3 then 0x12
      else if (r.getD 0 0).toNat % 2 ^ 3 ≠ dev.toNat then 0x13
      else if (r.getD 1 0).toNat % 0x80 ≠ addr.toNat then 0x14
      else 0x15

/-! ### The pure commands and the status word (40_crc7.md, 44_status_decoder.md) -/

/-- R150, R270, R205: CRC7, SDECODE and ISCONN complete and change nothing but the result: the checksum, the flags, and
whether the handle is open. -/
def Obligations.PureCommandsComplete : Prop :=
  ∀ s : State, s.timeOk = true →
    (∀ bytes, exec (.crc7 bytes) s =
      .next { s with out := s.out ++ [.result (.crc (crc7 bytes))], result := some (.crc (crc7 bytes)) }) ∧
    (∀ word, exec (.sdecode word) s =
      .next { s with out := s.out ++ [.result (.flags (decodeStatus s.param.statusIndex word))]
                     result := some (.flags (decodeStatus s.param.statusIndex word)) }) ∧
    exec .isconn s =
      .next { s with out := s.out ++ [.result (.bool s.t.connected)], result := some (.bool s.t.connected) }

/-- R270, R122: with every index each flag is the bit of the word that the index gives it, so with the listed index flag
number `k` is bit `k`; and the word's bits 15:11 have no effect. -/
def Obligations.StatusWordLayout : Prop :=
  let flagsOf (f : Flags) : List Bool :=
    [f.start, f.begBlk, f.endBlk, f.m1Fwd, f.m1Back, f.m2Fwd, f.m2Back, f.valve1On, f.valve2On, f.reset, f.ping]
  (∀ (ix : StatusIndex) (word : Value), flagsOf (decodeStatus ix word) =
    [ix.start, ix.begBlk, ix.endBlk, ix.m1Fwd, ix.m1Back, ix.m2Fwd, ix.m2Back, ix.valve1On, ix.valve2On, ix.reset, ix.ping].map
      fun k => decide (word.toNat / 2 ^ k.val % 2 = 1)) ∧
  (∀ word : Value, flagsOf (decodeStatus .listed word) =
    (List.range 11).map fun k => decide (word.toNat / 2 ^ k % 2 = 1)) ∧
  ∀ (ix : StatusIndex) (word word' : Value), word.toNat % 2 ^ 11 = word'.toNat % 2 ^ 11 →
    decodeStatus ix word = decodeStatus ix word'

/-! ### Register transactions (42_transport.md) -/

/-- R206: RDREG, undisturbed, completes: the link carries the request built for the address and what comes back is
parsed; only the lock's transaction, the receive buffer, the inputs read, the outputs and the result change, and the time
reached, which is later by the settle delay at least (R15). -/
def Obligations.RdregCompletes : Prop :=
  ∀ (s : State) (addr : Addr), s.timeOk = true → s.ready →
    exec (.rdreg addr) s =
      .next { s with
        t := { s.t with rx := linkRx s }
        env := linkEnv s
        reached := linkReached (.read addr) s
        out := s.out ++ linkEvents .consumer ⟨.read addr, build s.t.deviceId addr false 0, .acquire⟩ s ++
          [.result (.value (linkValue addr s))]
        result := some (.value (linkValue addr s)) }

/-- R207: WRREG, undisturbed, completes: true exactly when the reply parses, with the write's report; the time reached is
later by the settle delay at least (R15). (Where the receive fails there are two log events, the error's and the write's
report: the model's choice, log 13; R207 has no line for that failure.) -/
def Obligations.WrregCompletes : Prop :=
  ∀ (s : State) (addr : Addr) (value : Value), s.timeOk = true → s.ready →
    exec (.wrreg addr value) s =
      .next { s with
        t := { s.t with rx := linkRx s }
        env := linkEnv s
        reached := linkReached (.write addr value) s
        out := s.out ++ linkEvents .consumer ⟨.write addr value, build s.t.deviceId addr true value, .acquire⟩ s ++
          [.result (.bool (linkValue addr s).isSome)]
        result := some (.bool (linkValue addr s).isSome) }

/-- R348: VERIFY, undisturbed, completes: the version where the upper byte is the identification code, else none, with
its report; nothing of A or C changes. -/
def Obligations.VerifyCompletes : Prop :=
  ∀ s : State, s.timeOk = true → s.ready →
    let version : Option Byte := (linkValue s.param.regs.verify s).bind fun x =>
      if x.toNat / 2 ^ 8 = s.param.idCode.toNat then some (BitVec.ofNat 8 x.toNat) else none
    exec .verify s =
      .next { s with
        t := { s.t with rx := linkRx s }
        env := linkEnv s
        reached := linkReached (.read s.param.regs.verify) s
        out := s.out ++
          linkEvents .consumer ⟨.read s.param.regs.verify, build s.t.deviceId s.param.regs.verify false 0, .acquire⟩ s ++
          [if version.isSome then .log .verifyOk .success else .log .verifyFailed .warning, .result (.version version)]
        result := some (.version version) }

/-- R115, R116, R206, R207 (the frames as instructions are the model's reading, log 11): a request frame handed to the
transmit side runs the transaction whose request it is, byte for byte, and completes. (Two log events where a write's
receive fails: the model's choice, log 13.) -/
def Obligations.RequestFramesComplete : Prop :=
  ∀ (s : State) (dev : DevId) (addr : Addr) (crc : Crc), s.ready →
    exec (.readReq dev addr crc) s =
      .next { s with
        t := { s.t with rx := linkRx s }
        env := linkEnv s
        reached := linkReached (.read addr) s
        out := s.out ++ linkEvents .consumer ⟨.read addr, readReqFrame dev addr crc, .acquire⟩ s ++
          [.result (.value (linkValue addr s))]
        result := some (.value (linkValue addr s)) } ∧
    ∀ data : Value, exec (.writeReq dev addr data crc) s =
      .next { s with
        t := { s.t with rx := linkRx s }
        env := linkEnv s
        reached := linkReached (.write addr data) s
        out := s.out ++ linkEvents .consumer ⟨.write addr data, writeReqFrame dev addr data crc, .acquire⟩ s ++
          [.result (.bool (linkValue addr s).isSome)]
        result := some (.bool (linkValue addr s).isSome) }

/-- That a request frame handed to the transmit side runs as an instruction at all is the model's reading (log 11; R120: "the
VMK core executes no frame"). With that reading: a well-formed request frame that carries the configured device id is what
RDREG or WRREG sends (R115, R116, R170), and at every state and schedule the two do the same. -/
def Obligations.RequestFrameIsCommand : Prop :=
  ∀ (s : State) (addr : Addr) (data : Value) (crc : Crc), s.timeOk = true →
    ((Instr.readReq s.t.deviceId addr crc).wf = true →
      exec (.readReq s.t.deviceId addr crc) s = exec (.rdreg addr) s) ∧
    ((Instr.writeReq s.t.deviceId addr data crc).wf = true →
      exec (.writeReq s.t.deviceId addr data crc) s = exec (.wrreg addr data) s)

/-- R117, R36, R404 (a response as an instruction is the model's reading, log 11): its bytes are appended to the receive
buffer, b1 first, and nothing else changes. -/
def Obligations.ResponseArrives : Prop :=
  ∀ (s : State) (w : Bool) (dev : DevId) (addr : Addr) (data : Value) (crc : Crc) (x y z v : Bool),
    ∃ b1 b2 b3 b4 b5 : Byte,
      exec (.response w dev addr data crc x y z v) s =
        .next { s with t := { s.t with rx := s.t.rx ++ [b1, b2, b3, b4, b5] } } ∧
      b1.toNat = 0xC0 + (if w then 0x20 else 0) + data.toNat / 2 ^ 14 * 2 ^ 3 + dev.toNat ∧
      b2.toNat = (if x then 0x80 else 0) + addr.toNat ∧
      b3.toNat = (if y then 0x80 else 0) + data.toNat / 2 ^ 7 % 0x80 ∧
      b4.toNat = (if z then 0x80 else 0) + data.toNat % 0x80 ∧
      b5.toNat = (if v then 0x80 else 0) + crc.toNat

/-- R206, R207, R208, R361: at every schedule, undisturbed, interrupted or waiting, RDREG, WRREG, VERIFY and the request
frames leave everything alone but the link (`WorkFrame`). (That the request frames are instructions is the model's reading,
log 11.) -/
def Obligations.TransactionsFrame : Prop :=
  ∀ (s t : State) (i : Instr),
    (∃ a, i = .rdreg a) ∨ (∃ a v, i = .wrreg a v) ∨ i = .verify ∨ (∃ d a c, i = .readReq d a c) ∨
      (∃ d a v c, i = .writeReq d a v c) →
    exec i s = .next t → WorkFrame s t

/-- R206, R207, R424: while the transport is not connected a transaction fails with NotOpen, sends nothing, and changes
nothing but outputs and result. -/
def Obligations.NotOpenFails : Prop :=
  ∀ (s : State) (addr : Addr) (value : Value), s.timeOk = true → s.ready → s.t.connected = false →
    exec (.rdreg addr) s =
      .next { s with out := s.out ++ [.log (.error .notOpen) .error, .result (.value none)]
                     result := some (.value none) } ∧
    exec (.wrreg addr value) s =
      .next { s with out := s.out ++ [.log (.error .notOpen) .error, .result (.bool false)]
                     result := some (.bool false) } ∧
    exec .verify s =
      .next { s with out := s.out ++ [.log (.error .notOpen) .error, .log .verifyFailed .warning,
                                      .result (.version none)]
                     result := some (.version none) }

/-- R201: while the poller holds the lock each of the consumer's commands that take it waits, a request frame handed to the
transmit side too, whatever its device id and checksum: nothing changes but that the command's pieces stand first in the
consumer's unfinished work. While they stand there first the consumer has a step exactly when the lock is free; and then
its turn does what the command does. So it is with any transaction not begun, a write of an action too (R207, R360): while
it stands first the consumer has a step exactly when the lock is free, and an action that comes to a write while the poller
holds the lock stops at that write with nothing changed but the turn used up. (That the consumer goes first with nothing scheduled is the model's
choice, log 2; that a request frame runs as an instruction is its reading, log 11; that CONNECT, and DISCONNECT's close,
hold the lock within one piece, the posture being another, is its inference, log 20.) -/
def Obligations.ConsumerWaitsForLock : Prop :=
  (∀ (s : State) (addr : Addr) (value : Value) (cfg : PortCfg) (dev : DevId) (crc : Crc), s.timeOk = true → 0 < cfg.timeout →
    ∀ c ∈ ([
        (.rdreg addr, [.xact (readXact s.t.deviceId addr) .read]),
        (.wrreg addr value, [.xact (writeXact s.t.deviceId addr value) .write]),
        (.verify, [.xact (readXact s.t.deviceId s.param.regs.verify) .verify]),
        (.readReq dev addr crc, [.xact ⟨.read addr, readReqFrame dev addr crc, .acquire⟩ .read]),
        (.writeReq dev addr value crc, [.xact ⟨.write addr value, writeReqFrame dev addr value crc, .acquire⟩ .write]),
        (.connect cfg, [.connect cfg]),
        (.disconnect, [.disconnect, .posture, .done .unit])] : List (Instr × List Work)),
      (s.t.lock = some .poller →
        exec c.1 s = .next { s with con := { s.con with todo := c.2 ++ s.con.todo } }) ∧
      (∀ (t : State) (more : List Work), t.con.todo = c.2 ++ more → (t.consumerCan = true ↔ t.t.lock = none)) ∧
      ∀ (t : State) (sched : List Turn), t.con.todo = c.2 → t.t.lock = none → t.timeOk = true →
        t.t.deviceId = s.t.deviceId → t.param = s.param → (t.env.sched = [] ∨ t.env.sched = .consumer :: sched) →
        step t = exec c.1 { t with con := { t.con with todo := [] }, env := { t.env with sched := t.env.sched.tail } }) ∧
  (∀ (t : State) (x : Xact) (k : After) (more : List Work), x.phase = .acquire → t.con.todo = .xact x k :: more →
    (t.consumerCan = true ↔ t.t.lock = none)) ∧
  ∀ (s : State) (sched : List Turn) (act : Action) (w : Write) (l : List Write) (ok : Bool),
    (s.env.sched = [] ∨ s.env.sched = .consumer :: sched) → s.t.lock = some .poller →
    runWrites act (w :: l) ok s = ({ s with env := { s.env with sched := s.env.sched.tail } },
      [.xact (writeXact s.t.deviceId w.1 w.2) (.emit act l ok)])

/-- R200, R206, R207, R208, R348, R360: a transaction of the consumer that another agent's turn interrupts goes on, one step
a turn, from where it stood, for each command and at each write of an action, with what stands behind it left as it was:
the lock taken; the connection checked, the buffer flushed and the request sent; the settle delay waited out; the reply
received, parsed and reported with the lock free again. Where the transport is not connected, or the link does not take
the request, or the receive fails, the lock is free, the error is reported, and the command ends, or an action goes on to
its next write, as with no reply that parses. Each turn ends there because another's comes next.

And so do the other pieces that an interrupted DECODE, PURGE, DRAIN, DISCONNECT, CONNECT or PSTOP has left, one a turn: an
action begins with its first write, which is left; a report or a peer's call is put out (R301, R305, R307, R345); DRAIN
empties the next queue, applies the next sample and leaves what its decode step puts out (R350, R351), and at the end
answers its samples; the handle is closed, the posture taken (R204, R421), the result delivered. What is left when such a
command is run is what its first turn leaves of all its pieces. (That these are the
pieces, the check, the flush and the transmission one and the receipt, the parse, the release and the log one, is the
model's choice, log 1: R200 says "a sequence of steps". Where the receive fails, the two log events of a write and the
buffer left as it was are log 13.) -/
def Obligations.InterruptedTransactionGoesOn : Prop :=
  (∀ (s : State) (req : Req) (frame : Frame) (k : After) (behind : List Work) (next : Turn) (rest : List Turn),
    s.timeOk = true → s.env.sched = .consumer :: next :: rest → next ≠ .consumer →
    let stands (ph : XPhase) : Prop := s.con.todo = .xact ⟨req, frame, ph⟩ k :: behind
    let fails := transactionEnd k none s
    (stands .acquire → s.t.lock = none →
      step s = .next { s with
        t := { s.t with lock := some .consumer }
        con := { s.con with todo := .xact ⟨req, frame, .send⟩ k :: behind }
        env := { s.env with sched := next :: rest } }) ∧
    (stands .send → s.t.connected = false →
      step s = .next { s with
        t := { s.t with lock := none }
        con := { s.con with todo := fails.2.2 ++ behind }
        env := { s.env with sched := next :: rest }
        out := s.out ++ [.log (.error .notOpen) .error] ++ fails.1
        result := fails.2.1 }) ∧
    (stands .send → s.t.connected = true → s.drawTxOk.1 = false →
      step s = .next { s with
        t := { s.t with lock := none, rx := [] }
        con := { s.con with todo := fails.2.2 ++ behind }
        env := { s.drawTxOk.2.env with sched := next :: rest }
        out := s.out ++ [.flush .consumer, .txFailed .consumer frame.bytes, .log (.error .io) .error] ++ fails.1
        result := fails.2.1 }) ∧
    (stands .send → s.t.connected = true → s.drawTxOk.1 = true →
      step s = .next { s with
        t := { s.t with rx := [] }
        con := { s.con with
          todo := .xact ⟨req, frame, .settle (s.reached + delayBound s.param (settleDelay req))⟩ k :: behind }
        env := { s.drawTxOk.2.env with sched := next :: rest }
        out := s.out ++ [.flush .consumer, .tx .consumer frame.bytes] }) ∧
    (∀ wake, stands (.settle wake) →
      step s = .next { s with
        reached := max s.reached wake
        con := { s.con with
          todo := .xact ⟨req, frame, .receive (max s.reached wake + s.t.portCfg.timeout)⟩ k :: behind }
        env := { s.env with sched := next :: rest }
        out := s.out ++ [.sleep .consumer (settleDelay req) (delayBound s.param (settleDelay req))] }) ∧
    (∀ (late : Time) (more : List Byte), stands (.receive late) → s.drawRx.1 = .bytes more →
      let r := (s.t.rx ++ more).take 5
      let v := parse r req.addr s.t.deviceId
      let ends := transactionEnd k v s
      step s = .next { s with
        t := { s.t with lock := none, rx := (s.t.rx ++ more).drop 5 }
        con := { s.con with todo := ends.2.2 ++ behind }
        env := { s.drawRx.2.env with sched := next :: rest }
        reached := if r.length < 5 then max s.reached late else s.reached
        out := s.out ++ [.rx .consumer r s.t.portCfg.timeout] ++
          (if v.isSome then [] else [.log (.error (failKind r req.addr s.t.deviceId)) .error]) ++
          writeLog req v.isSome ++ ends.1
        result := ends.2.1 }) ∧
    ∀ late : Time, stands (.receive late) → s.drawRx.1 = .fails →
      step s = .next { s with
        t := { s.t with lock := none }
        con := { s.con with todo := fails.2.2 ++ behind }
        env := { s.drawRx.2.env with sched := next :: rest }
        out := s.out ++ [.rxFailed .consumer, .log (.error .io) .error] ++ writeLog req false ++ fails.1
        result := fails.2.1 }) ∧
  (∀ (s : State) (w : Work) (behind : List Work) (next : Turn) (rest : List Turn),
    s.timeOk = true → s.env.sched = .consumer :: next :: rest → next ≠ .consumer → s.con.todo = w :: behind →
    let s0 : State := { s with con := { s.con with todo := behind }, env := { s.env with sched := next :: rest } }
    (∀ act write writes, w = .emission (.act act) → (actionWrites act s0).1 = write :: writes →
      step s = .next { (actionWrites act s0).2 with con := { s.con with
        todo := .xact (writeXact s.t.deviceId write.1 write.2) (.emit act writes true) :: behind } }) ∧
    (w = .emission .logPurgeStart → step s = .next { s0 with out := s.out ++ [.log .purgeStart .info] }) ∧
    (w = .emission .flowOpen → step s = .next { s0 with out := s.out ++ (if s.param.flowPresent then [.flowOpen] else []) }) ∧
    (w = .emission .flowStart → step s = .next { s0 with out := s.out ++ (if s.param.flowPresent then [.flowStart] else []) }) ∧
    (w = .emission .auxStart → step s = .next { s0.readAuxConnected.2 with
      out := s.out ++ (if s0.readAuxConnected.1 then [.auxSendStart] else []) }) ∧
    (w = .emission .auxEnd → step s = .next { s0.readAuxConnected.2.readAuxRunning.2 with
      out := s.out ++ (if s0.readAuxConnected.1 && s0.readAuxConnected.2.readAuxRunning.1 then [.auxSendEnd] else []) }) ∧
    (∀ j js, w = .drain (j :: js) → step s = .next { s0 with
      q := s.q.modify j (fun _ => [])
      con := { s.con with todo := .samples (s.queue j) :: .drain js :: behind } }) ∧
    (∀ e l, w = .samples (e :: l) →
      let s1 := if e.1 = s.param.regs.status then s0.readNow else s0
      let r := drainOne s.param s.c s1.clock e s.a
      step s = .next { s1 with
        a := r.1
        con := { todo := r.2.map Work.emission ++ .samples l :: behind, drained := s.con.drained ++ [e] } }) ∧
    (w = .samples [] → step s = .next s0) ∧
    (w = .drain [] → step s = .next { s0 with
      con := { todo := behind, drained := [] }
      out := s.out ++ [.result (.samples s.con.drained)]
      result := some (.samples s.con.drained) }) ∧
    (∀ cfg, w = .connect cfg → s.t.lock = none → step s = .next (connectNow cfg s0)) ∧
    (w = .disconnect → s.t.lock = none →
      step s = .next { s0 with t := { s.t with connected := false }, out := s.out ++ [.portClosed] }) ∧
    (w = .posture → step s = .next { s0 with
      a := { flags := {}, tPrev := none, periodM1 := none, periodM2 := none, position := s.a.position, elapsed := 0
             override := false, armed := false, armTime := s.a.armTime, armAux := s.a.armAux, purgeActive := false
             purgeCount := 0, purgeLast := s.a.purgeLast, purgeValve := false, purgePending := false }
      q := List.replicate s.q.length [] }) ∧
    (∀ wake, w = .join wake → s.p.alive = false → step s = .next s0) ∧
    ∀ r, w = .done r → step s = .next { s0 with out := s.out ++ [.result r], result := some r }) ∧
  ∀ s : State, s.timeOk = true → s.con.todo = [] →
    let begun (s' : State) (pieces : List Work) :=
      step { s' with con := { s'.con with todo := pieces }, env := { s'.env with sched := .consumer :: s'.env.sched } }
    (∀ word, exec (.decode word) s =
      begun { s with a := (decodeStep s.param s.c s.clock word s.a).1 }
        ((decodeStep s.param s.c s.clock word s.a).2.map Work.emission ++ [.done .unit])) ∧
    (s.a.purgeActive = false → exec .purge s =
      begun { s with a := { s.a with purgeActive := true, purgeCount := 0, purgeLast := s.clock, purgeValve := false } }
        [.emission .flowOpen, .emission .logPurgeStart, .done .unit]) ∧
    exec .drain s = begun { s with con := { s.con with drained := [] } } [.drain (drainOrder s.param s.p.config)] ∧
    (s.t.lock = none → exec .disconnect s = begun s [.disconnect, .posture, .done .unit] ∧
      ∀ cfg : PortCfg, 0 < cfg.timeout → exec (.connect cfg) s = begun s [.connect cfg])

/-! ### The connection (42_transport.md) -/

/-- R203: CONNECT, undisturbed, completes. While connected it changes nothing and answers true; else the port opens or
does not, as the environment says: opened, the handle, the port's values and a receive buffer of any content; not
opened, disconnected and OpenFailed reported. A timeout that is not above 0 is refused and changes nothing else (the
model's choice, log 6); that no port name and no rate is, 0 included, is the model's choice too, log 29. -/
def Obligations.ConnectCompletes : Prop :=
  ∀ (s : State) (cfg : PortCfg), s.timeOk = true →
    (cfg.timeout ≤ 0 → exec (.connect cfg) s =
      .next { s with out := s.out ++ [.result (.refused .illegalOperand)]
                     result := some (.refused .illegalOperand) }) ∧
    (s.ready → 0 < cfg.timeout →
      (s.t.connected = true → exec (.connect cfg) s =
        .next { s with out := s.out ++ [.result (.bool true)], result := some (.bool true) }) ∧
      (s.t.connected = false → s.drawOpenOk.1 = true → exec (.connect cfg) s =
        .next { s with
          t := { s.t with connected := true, portCfg := cfg, rx := s.drawOpenOk.2.drawConnectRx.1 }
          env := s.drawOpenOk.2.drawConnectRx.2.env
          out := s.out ++ [.portOpened cfg true, .result (.bool true)]
          result := some (.bool true) }) ∧
      (s.t.connected = false → s.drawOpenOk.1 = false → exec (.connect cfg) s =
        .next { s with
          env := s.drawOpenOk.2.env
          out := s.out ++ [.portOpened cfg false, .log (.error .openFailed) .error, .result (.bool false)]
          result := some (.bool false) }))

/-- R204, R421, R422: DISCONNECT, undisturbed, completes: the handle closed, A in the quiescent posture, every queue
empty; the position, the arm time and aux flag, the last toggle's time, C, P and all else stay. -/
def Obligations.DisconnectCompletes : Prop :=
  ∀ s : State, s.timeOk = true → s.ready →
    exec .disconnect s =
      .next { s with
        t := { s.t with connected := false }
        a := { flags := {}, tPrev := none, periodM1 := none, periodM2 := none, position := s.a.position, elapsed := 0
               override := false, armed := false, armTime := s.a.armTime, armAux := s.a.armAux, purgeActive := false
               purgeCount := 0, purgeLast := s.a.purgeLast, purgeValve := false, purgePending := false }
        q := List.replicate s.q.length []
        out := s.out ++ [.portClosed, .result .unit]
        result := some .unit }

/-! ### The poller's commands (43_poller.md) -/

/-- R230: PCONFIG completes: refused while the poller runs or lives, unconfigured by an empty list, else each address in
its place with a queue of its own, all empty. (That an empty list leaves the queues as they are is the model's inference,
log 21.) -/
def Obligations.PconfigCompletes : Prop :=
  ∀ (s : State) (addrs : List Addr), s.timeOk = true →
    ((s.p.running = true ∨ s.p.alive = true) → exec (.pconfig addrs) s =
      .next { s with out := s.out ++ [.result (.bool false)], result := some (.bool false) }) ∧
    (s.p.running = false → s.p.alive = false → addrs = [] → exec (.pconfig addrs) s =
      .next { s with p := { s.p with config := none }, out := s.out ++ [.result (.bool false)]
                     result := some (.bool false) }) ∧
    (s.p.running = false → s.p.alive = false → addrs ≠ [] → exec (.pconfig addrs) s =
      .next { s with
        p := { s.p with config := some (addrs.zip (List.range addrs.length)) }
        q := List.replicate addrs.length []
        out := s.out ++ [.result (.bool true)]
        result := some (.bool true) })

/-- R231: PSTART completes: false and nothing changed without a configuration, or while the poller runs or lives; else
the poller lives and runs from Read(0), and its pass began now. -/
def Obligations.PstartCompletes : Prop :=
  ∀ s : State, s.timeOk = true →
    ((s.p.config = none ∨ s.p.running = true ∨ s.p.alive = true) → exec .pstart s =
      .next { s with out := s.out ++ [.result (.bool false)], result := some (.bool false) }) ∧
    (s.p.config ≠ none → s.p.running = false → s.p.alive = false → exec .pstart s =
      .next { s with
        p := { s.p with running := true, alive := true, ctl := .read 0, passT0 := some s.clock }
        out := s.out ++ [.result (.bool true)]
        result := some (.bool true) })

/-- R232: PSTOP clears the run flag. With no poller alive it returns at once; else the consumer waits, and the poller's
exit or T_JOIN's passing (a turn of the schedule, log 15) lets it return: in the second case T_JOIN at least has passed
since it began. -/
def Obligations.PstopCompletes : Prop :=
  ∀ s : State, s.timeOk = true → s.env.sched = [] →
    (s.p.alive = false → exec .pstop s =
      .next { s with p := { s.p with running := false }, out := s.out ++ [.result .unit], result := some .unit }) ∧
    (s.p.alive = true → s.con.todo = [] → ∃ t,
      exec .pstop s = .next t ∧ t = { s with p := { s.p with running := false }, con := { s.con with todo := t.con.todo } } ∧
      t.consumerCan = false ∧
      step { t with p := { t.p with alive := false }, env := { t.env with sched := [.consumer] } } =
        .next { s with p := { s.p with running := false, alive := false }, out := s.out ++ [.result .unit]
                       result := some .unit } ∧
      step { t with env := { t.env with sched := [.joinTimeout] } } =
        .next { s with p := { s.p with running := false }
                       reached := max s.reached (s.reached + delayBound s.param .join)
                       out := s.out ++ [.sleep .consumer .join (delayBound s.param .join), .result .unit]
                       result := some .unit })

/-! ### The poller agent (43_poller.md) -/

/-- R235, R19: pushing samples one after another into a queue of at most ten keeps exactly the ten most recent, oldest
first. -/
def Obligations.PushKeepsNewestTen : Prop :=
  ∀ l new : List Sample, l.length ≤ queueCap →
    new.foldl (fun q e => pushSample e q) l = (l ++ new).drop ((l ++ new).length - queueCap)

/-- R234, R206, R209, R210: the poller's step at its flag check, while it waits for the lock (R201: it has none), at each step
of its transaction (the request sent, refused by the link, or not sent while not connected; the settle delay waited out; the
reply received and parsed, whatever stands in the buffer by then, or the receive failed), at the push, in the delay, at the
end of a pass and in the back-off. (What the transaction's steps are is log 1, and the receive that fails log 13.) A sleep begins with the step before it, and at its end its bound has passed since
then (R15); the time of a pass's end is the time input as read there (R12), no earlier than any wait before allows. -/
def Obligations.PollerControl : Prop :=
  ∀ (s : State) (l : List (Addr × Nat)), s.p.alive = true → s.p.config = some l →
    (∀ i, s.p.ctl = .read i → s.p.io = .idle → s.p.running = false →
      pollerStep s = some { s with p := { s.p with alive := false, ctl := .idle } }) ∧
    (∀ i, s.p.ctl = .read i → s.p.io = .idle → s.p.running = true → s.t.connected = false →
      pollerStep s = some { s with
        p := { s.p with ctl := .backoff i, io := .asleep (s.reached + delayBound s.param .backoff) } }) ∧
    (∀ i a j, s.p.ctl = .read i → s.p.io = .idle → s.p.running = true → s.t.connected = true → l[i]? = some (a, j) →
      pollerStep s = some { s with p := { s.p with io := .xact ⟨.read a, build s.t.deviceId a false 0, .acquire⟩ } }) ∧
    (∀ i x, s.p.ctl = .read i → s.p.io = .xact x → x.phase = .acquire →
      (s.t.lock = some .consumer → pollerStep s = none) ∧
      (s.t.lock = none → pollerStep s = some { s with
        t := { s.t with lock := some .poller }, p := { s.p with io := .xact { x with phase := .send } } })) ∧
    (∀ i req frame, s.p.ctl = .read i → s.p.io = .xact ⟨req, frame, .send⟩ →
      (s.t.connected = false → pollerStep s = some { s with
        t := { s.t with lock := none }
        p := { s.p with io := .got none }
        out := s.out ++ [.log (.error .notOpen) .error] }) ∧
      (s.t.connected = true → s.drawTxOk.1 = false → pollerStep s = some { s with
        t := { s.t with lock := none, rx := [] }
        p := { s.p with io := .got none }
        env := s.drawTxOk.2.env
        out := s.out ++ [.flush .poller, .txFailed .poller frame.bytes, .log (.error .io) .error] }) ∧
      (s.t.connected = true → s.drawTxOk.1 = true → pollerStep s = some { s with
        t := { s.t with rx := [] }
        p := { s.p with io := .xact ⟨req, frame, .settle (s.reached + delayBound s.param (settleDelay req))⟩ }
        env := s.drawTxOk.2.env
        out := s.out ++ [.flush .poller, .tx .poller frame.bytes] })) ∧
    (∀ i req frame wake, s.p.ctl = .read i → s.p.io = .xact ⟨req, frame, .settle wake⟩ →
      pollerStep s = some { s with
        p := { s.p with io := .xact ⟨req, frame, .receive (max s.reached wake + s.t.portCfg.timeout)⟩ }
        reached := max s.reached wake
        out := s.out ++ [.sleep .poller (settleDelay req) (delayBound s.param (settleDelay req))] }) ∧
    (∀ i req frame late, s.p.ctl = .read i → s.p.io = .xact ⟨req, frame, .receive late⟩ →
      (∀ more, s.drawRx.1 = .bytes more →
        let r := (s.t.rx ++ more).take 5
        let v := parse r req.addr s.t.deviceId
        pollerStep s = some { s with
          t := { s.t with lock := none, rx := (s.t.rx ++ more).drop 5 }
          p := { s.p with io := .got v }
          env := s.drawRx.2.env
          reached := if r.length < 5 then max s.reached late else s.reached
          out := s.out ++ [.rx .poller r s.t.portCfg.timeout] ++
            (if v.isSome then [] else [.log (.error (failKind r req.addr s.t.deviceId)) .error]) ++
            writeLog req v.isSome }) ∧
      (s.drawRx.1 = .fails → pollerStep s = some { s with
        t := { s.t with lock := none }
        p := { s.p with io := .got none }
        env := s.drawRx.2.env
        out := s.out ++ [.rxFailed .poller, .log (.error .io) .error] ++ writeLog req false })) ∧
    (∀ i a j x, s.p.ctl = .read i → s.p.io = .got (some x) → l[i]? = some (a, j) →
      pollerStep s = some { s with
        p := { s.p with ctl := .delay i, io := .asleep (s.reached + delayBound s.param .interpoll) }
        q := s.q.modify j (pushSample (a, x)) }) ∧
    (∀ i a j, s.p.ctl = .read i → s.p.io = .got none → l[i]? = some (a, j) →
      pollerStep s = some { s with
        p := { s.p with ctl := .delay i, io := .asleep (s.reached + delayBound s.param .interpoll) } }) ∧
    (∀ i wake, s.p.ctl = .delay i → s.p.io = .asleep wake →
      pollerStep s = some { s with
        p := { s.p with ctl := if i + 1 < l.length then .read (i + 1) else .endPass, io := .idle }
        reached := max s.reached wake
        out := s.out ++ [.sleep .poller .interpoll (delayBound s.param .interpoll)] }) ∧
    (∀ t0, s.p.ctl = .endPass → s.p.io = .idle → s.p.passT0 = some t0 →
      pollerStep s = some { s.readNow with
        p := { s.p with ctl := .read 0, passT0 := some s.readNow.clock }
        out := s.out ++ (if s.p.rateCb then [.rate (s.readNow.clock - t0)] else []) ++
          (if s.p.dataCb then [.newData] else []) } ∧
      s.clock ≤ s.readNow.clock ∧ s.reached ≤ s.readNow.clock) ∧
    (∀ i wake, s.p.ctl = .backoff i → s.p.io = .asleep wake →
      pollerStep s = some { s with
        p := { s.p with ctl := .read i, io := .idle }
        reached := max s.reached wake
        out := s.out ++ [.sleep .poller .backoff (delayBound s.param .backoff)] })

/-- R234, R206, R210, R235, R239, R241: one whole read of the poller with the link free: the request on the link, the reply
parsed, the sample pushed or none, the lock free again, on to the delay; and where the request was sent, T_READ_SETTLE and
T_INTERPOLL together at least lie between its start and the end of that delay. -/
def Obligations.PollerReadsRegister : Prop :=
  ∀ (s : State) (l : List (Addr × Nat)) (i : Nat) (a : Addr) (j : Nat),
    s.p.alive = true → s.p.running = true → s.p.config = some l → s.p.ctl = .read i → s.p.io = .idle →
    l[i]? = some (a, j) → s.t.connected = true → s.t.lock = none →
    ∃ n, pollerSteps n s = some { s with
      t := { s.t with rx := linkRx s }
      env := linkEnv s
      reached := linkReached (.read a) s
      out := s.out ++ linkEvents .poller ⟨.read a, build s.t.deviceId a false 0, .acquire⟩ s
      p := { s.p with ctl := .delay i, io := .asleep (linkReached (.read a) s + delayBound s.param .interpoll) }
      q := match linkValue a s with
        | some x => s.q.modify j (pushSample (a, x))
        | none => s.q } ∧
      (s.drawTxOk.1 = true → s.reached + delayBound s.param .readSettle ≤ linkReached (.read a) s)

/-- R240, R32, R391: the poller's step writes nothing of A or C, nor the run flag, the configuration, the callbacks, the
connection, the consumer's work or its commands; and what it does is the same whatever A and C hold. -/
def Obligations.PollerIsolation : Prop :=
  (∀ s t, pollerStep s = some t →
    t.a = s.a ∧ t.c = s.c ∧ t.p.running = s.p.running ∧ t.p.config = s.p.config ∧ t.p.rateCb = s.p.rateCb ∧
    t.p.dataCb = s.p.dataCb ∧ t.t.connected = s.t.connected ∧ t.t.deviceId = s.t.deviceId ∧
    t.t.portCfg = s.t.portCfg ∧ t.con = s.con ∧ t.inbox = s.inbox ∧ t.linkIn = s.linkIn ∧ t.param = s.param ∧
    t.result = s.result ∧ t.env.sched = s.env.sched) ∧
  ∀ s a c, pollerStep { s with a := a, c := c } = (pollerStep s).map fun t => { t with a := a, c := c }

/-- R233: no step of the machine ends the poller but its own flag check in Read(i) that finds the run flag clear. -/
def Obligations.PollerExitsOnlyAtFlagCheck : Prop :=
  ∀ s t, step s = .next t → s.p.alive = true → t.p.alive = false →
    s.p.running = false ∧ s.p.io = .idle ∧ (∃ i, s.p.ctl = .read i) ∧ t.p = { s.p with alive := false, ctl := .idle }

/-! ### The decode step (45_automaton_decode.md) -/

/-- R290, R308: at every schedule the change of A that DECODE makes is the whole step's, whatever becomes of its writes, and
the rest is left as the link's work leaves it (`WorkFrame`). (That A changes whole at once, before the first write and in
a step that is interrupted too, is the model's inference, log 12: R290 writes its updates and its Emits interleaved.) -/
def Obligations.DecodeChangesAutomaton : Prop :=
  ∀ (s : State) (word : Value), s.timeOk = true →
    ∃ t, exec (.decode word) s = .next t ∧
      WorkFrame { s with a := (decodeStep s.param s.c s.clock word s.a).1 } t

/-- R290, R298, R301, R305, R307, R311: DECODE, undisturbed, completes: what it performs is what the step puts out, in
R311's order: its actions, each reported, PurgeStart's report, and the calls on the peers that are attached, the auxiliary
one as it answers when asked (its answers are inputs: those the state lists, then free ones). The lock is free again,
nothing is left over and its result comes last. -/
def Obligations.DecodeCompletes : Prop :=
  ∀ (s : State) (word : Value), s.timeOk = true → s.ready →
    ∃ t es conn run, exec (.decode word) s = .next t ∧ t.a = (decodeStep s.param s.c s.clock word s.a).1 ∧
      t.out = s.out ++ es ++ [.result .unit] ∧
      performedIn es =
        performs s.param (decodeStep s.param s.c s.clock word s.a).2 (s.env.auxConn ++ conn) (s.env.auxRun ++ run) ∧
      actionsIn es = actionsOf (decodeStep s.param s.c s.clock word s.a).2 ∧
      t.con = s.con ∧ t.ready ∧ t.result = some .unit

/-- R291, R292, R293, R294, R295: the step writes all eleven flags of the word and its time; the position and the elapsed
time after it, from the flags before and in the sample and the time since the previous step; the periods stay. -/
def Obligations.DecodeIntegrates : Prop :=
  ∀ (par : Params) (c : Cfg) (now : Time) (word : Value) (a : Automaton),
    let old := a.flags
    let new := decodeStatus par.statusIndex word
    let dt : Time := match a.tPrev with
      | none => 0
      | some t => now - t
    let moved : Rat := match a.periodM1 with
      | none => 0
      | some p => speedOf par p * dt
    let home := !old.begBlk && new.begBlk && !(old.m1Fwd || old.m1Back)
    let a' := (decodeStep par c now word a).1
    a'.flags = new ∧ a'.tPrev = some now ∧
    a'.position = (if home then 0 else a.position) + (if new.m1Fwd then moved else 0) -
      (if new.m1Back then moved else 0) ∧
    a'.elapsed = (if home then 0 else a.elapsed) + (if new.m1Fwd then dt else 0) ∧
    a'.periodM1 = a.periodM1 ∧ a'.periodM2 = a.periodM2

/-- R296, R297, R300, R301: the override after the step, on by a rising edge of M1_BACK and off by BEG_BLK, only while
enabled; and the arm flag, cleared at the first step at which the delay has passed; the arm time and the aux flag
stay. -/
def Obligations.DecodeOverrideAndStart : Prop :=
  ∀ (par : Params) (c : Cfg) (now : Time) (word : Value) (a : Automaton),
    let new := decodeStatus par.statusIndex word
    let a' := (decodeStep par c now word a).1
    a'.override =
      (if c.backSpeedEn then
        if new.begBlk then false else a.override || (new.m1Back && !a.flags.m1Back)
      else a.override) ∧
    (a'.armed = true ↔ a.armed = true ∧ now - a.armTime < c.startDelay) ∧
    a'.armTime = a.armTime ∧ a'.armAux = a.armAux

/-- R303, R304, R305, R298, R345: the purge after the step: perhaps begun at the return stroke, at most one toggle where
its interval has passed, ended where all toggles are made. -/
def Obligations.DecodePurge : Prop :=
  ∀ (par : Params) (c : Cfg) (now : Time) (word : Value) (a : Automaton),
    let new := decodeStatus par.statusIndex word
    let returns := c.manualReturnEn && new.endBlk && !new.m1Back
    let begins := returns && a.purgePending && !a.purgeActive
    let active := a.purgeActive || begins
    let count := if begins then 0 else a.purgeCount
    let last := if begins then now else a.purgeLast
    let valve := if begins then false else a.purgeValve
    let due := active && decide (count < 2 * c.purgePulses) && decide (c.purgeDuration ≤ now - last)
    let count' := if due then count + 1 else count
    let ends := active && decide (2 * c.purgePulses ≤ count')
    let a' := (decodeStep par c now word a).1
    a'.purgeActive = (active && !ends) ∧ a'.purgeCount = count' ∧ a'.purgeLast = (if due then now else last) ∧
    a'.purgeValve = (if ends then false else if due then !valve else valve) ∧
    a'.purgePending = (a.purgePending && !returns)

/-- R311, R296-R307: all that the step puts out, in order, each part under its own rule's condition. -/
def Obligations.DecodeEmits : Prop :=
  ∀ (par : Params) (c : Cfg) (now : Time) (word : Value) (a : Automaton),
    let new := decodeStatus par.statusIndex word
    let back := c.backSpeedEn && new.m1Back && !a.flags.m1Back
    let restore := c.backSpeedEn && new.begBlk && (a.override || back)
    let returns := c.manualReturnEn && new.endBlk && !new.m1Back
    let begins := returns && a.purgePending && !a.purgeActive
    let stops := new.begBlk && (new.m2Fwd || new.m2Back) && !(new.m1Fwd || new.m1Back)
    let fires := a.armed && decide (c.startDelay ≤ now - a.armTime)
    let count := if begins then 0 else a.purgeCount
    let last := if begins then now else a.purgeLast
    let valve := if begins then false else a.purgeValve
    let active := a.purgeActive || begins
    let due := active && decide (count < 2 * c.purgePulses) && decide (c.purgeDuration ≤ now - last)
    let ends := active && decide (2 * c.purgePulses ≤ if due then count + 1 else count)
    (decodeStep par c now word a).2 =
      (if back then [.act (.setPeriodM1 5000)] else [] : List Emission) ++ (if restore then [.act .applyFwd] else [] : List Emission) ++
      (if returns then [.act .m2Fwd, .act .m1Back] else [] : List Emission) ++ (if begins then [.flowOpen, .logPurgeStart] else [] : List Emission) ++
      (if stops then [.act .m2Stop] else [] : List Emission) ++ (if fires then [.act .m1Fwd, .act .m2Fwd] else [] : List Emission) ++
      (if fires && a.armAux then [.auxStart] else [] : List Emission) ++
      (if due then [.act (if valve then .valve2Off else .valve2On)] else [] : List Emission) ++
      (if ends then [.act .valve2Off, .flowStart] else [] : List Emission) ++ (if new.begBlk && !new.m1Fwd then [.auxEnd] else [] : List Emission)

/-- R301, R307, R305, R345, R55: the peer calls: the auxiliary start only where the peer is connected, its end only where
it is connected and running, the flow sensor's hooks only where it is attached; an absent peer is called by nothing. And
the writes of an action (R360, R403): its own list of ACTION_WRITES where they are a parameter, SET_PERIOD_M1's the one
given, APPLY_FWD_SETTINGS's what the settings surface gives; every list has at least one, and emitting an action performs
its list. -/
def Obligations.EmissionsPerform : Prop :=
  ∀ s : State,
    (runEmission .auxStart s).1.out = s.out ++ (if s.readAuxConnected.1 then [.auxSendStart] else []) ∧
    (runEmission .auxEnd s).1.out =
      s.out ++ (if s.readAuxConnected.1 && s.readAuxConnected.2.readAuxRunning.1 then [.auxSendEnd] else []) ∧
    (runEmission .flowOpen s).1.out = s.out ++ (if s.param.flowPresent then [.flowOpen] else []) ∧
    (runEmission .flowStart s).1.out = s.out ++ (if s.param.flowPresent then [.flowStart] else []) ∧
    (s.param.auxPresent = false → s.readAuxConnected = (false, s) ∧ s.readAuxRunning = (false, s)) ∧
    ((actionWrites .m1Fwd s).1 = s.param.actionWrites.m1Fwd.toList ∧
      (actionWrites .m1Back s).1 = s.param.actionWrites.m1Back.toList ∧
      (actionWrites .m2Fwd s).1 = s.param.actionWrites.m2Fwd.toList ∧
      (actionWrites .m2Stop s).1 = s.param.actionWrites.m2Stop.toList ∧
      (actionWrites .valve2On s).1 = s.param.actionWrites.valve2On.toList ∧
      (actionWrites .valve2Off s).1 = s.param.actionWrites.valve2Off.toList) ∧
    (∀ v, (actionWrites (.setPeriodM1 v) s).1 = [(s.param.regs.setPeriodM1, v)]) ∧
    (actionWrites .applyFwd s).1 = s.drawUserFwd.1.toList ∧
    ∀ act : Action, (actionWrites act s).1 ≠ [] ∧ (act ≠ .applyFwd → (actionWrites act s).2 = s) ∧
      runEmission (.act act) s = runWrites act (actionWrites act s).1 true (actionWrites act s).2

/-- R312: from a sample with BEG_BLK rising and motor 1 still, then samples with M1_FWD set and M1_BACK clear whose
deltas sum to 2 seconds, at speed 10, the position is 20 and the elapsed time 2, exactly. -/
def Obligations.PositionIsTwenty : Prop :=
  ∀ (par : Params) (c : Cfg) (a : Automaton) (p : Value) (t0 : Time) (w0 : Value) (l : List (Time × Value)) (e : Time × Value),
    a.periodM1 = some p → speedOf par p = 10 →
    a.flags.begBlk = false → a.flags.m1Fwd = false → a.flags.m1Back = false →
    (decodeStatus par.statusIndex w0).begBlk = true → (decodeStatus par.statusIndex w0).m1Fwd = false →
    (decodeStatus par.statusIndex w0).m1Back = false →
    (∀ x ∈ l ++ [e], (decodeStatus par.statusIndex x.2).m1Fwd = true ∧ (decodeStatus par.statusIndex x.2).m1Back = false) →
    e.1 - t0 = 2 →
    (decodeRun par c ((t0, w0) :: l ++ [e]) a).1.position = 20 ∧ (decodeRun par c ((t0, w0) :: l ++ [e]) a).1.elapsed = 2

/-- R300, R301, R340, R341: over any run of decode steps the forward pair of an arming is issued exactly once, at the
first step at which the delay has passed, and not at all before; and none is issued where nothing is armed, so after
CANCEL none. The pair is M1_FWD, which nothing else issues, and M2_FWD at once after it. -/
def Obligations.ManualStartFiresOnce : Prop :=
  ∀ (par : Params) (c : Cfg) (l : List (Time × Value)) (a : Automaton),
    let r := decodeRun par c l a
    let reached := l.any fun e => decide (c.startDelay ≤ e.1 - a.armTime)
    (actionsOf r.2).count .m1Fwd = (if a.armed && reached then 1 else 0) ∧ r.1.armed = (a.armed && !reached) ∧
    ∀ before after, actionsOf r.2 = before ++ .m1Fwd :: after → ∃ rest, after = .m2Fwd :: rest

/-- R303, R304, R305, R345: over any run of decode steps after a purge's initiation, with none pending, the valve is
commanded on, off, on, ...: at most two toggles a pulse; and when the sequence has ended, exactly two a pulse and then
once more off. -/
def Obligations.PurgeTogglesTwicePerPulse : Prop :=
  ∀ (par : Params) (c : Cfg) (now : Time) (l : List (Time × Value)) (a : Automaton),
    a.purgeActive = false → a.purgePending = false →
    let r := decodeRun par c l (purgeInit now a).1
    valveActions r.2 = (List.range r.1.purgeCount).map toggleAction ++ (if r.1.purgeActive then [] else [.valve2Off]) ∧
    r.1.purgeCount ≤ 2 * c.purgePulses ∧ (r.1.purgeActive = false → r.1.purgeCount = 2 * c.purgePulses)

/-! ### The automaton's other commands (46_automaton_ops.md) -/

/-- R340, R341: ARM and CANCEL complete: the arm flag, and for ARM the time and the aux flag, and one report; no motor is
commanded, and no link is needed. -/
def Obligations.ArmAndCancelComplete : Prop :=
  ∀ s : State, s.timeOk = true →
    (∀ aux, exec (.arm aux) s =
      .next { s with a := { s.a with armed := true, armTime := s.clock, armAux := aux }
                     out := s.out ++ [.log .arm .info, .result .unit], result := some .unit }) ∧
    exec .cancel s =
      .next { s with a := { s.a with armed := false }, out := s.out ++ [.log .cancel .info, .result .unit]
                     result := some .unit }

/-- R343, R346, R380: PERIOD and PPEND complete: the named period, the pending mark, one log event, and nothing else but the
result. (That they put out a log event, and its kind, are log 30: decision D41 gives every automaton host command one, the
two rules have no Log line and R380 lists no kind for it; its severity is a free value.) -/
def Obligations.PeriodAndPendingComplete : Prop :=
  ∀ s : State, s.timeOk = true →
    (∀ v, exec (.period .m1 v) s =
      .next { s with
        a := { s.a with periodM1 := some v }
        out := s.out ++ [.log (.period .m1) (Config.periodSeverity .m1 v), .result .unit]
        result := some .unit }) ∧
    (∀ v, exec (.period .m2 v) s =
      .next { s with
        a := { s.a with periodM2 := some v }
        out := s.out ++ [.log (.period .m2) (Config.periodSeverity .m2 v), .result .unit]
        result := some .unit }) ∧
    ∀ b, exec (.ppend b) s =
      .next { s with
        a := { s.a with purgePending := b }
        out := s.out ++ [.log .purgePending (Config.pendingSeverity b), .result .unit]
        result := some .unit }

/-- R347, R132, R385: SETCFG completes: a value of the field's type is stored, reported and answered true; a negative
time or count, a count that is no integer, a Boolean that is neither 0 nor 1 is refused and changes nothing else (log 6). -/
def Obligations.SetcfgCompletes : Prop :=
  ∀ (s : State) (v : Rat), s.timeOk = true →
    let stored (f : CfgField) (c : Cfg) : Prop := exec (.setcfg f v) s =
      .next { s with c := c, out := s.out ++ [.log (.setConfig f) .info, .result (.bool true)]
                     result := some (.bool true) }
    let refused (f : CfgField) : Prop := exec (.setcfg f v) s =
      .next { s with out := s.out ++ [.result (.refused .illegalOperand)], result := some (.refused .illegalOperand) }
    (0 ≤ v → stored .startDelay { s.c with startDelay := v }) ∧ (v < 0 → refused .startDelay) ∧
    (0 ≤ v → stored .purgeDuration { s.c with purgeDuration := v }) ∧ (v < 0 → refused .purgeDuration) ∧
    (∀ n : Nat, v = n → stored .purgePulses { s.c with purgePulses := n }) ∧
    ((∀ n : Nat, v ≠ n) → refused .purgePulses) ∧
    (∀ b : Bool, v = (if b then 1 else 0) → stored .backSpeedEn { s.c with backSpeedEn := b } ∧
      stored .manualReturnEn { s.c with manualReturnEn := b }) ∧
    (v ≠ 0 → v ≠ 1 → refused .backSpeedEn ∧ refused .manualReturnEn)

/-- R345: PURGE completes: nothing but the result while a sequence runs; else, undisturbed, the sequence begins, the flow
sensor's hook is called where it is attached, and the start is reported; no valve is commanded. -/
def Obligations.PurgeCompletes : Prop :=
  ∀ s : State, s.timeOk = true → s.ready →
    (s.a.purgeActive = true → exec .purge s =
      .next { s with out := s.out ++ [.result .unit], result := some .unit }) ∧
    (s.a.purgeActive = false → exec .purge s =
      .next { s with
        a := { s.a with purgeActive := true, purgeCount := 0, purgeLast := s.clock, purgeValve := false }
        out := s.out ++ (if s.param.flowPresent then [.flowOpen] else []) ++ [.log .purgeStart .info, .result .unit]
        result := some .unit })

/-- R350, R351, R352, R96, R343: DRAIN, undisturbed, completes: it returns the samples queue after queue in the drain
order, oldest first; every queue visited is empty; A is what the samples make of it one after another, each decode step
at a time no earlier than the one before; what it performs is what those steps put out, in order, as for DECODE: actions,
PurgeStart's report and the peers' calls; C, P and the connection stay.
(That each decode step reads the time input for itself, and the periods follow it, is the model's inference, log 16; how
the order of the queues is given is log 17's.) -/
def Obligations.DrainCompletes : Prop :=
  ∀ s : State, s.timeOk = true → s.ready → (drainOrder s.param s.p.config).Nodup →
    ∃ t es conn run, ∃ l : List (Time × Sample), exec .drain s = .next t ∧
      l.map Prod.snd = (drainOrder s.param s.p.config).flatMap (fun j => s.queue j) ∧
      (s.clock :: l.map Prod.fst).Pairwise (· ≤ ·) ∧
      t.a = (drainRun s.param s.c l s.a).1 ∧
      t.out = s.out ++ es ++ [.result (.samples (l.map Prod.snd))] ∧
      performedIn es =
        performs s.param (drainRun s.param s.c l s.a).2 (s.env.auxConn ++ conn) (s.env.auxRun ++ run) ∧
      actionsIn es = actionsOf (drainRun s.param s.c l s.a).2 ∧
      t.result = some (.samples (l.map Prod.snd)) ∧
      (∀ j, t.queue j = if j ∈ drainOrder s.param s.p.config then [] else s.queue j) ∧
      t.q.length = s.q.length ∧ t.param = s.param ∧ t.p = s.p ∧ t.c = s.c ∧ t.con = { s.con with drained := [] } ∧
      t.t = { s.t with rx := t.t.rx } ∧ t.inbox = s.inbox ∧ t.linkIn = s.linkIn ∧ t.ready

/-- R350, R352: with a configuration of the poller's own making the drain order visits each queue once; and with no order
given it is the configured one (that an empty DRAIN_ORDER stands for the configured order is the model's, log 17). -/
def Obligations.DrainOrderVisitsEachQueueOnce : Prop :=
  ∀ (par : Params) (l : List (Addr × Nat)), l.map Prod.snd = List.range l.length →
    (drainOrder par (some l)).Perm (List.range l.length) ∧ (par.drainOrder = [] → drainOrder par (some l) = List.range l.length)

/-- R360, R308: an action, undisturbed, attempts every write of its list. Connected, the frames handed to the link are those
built for the writes, in list order, also after a write that failed, each on a flushed buffer; the one report of an action
is its own, last, and says success exactly when every write was reported a success. Not connected, each write fails with
NotOpen and sends nothing, and the report says so; nothing but the outputs changes. -/
def Obligations.ActionAttemptsEveryWrite : Prop :=
  ∀ (s : State) (act : Action) (l : List Write), s.ready →
    (s.t.connected = true →
      ∃ es sev, (runWrites act l true s).1.out = s.out ++ es ++ [.log (.command act) sev] ∧
        (runWrites act l true s).2 = [] ∧
        requestsIn es = l.map (fun w => (build s.t.deviceId w.1 true w.2).bytes) ∧
        es.count (.flush .consumer) = l.length ∧ actionsIn es = [] ∧
        (sev = .success ↔ writesOkIn es = l) ∧ (sev = .success ∨ sev = .error)) ∧
    (s.t.connected = false →
      runWrites act l true s =
        ({ s with out := s.out ++ List.replicate l.length (.log (.error .notOpen) .error) ++
            [.log (.command act) (if l = [] then .success else .error)] }, []))

/-! ### The machine as a whole -/

/-- The consumer's turn runs the instruction its port's first item spells, at the item's time; the device's turn runs the
response that arrives, and bytes that are no frame come into the receive buffer behind what is there (R36, R209). The
poller's turn is its step (R234); an agent that has no step, as one that waits for the lock (R201), gives its turn to the
other, and where neither has one, or a turn has nothing to do, nothing changes. With nothing scheduled the consumer goes
first, then the device, then the poller (R94 leaves the order open). (That turns come from a schedule and are given up so,
and the order with nothing scheduled, are the model's choice, log 2; that a response, or a request frame handed to the
transmit side, runs as an instruction is its reading, log 11; how the device's bytes arrive is log 28.) -/
def Obligations.StepRunsDecoded : Prop :=
  (∀ (s : State) (it : Item) (rest : List Item) (sched : List Turn) (i : Instr),
    s.con.todo = [] → s.inbox = it :: rest → s.clock ≤ it.now → (∀ t, s.a.tPrev = some t → t ≤ it.now) →
    decode it.port it.bytes = .ok i →
    (s.env.sched = [] ∨ s.env.sched = .consumer :: sched) →
    step s = exec i { s with inbox := rest, clock := it.now, reached := max s.reached it.now
                             env := { s.env with sched := s.env.sched.tail } }) ∧
  (∀ (s : State) (chunk : List Byte) (rest : List (List Byte)) (sched : List Turn),
    s.linkIn = chunk :: rest → s.env.sched = .device :: sched →
    (∀ i, decode .rx chunk = .ok i → step s = exec i { s with linkIn := rest, env := { s.env with sched := sched } }) ∧
    ∀ r, decode .rx chunk = .error r →
      step s = .next { s with t := { s.t with rx := s.t.rx ++ chunk }, linkIn := rest, env := { s.env with sched := sched } }) ∧
  (∀ (s : State) (sched : List Turn),
    let s0 : State := { s with env := { s.env with sched := sched } }
    (s.env.sched = .poller :: sched →
      (∀ t, pollerStep s0 = some t → step s = .next t) ∧
      (pollerStep s0 = none → s0.consumerCan = true →
        step s = step { s with env := { s.env with sched := .consumer :: sched } }) ∧
      (pollerStep s0 = none → s0.consumerCan = false → step s = .next s0)) ∧
    (s.env.sched = .consumer :: sched → s0.consumerCan = false →
      (∀ t, pollerStep s0 = some t → step s = .next t) ∧ (pollerStep s0 = none → step s = .next s0)) ∧
    (s.env.sched = .device :: sched → s.linkIn = [] → step s = .next s0) ∧
    (s.env.sched = .joinTimeout :: sched → (∀ wake ws, s.con.todo ≠ .join wake :: ws) → step s = .next s0)) ∧
  ∀ s : State, s.env.sched = [] →
    (s.consumerCan = true → step s = step { s with env := { s.env with sched := [.consumer] } }) ∧
    (s.consumerCan = false → s.linkIn ≠ [] → step s = step { s with env := { s.env with sched := [.device] } }) ∧
    (s.consumerCan = false → s.linkIn = [] →
      (∀ t, pollerStep s = some t → step s = .next t) ∧ (pollerStep s = none → step s = .next s)) ∧
    (s.con.todo = [] → (s.consumerCan = true ↔ s.inbox ≠ []))

/-- R386, R292, R383, R384: a host command has a next state at every state in which the time input is not earlier than the
previous decode step, whatever its operands and whatever fails; else it has no step. The link's frames always have
one. And an item whose time is earlier than the time input was last read, or than the previous decode step, has none when
the consumer's turn comes. (One time input, checked for every command: the model's inference, log 8; that the consumer goes
first with nothing scheduled is its choice, log 2.) -/
def Obligations.CommandsNeverTrap : Prop :=
  (∀ (i : Instr) (s : State),
    (i.port = .host → s.timeOk = false → exec i s = .fault .timeBackwards) ∧
    (i.port = .host → s.timeOk = true → ∃ t, exec i s = .next t) ∧
    (i.port ≠ .host → ∃ t, exec i s = .next t)) ∧
  ∀ (s : State) (it : Item) (rest : List Item) (sched : List Turn), (s.env.sched = [] ∨ s.env.sched = .consumer :: sched) →
    s.con.todo = [] → s.inbox = it :: rest →
    (it.now < s.clock ∨ ∃ t, s.a.tPrev = some t ∧ it.now < t) → step s = .fault .timeBackwards

/-- R131, R385: exactly the opcode bytes outside the table are refused as illegal commands, whatever follows them; and a
refused item changes nothing of T, P, Q, A or C, and emits no log event. (That the time input is read for a refused item
too, and that what is no frame at the transmit side is refused in the same way, are the model's, log 7; that the consumer
goes first with nothing scheduled is its choice, log 2.) -/
def Obligations.IllegalOpcodesRefused : Prop :=
  (∀ (op : Byte) (l : List Byte), decode .host (op :: l) = .error .illegalCommand ↔
    op.toNat ∉ [0x01, 0x02, 0x03, 0x04, 0x10, 0x11, 0x12, 0x13, 0x14, 0x20, 0x21, 0x22, 0x30, 0x31, 0x32, 0x33, 0x34,
      0x35, 0x36, 0x37, 0x38]) ∧
  ∀ (s : State) (it : Item) (rest : List Item) (sched : List Turn) (r : PortRefusal),
    (s.env.sched = [] ∨ s.env.sched = .consumer :: sched) → s.con.todo = [] → s.inbox = it :: rest → s.clock ≤ it.now → (∀ t, s.a.tPrev = some t → t ≤ it.now) → decode it.port it.bytes = .error r →
    step s = .next { s with inbox := rest, clock := it.now, reached := max s.reached it.now
                            env := { s.env with sched := s.env.sched.tail }
                            out := s.out ++ [.result (.refused r)], result := some (.refused r) }

/-- R132: an operand outside its width is refused and one inside it accepted, for every command with an operand that has
a width: a byte of CRC7 or PARSE, an address of RDREG, WRREG, PARSE or PCONFIG, a value of WRREG or PERIOD, a word of DECODE
or SDECODE, the data of BUILD, a device id of PARSE, a motor of PERIOD, a Boolean of BUILD, ARM or PPEND, the field of
SETCFG and its times; BUILD's address is accepted at any value. Where BUILD's data is omitted it is 0 (R170), and where CONNECT's rate is it is 38400
(R203). (The operands' bytes, how an operand is omitted among them, and the numbers that stand for a motor, a field and a
Boolean are the model's choice, log 6; that CONNECT is accepted at any port name and any rate, 0 included, is its choice,
log 29.) -/
def Obligations.IllegalOperandsRefused : Prop :=
  ∀ n : Nat,
    (128 ≤ n → decode .host (0x13 :: putNat n) = .error .illegalOperand) ∧
    (n < 128 → decode .host (0x13 :: putNat n) = .ok (.rdreg (BitVec.ofNat 7 n))) ∧
    (∀ v : Value, 128 ≤ n → decode .host (0x14 :: (putNat n ++ putBits v)) = .error .illegalOperand) ∧
    (∀ a : Addr, 2 ^ 16 ≤ n → decode .host (0x14 :: (putBits a ++ putNat n)) = .error .illegalOperand) ∧
    (∀ m, n < 128 → m < 2 ^ 16 →
      decode .host (0x14 :: (putNat n ++ putNat m)) = .ok (.wrreg (BitVec.ofNat 7 n) (BitVec.ofNat 16 m))) ∧
    (∀ l l' : List Byte, 256 ≤ n → decode .host
        (0x01 :: (putNat (l.length + 1 + l'.length) ++ l.flatMap putBits ++ putNat n ++ l'.flatMap putBits)) =
      .error .illegalOperand) ∧
    (∀ l l' : List Byte, n < 256 → decode .host
        (0x01 :: (putNat (l.length + 1 + l'.length) ++ l.flatMap putBits ++ putNat n ++ l'.flatMap putBits)) =
      .ok (.crc7 (l ++ BitVec.ofNat 8 n :: l'))) ∧
    (∀ (l l' : List Byte) (a : Addr) (d : DevId), 256 ≤ n → decode .host
        (0x03 :: (putNat (l.length + 1 + l'.length) ++ l.flatMap putBits ++ putNat n ++ l'.flatMap putBits ++
          putBits a ++ putBits d)) = .error .illegalOperand) ∧
    (∀ (l l' : List Byte) (a : Addr) (d : DevId), n < 256 → decode .host
        (0x03 :: (putNat (l.length + 1 + l'.length) ++ l.flatMap putBits ++ putNat n ++ l'.flatMap putBits ++
          putBits a ++ putBits d)) = .ok (.parse (l ++ BitVec.ofNat 8 n :: l') a d)) ∧
    (∀ (l : List Byte) (d : DevId), 128 ≤ n →
      decode .host (0x03 :: (putList putBits l ++ putNat n ++ putBits d)) = .error .illegalOperand) ∧
    (∀ (l : List Byte) (a : Addr), 8 ≤ n →
      decode .host (0x03 :: (putList putBits l ++ putBits a ++ putNat n)) = .error .illegalOperand) ∧
    (∀ (l : List Byte) (m : Nat), n < 128 → m < 8 →
      decode .host (0x03 :: (putList putBits l ++ putNat n ++ putNat m)) =
        .ok (.parse l (BitVec.ofNat 7 n) (BitVec.ofNat 3 m))) ∧
    (∀ l l' : List Addr, 128 ≤ n → decode .host
        (0x20 :: (putNat (l.length + 1 + l'.length) ++ l.flatMap putBits ++ putNat n ++ l'.flatMap putBits)) =
      .error .illegalOperand) ∧
    (∀ l l' : List Addr, n < 128 → decode .host
        (0x20 :: (putNat (l.length + 1 + l'.length) ++ l.flatMap putBits ++ putNat n ++ l'.flatMap putBits)) =
      .ok (.pconfig (l ++ BitVec.ofNat 7 n :: l'))) ∧
    (∀ w d, decode .host (0x02 :: (putNat n ++ putBool w ++ putBits d)) = .ok (.build n w d)) ∧
    (∀ w, decode .host (0x02 :: (putNat n ++ putBool w)) = .ok (.build n w 0)) ∧
    (∀ (a : Nat) (d : Value), 2 ≤ n →
      decode .host (0x02 :: (putNat a ++ putNat n ++ putBits d)) = .error .illegalOperand ∧
      decode .host (0x02 :: (putNat a ++ putNat n)) = .error .illegalOperand) ∧
    (∀ a w, 2 ^ 16 ≤ n → decode .host (0x02 :: (putNat a ++ putBool w ++ putNat n)) = .error .illegalOperand) ∧
    (∀ op ∈ [(0x04 : Byte), 0x30], 2 ^ 16 ≤ n → decode .host (op :: putNat n) = .error .illegalOperand) ∧
    (n < 2 ^ 16 → decode .host (0x04 :: putNat n) = .ok (.sdecode (BitVec.ofNat 16 n)) ∧
      decode .host (0x30 :: putNat n) = .ok (.decode (BitVec.ofNat 16 n))) ∧
    (∀ v : Value, 2 ≤ n → decode .host (0x31 :: (putNat n ++ putBits v)) = .error .illegalOperand) ∧
    (∀ m, 2 ^ 16 ≤ n → decode .host (0x31 :: (putMotor m ++ putNat n)) = .error .illegalOperand) ∧
    (∀ m, n < 2 ^ 16 → decode .host (0x31 :: (putMotor m ++ putNat n)) = .ok (.period m (BitVec.ofNat 16 n))) ∧
    (∀ op ∈ [(0x32 : Byte), 0x35], 2 ≤ n → decode .host (op :: putNat n) = .error .illegalOperand) ∧
    (∀ b, decode .host (0x32 :: putBool b) = .ok (.arm b) ∧ decode .host (0x35 :: putBool b) = .ok (.ppend b)) ∧
    (∀ v : Rat, 5 ≤ n → decode .host (0x36 :: (putNat n ++ putRat v)) = .error .illegalOperand) ∧
    (∀ v : Rat, v < 0 → decode .host (0x36 :: (putField .startDelay ++ putRat v)) = .error .illegalOperand ∧
      decode .host (0x36 :: (putField .purgeDuration ++ putRat v)) = .error .illegalOperand) ∧
    (∀ v : Rat, 0 ≤ v → decode .host (0x36 :: (putField .startDelay ++ putRat v)) = .ok (.setcfg .startDelay v) ∧
      decode .host (0x36 :: (putField .purgeDuration ++ putRat v)) = .ok (.setcfg .purgeDuration v)) ∧
    ∀ (port : List Byte) (timeout : Rat), 0 < timeout →
      decode .host (0x10 :: (putList putBits port ++ putNat 0 ++ putPosRat timeout)) =
        .ok (.connect ⟨port, 38400, timeout⟩) ∧
      decode .host (0x10 :: (putList putBits port ++ putBaud n ++ putPosRat timeout)) = .ok (.connect ⟨port, n, timeout⟩)

/-- Decoding the encoding of a well-formed instruction gives it back, for every instruction and every operand; and no two
well-formed instructions of one port have the same encoding. (A host command's operand bytes are the model's, log 6.) -/
def Obligations.DecodeEncodeAgree : Prop :=
  (∀ i : Instr, i.wf = true → decode i.port (encode i) = .ok i) ∧
  ∀ i j : Instr, i.wf = true → j.wf = true → i.port = j.port → encode i = encode j → i = j

/-- R110-R117, R130 and 95_test_vectors.md: opcodes and frames of the spec, written out, decode to what they stand for. (The
operand bytes after the opcodes 0x13 and 0x32 are the model's choice, log 6, and the refusal of what is no frame is its
own, log 7.) -/
def Obligations.SpecWordsDecode : Prop :=
  decode .host [0x11] = .ok .disconnect ∧
  decode .host [0x13, 0x05] = .ok (.rdreg 0x05) ∧
  decode .host [0x32, 0x01] = .ok (.arm true) ∧
  decode .tx [0b11000001, 0b00000011, 0, 0, 0b00100000] = .ok (.readReq 1 0x03 0x20) ∧
  decode .tx [0b11100001, 0b00010000, 0b00100111, 0b00001000, 0b01100111] = .ok (.writeReq 1 0x10 5000 0x67) ∧
  decode .rx [0b11100001, 0b10010000, 0b00100111, 0b00001000, 0b00100010] =
    .ok (.response true 1 0x10 5000 0x22 true false false false) ∧
  decode .rx [0b01100001, 0b00010000, 0b00100111, 0b00001000, 0b01100111] = .error .notAFrame

/-- R200, R201, R202, R91: the lock is held by exactly the agent that is inside a transaction, never are both, and the
link's traffic is whole transactions one after another: every step keeps it. -/
def Obligations.LinkInvariantKept : Prop :=
  ∀ s t, LinkInv s → step s = .next t → LinkInv t

/-- R57: the invariants of the link, of the queues, of the thresholds and of time hold after reset; and the parameters the
machine is built with are those the spec admits (`Params.ok`): the register map's addresses pairwise distinct (R81), the
status index injective (R122), the thresholds not negative (R52), every wait above 0 (R9, R211, R431). -/
def Obligations.InvariantsAtReset : Prop :=
  LinkInv State.reset ∧ queuesBounded State.reset ∧ queuesConfigured State.reset ∧ thresholdsOk State.reset ∧
  timesOk State.reset ∧ State.reset.param.ok = true ∧ State.reset.param.regs.toList.Pairwise (· ≠ ·) ∧
  ∀ d, 0 < delayBound State.reset.param d

/-- R43, R124, R230: every queue holds at most ten samples, each configured entry has a queue of its own, and a queue
holds samples of its entry's address alone: every step keeps it. (That no configuration changes while the poller lives
is part of the step.) -/
def Obligations.QueueInvariantKept : Prop :=
  ∀ s t, queuesBounded s → queuesConfigured s → step s = .next t → queuesBounded t ∧ queuesConfigured t

/-- R52, R386, R392: thresholds are never negative, the previous decode step is never later than the time input, and that
never later than the time reached: every step keeps it. And R12, R15, R241: the waits take their time. In every step each
agent's time goes on by its own waits' bounds at least, so between two readings of the time input by one agent (the start
and the end of a poll pass, say) lies at least the sum of its waits. -/
def Obligations.TimeInvariantKept : Prop :=
  ∀ s t, step s = .next t →
    (thresholdsOk s → timesOk s → thresholdsOk t ∧ timesOk t) ∧
    (LinkInv s → ∃ es, t.out = s.out ++ es ∧ ∀ g, countedTo g s + waitedIn g es ≤ countedTo g t)

/-- R30, R34, R42, R392, R406: no step changes the parameters, the device id or the attachment of the poller's reports,
moves the time input or the time reached back, or takes an output back. -/
def Obligations.StepKeepsConstants : Prop :=
  ∀ s t, step s = .next t →
    t.param = s.param ∧ t.t.deviceId = s.t.deviceId ∧ t.p.rateCb = s.p.rateCb ∧ t.p.dataCb = s.p.dataCb ∧
    s.clock ≤ t.clock ∧ s.reached ≤ t.reached ∧ s.out <+: t.out

/-- R291, R32, R33, R38, R43, R52, R361: at every schedule, what only certain commands change: the flags and the previous
step's time DECODE, DRAIN and DISCONNECT; any of A those and PERIOD, ARM, CANCEL, PURGE and PPEND; the configuration
registers SETCFG; the connection CONNECT and DISCONNECT; the poller's configuration PCONFIG, any of P that and PSTART
and PSTOP; the queues PCONFIG, DRAIN and DISCONNECT; and no command what waits at the ports or the parameters. -/
def Obligations.OnlyTheseCommandsWrite : Prop :=
  ∀ (i : Instr) (s t : State), exec i s = .next t →
    (t.a.flags ≠ s.a.flags ∨ t.a.tPrev ≠ s.a.tPrev → (∃ w, i = .decode w) ∨ i = .drain ∨ i = .disconnect) ∧
    (t.a ≠ s.a → (∃ w, i = .decode w) ∨ i = .drain ∨ i = .disconnect ∨ (∃ m v, i = .period m v) ∨ (∃ b, i = .arm b) ∨
      i = .cancel ∨ i = .purge ∨ ∃ b, i = .ppend b) ∧
    (t.c ≠ s.c → ∃ f v, i = .setcfg f v) ∧
    (t.t.connected ≠ s.t.connected ∨ t.t.portCfg ≠ s.t.portCfg → (∃ cfg, i = .connect cfg) ∨ i = .disconnect) ∧
    (t.p.config ≠ s.p.config → ∃ l, i = .pconfig l) ∧
    (t.p ≠ s.p → (∃ l, i = .pconfig l) ∨ i = .pstart ∨ i = .pstop) ∧
    (t.q ≠ s.q → (∃ l, i = .pconfig l) ∨ i = .drain ∨ i = .disconnect) ∧
    t.param = s.param ∧ t.t.deviceId = s.t.deviceId ∧ t.inbox = s.inbox ∧ t.linkIn = s.linkIn

/-- R57, R420, where the spec gives a value: the state after construction. -/
def Obligations.ResetValues : Prop :=
  let s := State.reset
  s.t.connected = false ∧ s.t.deviceId = s.param.deviceId ∧ s.t.lock = none ∧ s.t.rx = [] ∧ s.p.config = none ∧
  s.p.running = false ∧ s.p.alive = false ∧ s.p.ctl = .idle ∧ s.p.passT0 = none ∧ s.p.rateCb = s.param.rateCb ∧
  s.p.dataCb = s.param.dataCb ∧ s.q = [] ∧ s.a.flags = {} ∧ s.a.tPrev = none ∧ s.a.periodM1 = none ∧
  s.a.periodM2 = none ∧ s.a.position = 0 ∧ s.a.elapsed = 0 ∧ s.a.override = false ∧ s.a.armed = false ∧
  s.a.purgeActive = false ∧ s.a.purgeCount = 0 ∧ s.a.purgeValve = false ∧ s.a.purgePending = false ∧ s.c = s.param.cfg0
end

