-- ==== Sys2Proof/Laws/Codec.lean ====
section
/-! SUPPORT. Each field of a built byte reads back as what was put there (R110, R111). -/

namespace Sys2Proof.Machine

@[simp] theorem syncOf_headerByte (w : Bool) (data : Value) (dev : DevId) : syncOf (headerByte w data dev) = 0b11#2 := by
  ext i hi
  unfold syncOf headerByte
  cases w <;> interval_cases i <;> simp

@[simp] theorem wBitOf_headerByte (w : Bool) (data : Value) (dev : DevId) : wBitOf (headerByte w data dev) = w := by
  unfold wBitOf headerByte
  cases w <;> simp

@[simp] theorem devOf_headerByte (w : Bool) (data : Value) (dev : DevId) : devOf (headerByte w data dev) = dev := by
  ext i hi
  unfold devOf headerByte
  cases w <;> interval_cases i <;> simp [BitVec.getLsbD_eq_getElem]

@[simp] theorem low7_byteOf (t : Bool) (l : BitVec 7) : low7 (byteOf t l) = l := by
  ext i hi
  unfold low7 byteOf
  cases t <;> interval_cases i <;> simp [BitVec.getLsbD_eq_getElem]

@[simp] theorem top1_byteOf (t : Bool) (l : BitVec 7) : top1 (byteOf t l) = t := by
  unfold top1 byteOf
  cases t <;> simp

theorem headerByte_data (w : Bool) (data : Value) (dev : DevId) :
    (headerByte w data dev).extractLsb' 3 2 = data.extractLsb' 14 2 := by
  ext i hi
  unfold headerByte
  cases w <;> interval_cases i <;> simp [BitVec.getLsbD_eq_getElem]

/-- R111: the three parts of a data value put together again. -/
theorem data_parts (data : Value) :
    (data.extractLsb' 14 2).setWidth 16 <<< 14 ||| (dataHigh data).setWidth 16 <<< 7 |||
      (dataLow data).setWidth 16 = data := by
  ext i hi
  unfold dataHigh dataLow
  simp only [BitVec.getElem_or, BitVec.getElem_shiftLeft, BitVec.getElem_setWidth, BitVec.getLsbD_extractLsb']
  rcases lt_or_ge i 7 with h | h
  · simp [h, show i < 14 by omega, BitVec.getLsbD_eq_getElem hi]
  · rcases lt_or_ge i 14 with h' | h'
    · have e : 7 + (i - 7) = i := by omega
      simp [h', show ¬ i < 7 by omega, show i - 7 < 7 by omega, e, BitVec.getLsbD_eq_getElem hi]
    · have e : 14 + (i - 14) = i := by omega
      simp [show ¬ i < 14 by omega, show ¬ i < 7 by omega, show ¬ i - 7 < 7 by omega, show i - 14 < 2 by omega, e,
        BitVec.getLsbD_eq_getElem hi]

@[simp] theorem dataOf_built (w : Bool) (data : Value) (dev : DevId) (y z : Bool) :
    dataOf (headerByte w data dev) (byteOf y (dataHigh data)) (byteOf z (dataLow data)) = data := by
  unfold dataOf
  rw [low7_byteOf, low7_byteOf, headerByte_data, data_parts]

end Sys2Proof.Machine
end

