-- ==== Sys2Proof/Laws/State.lean ====
section
/-! SUPPORT. One lemma per field per update of the state, each true by unfolding the update once. The derived updates
are put in terms of `emit`. -/

namespace Sys2Proof.Machine

variable (s : State)

@[simp] theorem State.log_eq (k : LogKind) (sev : Severity) : s.log k sev = s.emit (.log k sev) := rfl
@[simp] theorem State.raise_eq (e : ErrorKind) : s.raise e = s.emit (.log (.error e) .error) := rfl
@[simp] theorem State.sleep_eq (g : Agent) (d : Delay) (wake : Time) :
    s.sleep g d wake = (s.emit (.sleep g d (delayBound s.param d))).reach wake := rfl
@[simp] theorem State.logWrite_read (a : Addr) (ok : Bool) : s.logWrite (.read a) ok = s := rfl
@[simp] theorem State.logWrite_write (a : Addr) (v : Value) (ok : Bool) :
    s.logWrite (.write a v) ok = s.emit (.log (.write a v) (if ok then .success else .error)) := rfl

/-! ### emit -/

@[simp] theorem State.emit_param (e : Event) : (s.emit e).param = s.param := rfl
@[simp] theorem State.emit_t (e : Event) : (s.emit e).t = s.t := rfl
@[simp] theorem State.emit_p (e : Event) : (s.emit e).p = s.p := rfl
@[simp] theorem State.emit_q (e : Event) : (s.emit e).q = s.q := rfl
@[simp] theorem State.emit_a (e : Event) : (s.emit e).a = s.a := rfl
@[simp] theorem State.emit_c (e : Event) : (s.emit e).c = s.c := rfl
@[simp] theorem State.emit_con (e : Event) : (s.emit e).con = s.con := rfl
@[simp] theorem State.emit_clock (e : Event) : (s.emit e).clock = s.clock := rfl
@[simp] theorem State.emit_reached (e : Event) : (s.emit e).reached = s.reached := rfl
@[simp] theorem State.emit_inbox (e : Event) : (s.emit e).inbox = s.inbox := rfl
@[simp] theorem State.emit_linkIn (e : Event) : (s.emit e).linkIn = s.linkIn := rfl
@[simp] theorem State.emit_env (e : Event) : (s.emit e).env = s.env := rfl
@[simp] theorem State.emit_out (e : Event) : (s.emit e).out = s.out ++ [e] := rfl
@[simp] theorem State.emit_result (e : Event) : (s.emit e).result = s.result := rfl

/-! ### emitIf -/

@[simp] theorem State.emitIf_param (b : Bool) (e : Event) : (s.emitIf b e).param = s.param := rfl
@[simp] theorem State.emitIf_t (b : Bool) (e : Event) : (s.emitIf b e).t = s.t := rfl
@[simp] theorem State.emitIf_p (b : Bool) (e : Event) : (s.emitIf b e).p = s.p := rfl
@[simp] theorem State.emitIf_q (b : Bool) (e : Event) : (s.emitIf b e).q = s.q := rfl
@[simp] theorem State.emitIf_a (b : Bool) (e : Event) : (s.emitIf b e).a = s.a := rfl
@[simp] theorem State.emitIf_c (b : Bool) (e : Event) : (s.emitIf b e).c = s.c := rfl
@[simp] theorem State.emitIf_con (b : Bool) (e : Event) : (s.emitIf b e).con = s.con := rfl
@[simp] theorem State.emitIf_clock (b : Bool) (e : Event) : (s.emitIf b e).clock = s.clock := rfl
@[simp] theorem State.emitIf_reached (b : Bool) (e : Event) : (s.emitIf b e).reached = s.reached := rfl
@[simp] theorem State.emitIf_inbox (b : Bool) (e : Event) : (s.emitIf b e).inbox = s.inbox := rfl
@[simp] theorem State.emitIf_linkIn (b : Bool) (e : Event) : (s.emitIf b e).linkIn = s.linkIn := rfl
@[simp] theorem State.emitIf_env (b : Bool) (e : Event) : (s.emitIf b e).env = s.env := rfl
@[simp] theorem State.emitIf_out (b : Bool) (e : Event) : (s.emitIf b e).out = s.out ++ (if b then [e] else []) := rfl
@[simp] theorem State.emitIf_result (b : Bool) (e : Event) : (s.emitIf b e).result = s.result := rfl

/-! ### reach, reachIf -/

@[simp] theorem State.reach_param (u : Time) : (s.reach u).param = s.param := rfl
@[simp] theorem State.reach_t (u : Time) : (s.reach u).t = s.t := rfl
@[simp] theorem State.reach_p (u : Time) : (s.reach u).p = s.p := rfl
@[simp] theorem State.reach_q (u : Time) : (s.reach u).q = s.q := rfl
@[simp] theorem State.reach_a (u : Time) : (s.reach u).a = s.a := rfl
@[simp] theorem State.reach_c (u : Time) : (s.reach u).c = s.c := rfl
@[simp] theorem State.reach_con (u : Time) : (s.reach u).con = s.con := rfl
@[simp] theorem State.reach_clock (u : Time) : (s.reach u).clock = s.clock := rfl
@[simp] theorem State.reach_inbox (u : Time) : (s.reach u).inbox = s.inbox := rfl
@[simp] theorem State.reach_linkIn (u : Time) : (s.reach u).linkIn = s.linkIn := rfl
@[simp] theorem State.reach_env (u : Time) : (s.reach u).env = s.env := rfl
@[simp] theorem State.reach_out (u : Time) : (s.reach u).out = s.out := rfl
@[simp] theorem State.reach_result (u : Time) : (s.reach u).result = s.result := rfl
@[simp] theorem State.reach_reached (u : Time) : (s.reach u).reached = max s.reached u := rfl
@[simp] theorem State.reachIf_param (b : Bool) (u : Time) : (s.reachIf b u).param = s.param := rfl
@[simp] theorem State.reachIf_t (b : Bool) (u : Time) : (s.reachIf b u).t = s.t := rfl
@[simp] theorem State.reachIf_p (b : Bool) (u : Time) : (s.reachIf b u).p = s.p := rfl
@[simp] theorem State.reachIf_q (b : Bool) (u : Time) : (s.reachIf b u).q = s.q := rfl
@[simp] theorem State.reachIf_a (b : Bool) (u : Time) : (s.reachIf b u).a = s.a := rfl
@[simp] theorem State.reachIf_c (b : Bool) (u : Time) : (s.reachIf b u).c = s.c := rfl
@[simp] theorem State.reachIf_con (b : Bool) (u : Time) : (s.reachIf b u).con = s.con := rfl
@[simp] theorem State.reachIf_clock (b : Bool) (u : Time) : (s.reachIf b u).clock = s.clock := rfl
@[simp] theorem State.reachIf_inbox (b : Bool) (u : Time) : (s.reachIf b u).inbox = s.inbox := rfl
@[simp] theorem State.reachIf_linkIn (b : Bool) (u : Time) : (s.reachIf b u).linkIn = s.linkIn := rfl
@[simp] theorem State.reachIf_env (b : Bool) (u : Time) : (s.reachIf b u).env = s.env := rfl
@[simp] theorem State.reachIf_out (b : Bool) (u : Time) : (s.reachIf b u).out = s.out := rfl
@[simp] theorem State.reachIf_result (b : Bool) (u : Time) : (s.reachIf b u).result = s.result := rfl
@[simp] theorem State.reachIf_reached (b : Bool) (u : Time) :
    (s.reachIf b u).reached = if b then max s.reached u else s.reached := rfl

/-- Time does not go back. -/
@[simp] theorem le_max_if (c : Prop) [Decidable c] (r u : Time) : r ≤ if c then max r u else r := by
  split <;> simp

/-- A span of `PosTime` is above 0 (R9). -/
theorem PosTime.val_pos (t : PosTime) : 0 < t.val := by
  rw [PosTime.val, Rat.mkRat_eq_div]
  positivity

/-- Every wait of R9 is above 0 (R211). -/
theorem delayBound_pos (par : Params) (d : Delay) : 0 < delayBound par d := by
  cases d <;> exact PosTime.val_pos _

/-- A wait that begins now ends later. -/
theorem State.reached_lt_wakeAt (d : Delay) : s.reached < s.wakeAt d :=
  lt_add_of_pos_right _ (delayBound_pos s.param d)

@[simp] theorem State.wakeAt_eq (d : Delay) : s.wakeAt d = s.reached + delayBound s.param d := rfl

@[simp] theorem max_reached_wake (par : Params) (d : Delay) (r : Time) : max r (r + delayBound par d) = r + delayBound par d :=
  max_eq_right (le_add_of_nonneg_right (delayBound_pos par d).le)

/-! ### deliver -/

@[simp] theorem State.deliver_param (r : Result) : (s.deliver r).param = s.param := rfl
@[simp] theorem State.deliver_t (r : Result) : (s.deliver r).t = s.t := rfl
@[simp] theorem State.deliver_p (r : Result) : (s.deliver r).p = s.p := rfl
@[simp] theorem State.deliver_q (r : Result) : (s.deliver r).q = s.q := rfl
@[simp] theorem State.deliver_a (r : Result) : (s.deliver r).a = s.a := rfl
@[simp] theorem State.deliver_c (r : Result) : (s.deliver r).c = s.c := rfl
@[simp] theorem State.deliver_con (r : Result) : (s.deliver r).con = s.con := rfl
@[simp] theorem State.deliver_clock (r : Result) : (s.deliver r).clock = s.clock := rfl
@[simp] theorem State.deliver_reached (r : Result) : (s.deliver r).reached = s.reached := rfl
@[simp] theorem State.deliver_inbox (r : Result) : (s.deliver r).inbox = s.inbox := rfl
@[simp] theorem State.deliver_linkIn (r : Result) : (s.deliver r).linkIn = s.linkIn := rfl
@[simp] theorem State.deliver_env (r : Result) : (s.deliver r).env = s.env := rfl
@[simp] theorem State.deliver_out (r : Result) : (s.deliver r).out = s.out ++ [.result r] := rfl
@[simp] theorem State.deliver_result (r : Result) : (s.deliver r).result = some r := rfl

/-! ### setLock -/

@[simp] theorem State.setLock_param (o : Option Agent) : (s.setLock o).param = s.param := rfl
@[simp] theorem State.setLock_t (o : Option Agent) : (s.setLock o).t = { s.t with lock := o } := rfl
@[simp] theorem State.setLock_p (o : Option Agent) : (s.setLock o).p = s.p := rfl
@[simp] theorem State.setLock_q (o : Option Agent) : (s.setLock o).q = s.q := rfl
@[simp] theorem State.setLock_a (o : Option Agent) : (s.setLock o).a = s.a := rfl
@[simp] theorem State.setLock_c (o : Option Agent) : (s.setLock o).c = s.c := rfl
@[simp] theorem State.setLock_con (o : Option Agent) : (s.setLock o).con = s.con := rfl
@[simp] theorem State.setLock_clock (o : Option Agent) : (s.setLock o).clock = s.clock := rfl
@[simp] theorem State.setLock_reached (o : Option Agent) : (s.setLock o).reached = s.reached := rfl
@[simp] theorem State.setLock_inbox (o : Option Agent) : (s.setLock o).inbox = s.inbox := rfl
@[simp] theorem State.setLock_linkIn (o : Option Agent) : (s.setLock o).linkIn = s.linkIn := rfl
@[simp] theorem State.setLock_env (o : Option Agent) : (s.setLock o).env = s.env := rfl
@[simp] theorem State.setLock_out (o : Option Agent) : (s.setLock o).out = s.out := rfl
@[simp] theorem State.setLock_result (o : Option Agent) : (s.setLock o).result = s.result := rfl

/-! ### setRx -/

@[simp] theorem State.setRx_param (l : List Byte) : (s.setRx l).param = s.param := rfl
@[simp] theorem State.setRx_t (l : List Byte) : (s.setRx l).t = { s.t with rx := l } := rfl
@[simp] theorem State.setRx_p (l : List Byte) : (s.setRx l).p = s.p := rfl
@[simp] theorem State.setRx_q (l : List Byte) : (s.setRx l).q = s.q := rfl
@[simp] theorem State.setRx_a (l : List Byte) : (s.setRx l).a = s.a := rfl
@[simp] theorem State.setRx_c (l : List Byte) : (s.setRx l).c = s.c := rfl
@[simp] theorem State.setRx_con (l : List Byte) : (s.setRx l).con = s.con := rfl
@[simp] theorem State.setRx_clock (l : List Byte) : (s.setRx l).clock = s.clock := rfl
@[simp] theorem State.setRx_reached (l : List Byte) : (s.setRx l).reached = s.reached := rfl
@[simp] theorem State.setRx_inbox (l : List Byte) : (s.setRx l).inbox = s.inbox := rfl
@[simp] theorem State.setRx_linkIn (l : List Byte) : (s.setRx l).linkIn = s.linkIn := rfl
@[simp] theorem State.setRx_env (l : List Byte) : (s.setRx l).env = s.env := rfl
@[simp] theorem State.setRx_out (l : List Byte) : (s.setRx l).out = s.out := rfl
@[simp] theorem State.setRx_result (l : List Byte) : (s.setRx l).result = s.result := rfl

/-! ### setPoll -/

@[simp] theorem State.setPoll_param (ctl : PollCtl) (io : PollIo) : (s.setPoll ctl io).param = s.param := rfl
@[simp] theorem State.setPoll_t (ctl : PollCtl) (io : PollIo) : (s.setPoll ctl io).t = s.t := rfl
@[simp] theorem State.setPoll_p (ctl : PollCtl) (io : PollIo) : (s.setPoll ctl io).p = { s.p with ctl := ctl, io := io } := rfl
@[simp] theorem State.setPoll_q (ctl : PollCtl) (io : PollIo) : (s.setPoll ctl io).q = s.q := rfl
@[simp] theorem State.setPoll_a (ctl : PollCtl) (io : PollIo) : (s.setPoll ctl io).a = s.a := rfl
@[simp] theorem State.setPoll_c (ctl : PollCtl) (io : PollIo) : (s.setPoll ctl io).c = s.c := rfl
@[simp] theorem State.setPoll_con (ctl : PollCtl) (io : PollIo) : (s.setPoll ctl io).con = s.con := rfl
@[simp] theorem State.setPoll_clock (ctl : PollCtl) (io : PollIo) : (s.setPoll ctl io).clock = s.clock := rfl
@[simp] theorem State.setPoll_reached (ctl : PollCtl) (io : PollIo) : (s.setPoll ctl io).reached = s.reached := rfl
@[simp] theorem State.setPoll_inbox (ctl : PollCtl) (io : PollIo) : (s.setPoll ctl io).inbox = s.inbox := rfl
@[simp] theorem State.setPoll_linkIn (ctl : PollCtl) (io : PollIo) : (s.setPoll ctl io).linkIn = s.linkIn := rfl
@[simp] theorem State.setPoll_env (ctl : PollCtl) (io : PollIo) : (s.setPoll ctl io).env = s.env := rfl
@[simp] theorem State.setPoll_out (ctl : PollCtl) (io : PollIo) : (s.setPoll ctl io).out = s.out := rfl
@[simp] theorem State.setPoll_result (ctl : PollCtl) (io : PollIo) : (s.setPoll ctl io).result = s.result := rfl

/-! ### pollExit -/

@[simp] theorem State.pollExit_param : (s.pollExit).param = s.param := rfl
@[simp] theorem State.pollExit_t : (s.pollExit).t = s.t := rfl
@[simp] theorem State.pollExit_p : (s.pollExit).p = { s.p with alive := false, ctl := .idle } := rfl
@[simp] theorem State.pollExit_q : (s.pollExit).q = s.q := rfl
@[simp] theorem State.pollExit_a : (s.pollExit).a = s.a := rfl
@[simp] theorem State.pollExit_c : (s.pollExit).c = s.c := rfl
@[simp] theorem State.pollExit_con : (s.pollExit).con = s.con := rfl
@[simp] theorem State.pollExit_clock : (s.pollExit).clock = s.clock := rfl
@[simp] theorem State.pollExit_reached : (s.pollExit).reached = s.reached := rfl
@[simp] theorem State.pollExit_inbox : (s.pollExit).inbox = s.inbox := rfl
@[simp] theorem State.pollExit_linkIn : (s.pollExit).linkIn = s.linkIn := rfl
@[simp] theorem State.pollExit_env : (s.pollExit).env = s.env := rfl
@[simp] theorem State.pollExit_out : (s.pollExit).out = s.out := rfl
@[simp] theorem State.pollExit_result : (s.pollExit).result = s.result := rfl

/-! ### push -/

@[simp] theorem State.push_param (j : Nat) (e : Sample) : (s.push j e).param = s.param := rfl
@[simp] theorem State.push_t (j : Nat) (e : Sample) : (s.push j e).t = s.t := rfl
@[simp] theorem State.push_p (j : Nat) (e : Sample) : (s.push j e).p = s.p := rfl
@[simp] theorem State.push_q (j : Nat) (e : Sample) : (s.push j e).q = s.q.modify j (pushSample e) := rfl
@[simp] theorem State.push_a (j : Nat) (e : Sample) : (s.push j e).a = s.a := rfl
@[simp] theorem State.push_c (j : Nat) (e : Sample) : (s.push j e).c = s.c := rfl
@[simp] theorem State.push_con (j : Nat) (e : Sample) : (s.push j e).con = s.con := rfl
@[simp] theorem State.push_clock (j : Nat) (e : Sample) : (s.push j e).clock = s.clock := rfl
@[simp] theorem State.push_reached (j : Nat) (e : Sample) : (s.push j e).reached = s.reached := rfl
@[simp] theorem State.push_inbox (j : Nat) (e : Sample) : (s.push j e).inbox = s.inbox := rfl
@[simp] theorem State.push_linkIn (j : Nat) (e : Sample) : (s.push j e).linkIn = s.linkIn := rfl
@[simp] theorem State.push_env (j : Nat) (e : Sample) : (s.push j e).env = s.env := rfl
@[simp] theorem State.push_out (j : Nat) (e : Sample) : (s.push j e).out = s.out := rfl
@[simp] theorem State.push_result (j : Nat) (e : Sample) : (s.push j e).result = s.result := rfl

/-! ### clearQueue -/

@[simp] theorem State.clearQueue_param (j : Nat) : (s.clearQueue j).param = s.param := rfl
@[simp] theorem State.clearQueue_t (j : Nat) : (s.clearQueue j).t = s.t := rfl
@[simp] theorem State.clearQueue_p (j : Nat) : (s.clearQueue j).p = s.p := rfl
@[simp] theorem State.clearQueue_q (j : Nat) : (s.clearQueue j).q = s.q.modify j (fun _ => []) := rfl
@[simp] theorem State.clearQueue_a (j : Nat) : (s.clearQueue j).a = s.a := rfl
@[simp] theorem State.clearQueue_c (j : Nat) : (s.clearQueue j).c = s.c := rfl
@[simp] theorem State.clearQueue_con (j : Nat) : (s.clearQueue j).con = s.con := rfl
@[simp] theorem State.clearQueue_clock (j : Nat) : (s.clearQueue j).clock = s.clock := rfl
@[simp] theorem State.clearQueue_reached (j : Nat) : (s.clearQueue j).reached = s.reached := rfl
@[simp] theorem State.clearQueue_inbox (j : Nat) : (s.clearQueue j).inbox = s.inbox := rfl
@[simp] theorem State.clearQueue_linkIn (j : Nat) : (s.clearQueue j).linkIn = s.linkIn := rfl
@[simp] theorem State.clearQueue_env (j : Nat) : (s.clearQueue j).env = s.env := rfl
@[simp] theorem State.clearQueue_out (j : Nat) : (s.clearQueue j).out = s.out := rfl
@[simp] theorem State.clearQueue_result (j : Nat) : (s.clearQueue j).result = s.result := rfl

/-! ### leave -/

@[simp] theorem State.leave_param (ws : List Work) : (s.leave ws).param = s.param := rfl
@[simp] theorem State.leave_t (ws : List Work) : (s.leave ws).t = s.t := rfl
@[simp] theorem State.leave_p (ws : List Work) : (s.leave ws).p = s.p := rfl
@[simp] theorem State.leave_q (ws : List Work) : (s.leave ws).q = s.q := rfl
@[simp] theorem State.leave_a (ws : List Work) : (s.leave ws).a = s.a := rfl
@[simp] theorem State.leave_c (ws : List Work) : (s.leave ws).c = s.c := rfl
@[simp] theorem State.leave_con (ws : List Work) : (s.leave ws).con = { s.con with todo := ws ++ s.con.todo } := rfl
@[simp] theorem State.leave_clock (ws : List Work) : (s.leave ws).clock = s.clock := rfl
@[simp] theorem State.leave_reached (ws : List Work) : (s.leave ws).reached = s.reached := rfl
@[simp] theorem State.leave_inbox (ws : List Work) : (s.leave ws).inbox = s.inbox := rfl
@[simp] theorem State.leave_linkIn (ws : List Work) : (s.leave ws).linkIn = s.linkIn := rfl
@[simp] theorem State.leave_env (ws : List Work) : (s.leave ws).env = s.env := rfl
@[simp] theorem State.leave_out (ws : List Work) : (s.leave ws).out = s.out := rfl
@[simp] theorem State.leave_result (ws : List Work) : (s.leave ws).result = s.result := rfl

/-! ### countDraw -/

@[simp] theorem State.countDraw_param : (s.countDraw).param = s.param := rfl
@[simp] theorem State.countDraw_t : (s.countDraw).t = s.t := rfl
@[simp] theorem State.countDraw_p : (s.countDraw).p = s.p := rfl
@[simp] theorem State.countDraw_q : (s.countDraw).q = s.q := rfl
@[simp] theorem State.countDraw_a : (s.countDraw).a = s.a := rfl
@[simp] theorem State.countDraw_c : (s.countDraw).c = s.c := rfl
@[simp] theorem State.countDraw_con : (s.countDraw).con = s.con := rfl
@[simp] theorem State.countDraw_clock : (s.countDraw).clock = s.clock := rfl
@[simp] theorem State.countDraw_reached : (s.countDraw).reached = s.reached := rfl
@[simp] theorem State.countDraw_inbox : (s.countDraw).inbox = s.inbox := rfl
@[simp] theorem State.countDraw_linkIn : (s.countDraw).linkIn = s.linkIn := rfl
@[simp] theorem State.countDraw_env : (s.countDraw).env = { s.env with draws := s.env.draws + 1 } := rfl
@[simp] theorem State.countDraw_out : (s.countDraw).out = s.out := rfl
@[simp] theorem State.countDraw_result : (s.countDraw).result = s.result := rfl

/-! ### Draws: only the environment changes, and the schedule not even there -/

@[simp] theorem State.drawOpenOk_param : s.drawOpenOk.2.param = s.param := by
  unfold State.drawOpenOk; repeat (first | rfl | split)
@[simp] theorem State.drawOpenOk_t : s.drawOpenOk.2.t = s.t := by
  unfold State.drawOpenOk; repeat (first | rfl | split)
@[simp] theorem State.drawOpenOk_p : s.drawOpenOk.2.p = s.p := by
  unfold State.drawOpenOk; repeat (first | rfl | split)
@[simp] theorem State.drawOpenOk_q : s.drawOpenOk.2.q = s.q := by
  unfold State.drawOpenOk; repeat (first | rfl | split)
@[simp] theorem State.drawOpenOk_a : s.drawOpenOk.2.a = s.a := by
  unfold State.drawOpenOk; repeat (first | rfl | split)
@[simp] theorem State.drawOpenOk_c : s.drawOpenOk.2.c = s.c := by
  unfold State.drawOpenOk; repeat (first | rfl | split)
@[simp] theorem State.drawOpenOk_con : s.drawOpenOk.2.con = s.con := by
  unfold State.drawOpenOk; repeat (first | rfl | split)
@[simp] theorem State.drawOpenOk_clock : s.drawOpenOk.2.clock = s.clock := by
  unfold State.drawOpenOk; repeat (first | rfl | split)
@[simp] theorem State.drawOpenOk_reached : s.drawOpenOk.2.reached = s.reached := by
  unfold State.drawOpenOk; repeat (first | rfl | split)
@[simp] theorem State.drawOpenOk_inbox : s.drawOpenOk.2.inbox = s.inbox := by
  unfold State.drawOpenOk; repeat (first | rfl | split)
@[simp] theorem State.drawOpenOk_linkIn : s.drawOpenOk.2.linkIn = s.linkIn := by
  unfold State.drawOpenOk; repeat (first | rfl | split)
@[simp] theorem State.drawOpenOk_out : s.drawOpenOk.2.out = s.out := by
  unfold State.drawOpenOk; repeat (first | rfl | split)
@[simp] theorem State.drawOpenOk_result : s.drawOpenOk.2.result = s.result := by
  unfold State.drawOpenOk; repeat (first | rfl | split)
@[simp] theorem State.drawOpenOk_sched : s.drawOpenOk.2.env.sched = s.env.sched := by
  unfold State.drawOpenOk; repeat (first | rfl | split)

@[simp] theorem State.drawConnectRx_param : s.drawConnectRx.2.param = s.param := by
  unfold State.drawConnectRx; repeat (first | rfl | split)
@[simp] theorem State.drawConnectRx_t : s.drawConnectRx.2.t = s.t := by
  unfold State.drawConnectRx; repeat (first | rfl | split)
@[simp] theorem State.drawConnectRx_p : s.drawConnectRx.2.p = s.p := by
  unfold State.drawConnectRx; repeat (first | rfl | split)
@[simp] theorem State.drawConnectRx_q : s.drawConnectRx.2.q = s.q := by
  unfold State.drawConnectRx; repeat (first | rfl | split)
@[simp] theorem State.drawConnectRx_a : s.drawConnectRx.2.a = s.a := by
  unfold State.drawConnectRx; repeat (first | rfl | split)
@[simp] theorem State.drawConnectRx_c : s.drawConnectRx.2.c = s.c := by
  unfold State.drawConnectRx; repeat (first | rfl | split)
@[simp] theorem State.drawConnectRx_con : s.drawConnectRx.2.con = s.con := by
  unfold State.drawConnectRx; repeat (first | rfl | split)
@[simp] theorem State.drawConnectRx_clock : s.drawConnectRx.2.clock = s.clock := by
  unfold State.drawConnectRx; repeat (first | rfl | split)
@[simp] theorem State.drawConnectRx_reached : s.drawConnectRx.2.reached = s.reached := by
  unfold State.drawConnectRx; repeat (first | rfl | split)
@[simp] theorem State.drawConnectRx_inbox : s.drawConnectRx.2.inbox = s.inbox := by
  unfold State.drawConnectRx; repeat (first | rfl | split)
@[simp] theorem State.drawConnectRx_linkIn : s.drawConnectRx.2.linkIn = s.linkIn := by
  unfold State.drawConnectRx; repeat (first | rfl | split)
@[simp] theorem State.drawConnectRx_out : s.drawConnectRx.2.out = s.out := by
  unfold State.drawConnectRx; repeat (first | rfl | split)
@[simp] theorem State.drawConnectRx_result : s.drawConnectRx.2.result = s.result := by
  unfold State.drawConnectRx; repeat (first | rfl | split)
@[simp] theorem State.drawConnectRx_sched : s.drawConnectRx.2.env.sched = s.env.sched := by
  unfold State.drawConnectRx; repeat (first | rfl | split)

@[simp] theorem State.drawTxOk_param : s.drawTxOk.2.param = s.param := by
  unfold State.drawTxOk; repeat (first | rfl | split)
@[simp] theorem State.drawTxOk_t : s.drawTxOk.2.t = s.t := by
  unfold State.drawTxOk; repeat (first | rfl | split)
@[simp] theorem State.drawTxOk_p : s.drawTxOk.2.p = s.p := by
  unfold State.drawTxOk; repeat (first | rfl | split)
@[simp] theorem State.drawTxOk_q : s.drawTxOk.2.q = s.q := by
  unfold State.drawTxOk; repeat (first | rfl | split)
@[simp] theorem State.drawTxOk_a : s.drawTxOk.2.a = s.a := by
  unfold State.drawTxOk; repeat (first | rfl | split)
@[simp] theorem State.drawTxOk_c : s.drawTxOk.2.c = s.c := by
  unfold State.drawTxOk; repeat (first | rfl | split)
@[simp] theorem State.drawTxOk_con : s.drawTxOk.2.con = s.con := by
  unfold State.drawTxOk; repeat (first | rfl | split)
@[simp] theorem State.drawTxOk_clock : s.drawTxOk.2.clock = s.clock := by
  unfold State.drawTxOk; repeat (first | rfl | split)
@[simp] theorem State.drawTxOk_reached : s.drawTxOk.2.reached = s.reached := by
  unfold State.drawTxOk; repeat (first | rfl | split)
@[simp] theorem State.drawTxOk_inbox : s.drawTxOk.2.inbox = s.inbox := by
  unfold State.drawTxOk; repeat (first | rfl | split)
@[simp] theorem State.drawTxOk_linkIn : s.drawTxOk.2.linkIn = s.linkIn := by
  unfold State.drawTxOk; repeat (first | rfl | split)
@[simp] theorem State.drawTxOk_out : s.drawTxOk.2.out = s.out := by
  unfold State.drawTxOk; repeat (first | rfl | split)
@[simp] theorem State.drawTxOk_result : s.drawTxOk.2.result = s.result := by
  unfold State.drawTxOk; repeat (first | rfl | split)
@[simp] theorem State.drawTxOk_sched : s.drawTxOk.2.env.sched = s.env.sched := by
  unfold State.drawTxOk; repeat (first | rfl | split)

@[simp] theorem State.drawRx_param : s.drawRx.2.param = s.param := by
  unfold State.drawRx; repeat (first | rfl | split)
@[simp] theorem State.drawRx_t : s.drawRx.2.t = s.t := by
  unfold State.drawRx; repeat (first | rfl | split)
@[simp] theorem State.drawRx_p : s.drawRx.2.p = s.p := by
  unfold State.drawRx; repeat (first | rfl | split)
@[simp] theorem State.drawRx_q : s.drawRx.2.q = s.q := by
  unfold State.drawRx; repeat (first | rfl | split)
@[simp] theorem State.drawRx_a : s.drawRx.2.a = s.a := by
  unfold State.drawRx; repeat (first | rfl | split)
@[simp] theorem State.drawRx_c : s.drawRx.2.c = s.c := by
  unfold State.drawRx; repeat (first | rfl | split)
@[simp] theorem State.drawRx_con : s.drawRx.2.con = s.con := by
  unfold State.drawRx; repeat (first | rfl | split)
@[simp] theorem State.drawRx_clock : s.drawRx.2.clock = s.clock := by
  unfold State.drawRx; repeat (first | rfl | split)
@[simp] theorem State.drawRx_reached : s.drawRx.2.reached = s.reached := by
  unfold State.drawRx; repeat (first | rfl | split)
@[simp] theorem State.drawRx_inbox : s.drawRx.2.inbox = s.inbox := by
  unfold State.drawRx; repeat (first | rfl | split)
@[simp] theorem State.drawRx_linkIn : s.drawRx.2.linkIn = s.linkIn := by
  unfold State.drawRx; repeat (first | rfl | split)
@[simp] theorem State.drawRx_out : s.drawRx.2.out = s.out := by
  unfold State.drawRx; repeat (first | rfl | split)
@[simp] theorem State.drawRx_result : s.drawRx.2.result = s.result := by
  unfold State.drawRx; repeat (first | rfl | split)
@[simp] theorem State.drawRx_sched : s.drawRx.2.env.sched = s.env.sched := by
  unfold State.drawRx; repeat (first | rfl | split)

@[simp] theorem State.readAuxConnected_param : s.readAuxConnected.2.param = s.param := by
  unfold State.readAuxConnected; repeat (first | rfl | split)
@[simp] theorem State.readAuxConnected_t : s.readAuxConnected.2.t = s.t := by
  unfold State.readAuxConnected; repeat (first | rfl | split)
@[simp] theorem State.readAuxConnected_p : s.readAuxConnected.2.p = s.p := by
  unfold State.readAuxConnected; repeat (first | rfl | split)
@[simp] theorem State.readAuxConnected_q : s.readAuxConnected.2.q = s.q := by
  unfold State.readAuxConnected; repeat (first | rfl | split)
@[simp] theorem State.readAuxConnected_a : s.readAuxConnected.2.a = s.a := by
  unfold State.readAuxConnected; repeat (first | rfl | split)
@[simp] theorem State.readAuxConnected_c : s.readAuxConnected.2.c = s.c := by
  unfold State.readAuxConnected; repeat (first | rfl | split)
@[simp] theorem State.readAuxConnected_con : s.readAuxConnected.2.con = s.con := by
  unfold State.readAuxConnected; repeat (first | rfl | split)
@[simp] theorem State.readAuxConnected_clock : s.readAuxConnected.2.clock = s.clock := by
  unfold State.readAuxConnected; repeat (first | rfl | split)
@[simp] theorem State.readAuxConnected_reached : s.readAuxConnected.2.reached = s.reached := by
  unfold State.readAuxConnected; repeat (first | rfl | split)
@[simp] theorem State.readAuxConnected_inbox : s.readAuxConnected.2.inbox = s.inbox := by
  unfold State.readAuxConnected; repeat (first | rfl | split)
@[simp] theorem State.readAuxConnected_linkIn : s.readAuxConnected.2.linkIn = s.linkIn := by
  unfold State.readAuxConnected; repeat (first | rfl | split)
@[simp] theorem State.readAuxConnected_out : s.readAuxConnected.2.out = s.out := by
  unfold State.readAuxConnected; repeat (first | rfl | split)
@[simp] theorem State.readAuxConnected_result : s.readAuxConnected.2.result = s.result := by
  unfold State.readAuxConnected; repeat (first | rfl | split)
@[simp] theorem State.readAuxConnected_sched : s.readAuxConnected.2.env.sched = s.env.sched := by
  unfold State.readAuxConnected; repeat (first | rfl | split)

@[simp] theorem State.readAuxRunning_param : s.readAuxRunning.2.param = s.param := by
  unfold State.readAuxRunning; repeat (first | rfl | split)
@[simp] theorem State.readAuxRunning_t : s.readAuxRunning.2.t = s.t := by
  unfold State.readAuxRunning; repeat (first | rfl | split)
@[simp] theorem State.readAuxRunning_p : s.readAuxRunning.2.p = s.p := by
  unfold State.readAuxRunning; repeat (first | rfl | split)
@[simp] theorem State.readAuxRunning_q : s.readAuxRunning.2.q = s.q := by
  unfold State.readAuxRunning; repeat (first | rfl | split)
@[simp] theorem State.readAuxRunning_a : s.readAuxRunning.2.a = s.a := by
  unfold State.readAuxRunning; repeat (first | rfl | split)
@[simp] theorem State.readAuxRunning_c : s.readAuxRunning.2.c = s.c := by
  unfold State.readAuxRunning; repeat (first | rfl | split)
@[simp] theorem State.readAuxRunning_con : s.readAuxRunning.2.con = s.con := by
  unfold State.readAuxRunning; repeat (first | rfl | split)
@[simp] theorem State.readAuxRunning_clock : s.readAuxRunning.2.clock = s.clock := by
  unfold State.readAuxRunning; repeat (first | rfl | split)
@[simp] theorem State.readAuxRunning_reached : s.readAuxRunning.2.reached = s.reached := by
  unfold State.readAuxRunning; repeat (first | rfl | split)
@[simp] theorem State.readAuxRunning_inbox : s.readAuxRunning.2.inbox = s.inbox := by
  unfold State.readAuxRunning; repeat (first | rfl | split)
@[simp] theorem State.readAuxRunning_linkIn : s.readAuxRunning.2.linkIn = s.linkIn := by
  unfold State.readAuxRunning; repeat (first | rfl | split)
@[simp] theorem State.readAuxRunning_out : s.readAuxRunning.2.out = s.out := by
  unfold State.readAuxRunning; repeat (first | rfl | split)
@[simp] theorem State.readAuxRunning_result : s.readAuxRunning.2.result = s.result := by
  unfold State.readAuxRunning; repeat (first | rfl | split)
@[simp] theorem State.readAuxRunning_sched : s.readAuxRunning.2.env.sched = s.env.sched := by
  unfold State.readAuxRunning; repeat (first | rfl | split)

@[simp] theorem State.drawUserFwd_param : s.drawUserFwd.2.param = s.param := by
  unfold State.drawUserFwd; repeat (first | rfl | split)
@[simp] theorem State.drawUserFwd_t : s.drawUserFwd.2.t = s.t := by
  unfold State.drawUserFwd; repeat (first | rfl | split)
@[simp] theorem State.drawUserFwd_p : s.drawUserFwd.2.p = s.p := by
  unfold State.drawUserFwd; repeat (first | rfl | split)
@[simp] theorem State.drawUserFwd_q : s.drawUserFwd.2.q = s.q := by
  unfold State.drawUserFwd; repeat (first | rfl | split)
@[simp] theorem State.drawUserFwd_a : s.drawUserFwd.2.a = s.a := by
  unfold State.drawUserFwd; repeat (first | rfl | split)
@[simp] theorem State.drawUserFwd_c : s.drawUserFwd.2.c = s.c := by
  unfold State.drawUserFwd; repeat (first | rfl | split)
@[simp] theorem State.drawUserFwd_con : s.drawUserFwd.2.con = s.con := by
  unfold State.drawUserFwd; repeat (first | rfl | split)
@[simp] theorem State.drawUserFwd_clock : s.drawUserFwd.2.clock = s.clock := by
  unfold State.drawUserFwd; repeat (first | rfl | split)
@[simp] theorem State.drawUserFwd_reached : s.drawUserFwd.2.reached = s.reached := by
  unfold State.drawUserFwd; repeat (first | rfl | split)
@[simp] theorem State.drawUserFwd_inbox : s.drawUserFwd.2.inbox = s.inbox := by
  unfold State.drawUserFwd; repeat (first | rfl | split)
@[simp] theorem State.drawUserFwd_linkIn : s.drawUserFwd.2.linkIn = s.linkIn := by
  unfold State.drawUserFwd; repeat (first | rfl | split)
@[simp] theorem State.drawUserFwd_out : s.drawUserFwd.2.out = s.out := by
  unfold State.drawUserFwd; repeat (first | rfl | split)
@[simp] theorem State.drawUserFwd_result : s.drawUserFwd.2.result = s.result := by
  unfold State.drawUserFwd; repeat (first | rfl | split)
@[simp] theorem State.drawUserFwd_sched : s.drawUserFwd.2.env.sched = s.env.sched := by
  unfold State.drawUserFwd; repeat (first | rfl | split)

@[simp] theorem State.drawTick_param : s.drawTick.2.param = s.param := by
  unfold State.drawTick; repeat (first | rfl | split)
@[simp] theorem State.drawTick_t : s.drawTick.2.t = s.t := by
  unfold State.drawTick; repeat (first | rfl | split)
@[simp] theorem State.drawTick_p : s.drawTick.2.p = s.p := by
  unfold State.drawTick; repeat (first | rfl | split)
@[simp] theorem State.drawTick_q : s.drawTick.2.q = s.q := by
  unfold State.drawTick; repeat (first | rfl | split)
@[simp] theorem State.drawTick_a : s.drawTick.2.a = s.a := by
  unfold State.drawTick; repeat (first | rfl | split)
@[simp] theorem State.drawTick_c : s.drawTick.2.c = s.c := by
  unfold State.drawTick; repeat (first | rfl | split)
@[simp] theorem State.drawTick_con : s.drawTick.2.con = s.con := by
  unfold State.drawTick; repeat (first | rfl | split)
@[simp] theorem State.drawTick_clock : s.drawTick.2.clock = s.clock := by
  unfold State.drawTick; repeat (first | rfl | split)
@[simp] theorem State.drawTick_reached : s.drawTick.2.reached = s.reached := by
  unfold State.drawTick; repeat (first | rfl | split)
@[simp] theorem State.drawTick_inbox : s.drawTick.2.inbox = s.inbox := by
  unfold State.drawTick; repeat (first | rfl | split)
@[simp] theorem State.drawTick_linkIn : s.drawTick.2.linkIn = s.linkIn := by
  unfold State.drawTick; repeat (first | rfl | split)
@[simp] theorem State.drawTick_out : s.drawTick.2.out = s.out := by
  unfold State.drawTick; repeat (first | rfl | split)
@[simp] theorem State.drawTick_result : s.drawTick.2.result = s.result := by
  unfold State.drawTick; repeat (first | rfl | split)
@[simp] theorem State.drawTick_sched : s.drawTick.2.env.sched = s.env.sched := by
  unfold State.drawTick; repeat (first | rfl | split)

/-! ### Reading the time input: the clock moves on, and the environment -/

@[simp] theorem State.readNow_param : s.readNow.param = s.param := by
  simp [State.readNow]
@[simp] theorem State.readNow_t : s.readNow.t = s.t := by
  simp [State.readNow]
@[simp] theorem State.readNow_p : s.readNow.p = s.p := by
  simp [State.readNow]
@[simp] theorem State.readNow_q : s.readNow.q = s.q := by
  simp [State.readNow]
@[simp] theorem State.readNow_a : s.readNow.a = s.a := by
  simp [State.readNow]
@[simp] theorem State.readNow_c : s.readNow.c = s.c := by
  simp [State.readNow]
@[simp] theorem State.readNow_con : s.readNow.con = s.con := by
  simp [State.readNow]
@[simp] theorem State.readNow_inbox : s.readNow.inbox = s.inbox := by
  simp [State.readNow]
@[simp] theorem State.readNow_linkIn : s.readNow.linkIn = s.linkIn := by
  simp [State.readNow]
@[simp] theorem State.readNow_out : s.readNow.out = s.out := by
  simp [State.readNow]
@[simp] theorem State.readNow_result : s.readNow.result = s.result := by
  simp [State.readNow]
@[simp] theorem State.readNow_sched : s.readNow.env.sched = s.env.sched := by
  simp [State.readNow]

@[simp] theorem State.readNow_reached : s.readNow.reached = s.readNow.clock := rfl

/-- The time input does not go back (R392). -/
theorem State.clock_le_readNow : s.clock ≤ s.readNow.clock := by
  simp [State.readNow]

/-- No reading is earlier than the waits before it allow (R12). -/
theorem State.reached_le_readNow : s.reached ≤ s.readNow.clock := le_max_right _ _

/-! ### A write's log line -/

@[simp] theorem State.logWrite_param (r : Req) (ok : Bool) : (s.logWrite r ok).param = s.param := by
  cases r <;> rfl
@[simp] theorem State.logWrite_t (r : Req) (ok : Bool) : (s.logWrite r ok).t = s.t := by
  cases r <;> rfl
@[simp] theorem State.logWrite_p (r : Req) (ok : Bool) : (s.logWrite r ok).p = s.p := by
  cases r <;> rfl
@[simp] theorem State.logWrite_q (r : Req) (ok : Bool) : (s.logWrite r ok).q = s.q := by
  cases r <;> rfl
@[simp] theorem State.logWrite_a (r : Req) (ok : Bool) : (s.logWrite r ok).a = s.a := by
  cases r <;> rfl
@[simp] theorem State.logWrite_c (r : Req) (ok : Bool) : (s.logWrite r ok).c = s.c := by
  cases r <;> rfl
@[simp] theorem State.logWrite_con (r : Req) (ok : Bool) : (s.logWrite r ok).con = s.con := by
  cases r <;> rfl
@[simp] theorem State.logWrite_clock (r : Req) (ok : Bool) : (s.logWrite r ok).clock = s.clock := by
  cases r <;> rfl
@[simp] theorem State.logWrite_reached (r : Req) (ok : Bool) : (s.logWrite r ok).reached = s.reached := by
  cases r <;> rfl
@[simp] theorem State.logWrite_inbox (r : Req) (ok : Bool) : (s.logWrite r ok).inbox = s.inbox := by
  cases r <;> rfl
@[simp] theorem State.logWrite_linkIn (r : Req) (ok : Bool) : (s.logWrite r ok).linkIn = s.linkIn := by
  cases r <;> rfl
@[simp] theorem State.logWrite_env (r : Req) (ok : Bool) : (s.logWrite r ok).env = s.env := by
  cases r <;> rfl
@[simp] theorem State.logWrite_result (r : Req) (ok : Bool) : (s.logWrite r ok).result = s.result := by
  cases r <;> rfl

end Sys2Proof.Machine
end

