-- ==== Sys2Proof/Laws/Link.lean ====
section
/-! SUPPORT. What link activity can do to the state: one frame, kept by every step of a transaction, by a whole
transaction, by an action and by all that a decode step puts out. -/

namespace Sys2Proof.Machine

/-- What the work of the link leaves alone: everything but the lock, the receive buffer, the environment's inputs, the
time reached and the outputs (which only grow), and the last result. -/
structure LinkFrame (s s' : State) : Prop where
  param     : s'.param = s.param
  connected : s'.t.connected = s.t.connected
  deviceId  : s'.t.deviceId = s.t.deviceId
  portCfg   : s'.t.portCfg = s.t.portCfg
  p         : s'.p = s.p
  q         : s'.q = s.q
  a         : s'.a = s.a
  c         : s'.c = s.c
  con       : s'.con = s.con
  clock     : s'.clock = s.clock
  reached   : s.reached ≤ s'.reached
  inbox     : s'.inbox = s.inbox
  linkIn    : s'.linkIn = s.linkIn
  out       : s.out <+: s'.out

theorem LinkFrame.refl (s : State) : LinkFrame s s := by
  constructor <;> rfl

theorem LinkFrame.trans {s s' s'' : State} (h : LinkFrame s s') (k : LinkFrame s' s'') : LinkFrame s s'' := by
  constructor
  case out => exact h.out.trans k.out
  case reached => exact h.reached.trans k.reached
  all_goals first
    | exact k.param.trans h.param | exact k.connected.trans h.connected | exact k.deviceId.trans h.deviceId
    | exact k.portCfg.trans h.portCfg | exact k.p.trans h.p | exact k.q.trans h.q | exact k.a.trans h.a
    | exact k.c.trans h.c | exact k.con.trans h.con | exact k.clock.trans h.clock | exact k.inbox.trans h.inbox
    | exact k.linkIn.trans h.linkIn

/-- What a step of a transaction answers, as a property of the states it answers. -/
def XStep.All (P : State → Prop) : XStep → Prop
  | .wait => True
  | .more _ s => P s
  | .done _ s => P s

theorem sendRequest_frame (g : Agent) (x : Xact) (s : State) : (sendRequest g x s).All (LinkFrame s) := by
  unfold sendRequest
  split
  · dsimp only
    split <;> (constructor <;> simp)
  · constructor <;> simp

theorem receiveReply_frame (g : Agent) (x : Xact) (late : Time) (s : State) : (receiveReply g x late s).All (LinkFrame s) := by
  unfold receiveReply
  dsimp only
  split
  · cases x.req <;> (constructor <;> simp)
  · split <;> cases x.req <;> (constructor <;> simp)

theorem xactStep_frame (g : Agent) (x : Xact) (s : State) : (xactStep g x s).All (LinkFrame s) := by
  unfold xactStep
  split
  · split
    · constructor <;> simp
    · trivial
  · exact sendRequest_frame g x s
  · constructor <;> simp
  · exact receiveReply_frame g x _ s

/-- A turn of the consumer used up changes the schedule alone. -/
theorem proceed_frame {s s' : State} (h : s.proceed = some s') : LinkFrame s s' := by
  unfold State.proceed at h
  split at h
  · cases h; exact .refl s
  · cases h; constructor <;> simp
  · cases h

theorem XStep.All.imp {P Q : State → Prop} (hPQ : ∀ s, P s → Q s) {r : XStep} (h : r.All P) : r.All Q := by
  cases r with
  | wait => trivial
  | more x s => exact hPQ s h
  | done v s => exact hPQ s h

theorem runXactN_frame (n : Nat) (x : Xact) (s : State) : (runXactN n x s).All (LinkFrame s) := by
  induction n generalizing x s with
  | zero => exact .refl s
  | succ n ih =>
    have h := xactStep_frame .consumer x s
    unfold runXactN
    split
    next => trivial
    next v s' e => rw [e] at h; exact h
    next x' s' e =>
      rw [e] at h
      split
      next s'' e' => exact (ih x' s'').imp fun _ k => (LinkFrame.trans h (proceed_frame e')).trans k
      next => exact h

theorem runXact_frame (x : Xact) (s : State) : (runXact x s).All (LinkFrame s) := runXactN_frame 4 x s

theorem actionWrites_frame (act : Action) (s : State) : LinkFrame s (actionWrites act s).2 := by
  cases act <;> first | exact .refl s | (constructor <;> simp [actionWrites])

theorem runWrites_frame (act : Action) (l : List Write) (ok : Bool) (s : State) :
    LinkFrame s (runWrites act l ok s).1 := by
  induction l generalizing ok s with
  | nil => constructor <;> simp [runWrites]
  | cons w rest ih =>
    unfold runWrites
    simp only
    split
    next => exact .refl s
    next s1 e =>
      have h1 := proceed_frame e
      have h2 := runXact_frame (writeXact s.t.deviceId w.1 w.2) s1
      split
      next => exact h1
      next x' s2 e2 => rw [e2] at h2; exact h1.trans h2
      next v s2 e2 => rw [e2] at h2; exact (h1.trans h2).trans (ih _ s2)

theorem runEmission_frame (e : Emission) (s : State) : LinkFrame s (runEmission e s).1 := by
  cases e with
  | act act => exact (actionWrites_frame act s).trans (runWrites_frame act _ true _)
  | flowOpen => constructor <;> simp [runEmission]
  | flowStart => constructor <;> simp [runEmission]
  | auxStart => constructor <;> simp [runEmission]
  | auxEnd => constructor <;> simp [runEmission]
  | logPurgeStart => constructor <;> simp [runEmission]

theorem afterPiece_frame {s : State} {r : State × List Work} {rest : List Work} {next : State → State × List Work}
    (h : LinkFrame s r.1) (hn : ∀ s', LinkFrame s' (next s').1) : LinkFrame s (afterPiece r rest next).1 := by
  unfold afterPiece
  split
  · split
    next s' e => exact (h.trans (proceed_frame e)).trans (hn s')
    next => exact h
  · exact h

theorem runEmissions_frame (l : List Emission) (s : State) : LinkFrame s (runEmissions l s).1 := by
  induction l generalizing s with
  | nil => exact .refl s
  | cons e rest ih => exact afterPiece_frame (runEmission_frame e s) ih

theorem verifyResult_frame (v : Option Value) (s : State) : LinkFrame s (verifyResult v s) := by
  unfold verifyResult
  split
  · split <;> (constructor <;> simp)
  · constructor <;> simp

theorem afterXact_frame (k : After) (v : Option Value) (s : State) : LinkFrame s (afterXact k v s).1 := by
  cases k with
  | read => constructor <;> simp [afterXact]
  | write => constructor <;> simp [afterXact]
  | verify => exact verifyResult_frame v s
  | emit act rest ok => exact runWrites_frame act rest _ s

/-- Work that only moves the link and makes outputs: transactions, emissions and results. -/
def Work.linkOnly : Work → Bool
  | .xact _ _ => true
  | .emission _ => true
  | .done _ => true
  | .samples _ => false
  | .drain _ => false
  | .connect _ => false
  | .disconnect => false
  | .posture => false
  | .join _ => false

theorem runItem_frame (w : Work) (hw : w.linkOnly = true) (s : State) : LinkFrame s (runItem w s).1 := by
  cases w with
  | xact x k =>
    have h := runXact_frame x s
    unfold runItem
    simp only
    split
    next => exact .refl s
    next x' s' e => rw [e] at h; exact h
    next v s' e => rw [e] at h; exact LinkFrame.trans h (afterXact_frame k v s')
  | emission e => exact runEmission_frame e s
  | done r => constructor <;> simp [runItem]
  | samples l => cases hw
  | drain js => cases hw
  | connect cfg => cases hw
  | disconnect => cases hw
  | posture => cases hw
  | join wake => cases hw

theorem LinkFrame.toWork {s s' : State} (h : LinkFrame s s') : WorkFrame s s' :=
  ⟨h.param, h.connected, h.deviceId, h.portCfg, h.p, h.q, h.a, h.c, by rw [h.con], h.clock, h.reached, h.inbox, h.linkIn, h.out⟩

theorem WorkFrame.trans {s s' s'' : State} (h : WorkFrame s s') (k : WorkFrame s' s'') : WorkFrame s s'' := by
  constructor
  case out => exact h.out.trans k.out
  case reached => exact h.reached.trans k.reached
  all_goals first
    | exact k.param.trans h.param | exact k.connected.trans h.connected | exact k.deviceId.trans h.deviceId
    | exact k.portCfg.trans h.portCfg | exact k.p.trans h.p | exact k.q.trans h.q | exact k.a.trans h.a
    | exact k.c.trans h.c | exact k.drained.trans h.drained | exact k.clock.trans h.clock
    | exact k.inbox.trans h.inbox | exact k.linkIn.trans h.linkIn

theorem leave_frame (ws : List Work) (s : State) : WorkFrame s (s.leave ws) := by
  constructor <;> simp

/-- A command whose work is the link's keeps everything but the link, at every schedule: interrupted or not. -/
theorem runWork_frame (ws : List Work) (hws : ∀ w ∈ ws, w.linkOnly = true) (s : State) :
    WorkFrame s (runWork ws s) := by
  induction ws generalizing s with
  | nil => exact (LinkFrame.refl s).toWork
  | cons w ws ih =>
    have h := (runItem_frame w (hws w List.mem_cons_self) s).toWork
    have ih' := ih fun w hw => hws w (List.mem_cons_of_mem _ hw)
    unfold runWork
    split
    next s1 l ls e => rw [e] at h; exact h.trans (leave_frame _ s1)
    next s1 e =>
      rw [e] at h
      split
      · exact h
      · split
        next s2 e2 => exact (h.trans (proceed_frame e2).toWork).trans (ih' s2)
        next => exact h.trans (leave_frame _ s1)

end Sys2Proof.Machine
end

