-- ==== Sys2Proof/Laws/Consumer.lean ====
section
/-! SUPPORT. What any work of the consumer leaves alone: the parameters, the device id, all of P, all of C, what waits
at the ports; neither the time input nor the time reached goes back, and the outputs only grow. -/

namespace Sys2Proof.Machine

/-- Kept by every piece of the consumer's work. -/
structure BaseFrame (s s' : State) : Prop where
  param    : s'.param = s.param
  deviceId : s'.t.deviceId = s.t.deviceId
  p        : s'.p = s.p
  c        : s'.c = s.c
  todo     : s'.con.todo = s.con.todo
  inbox    : s'.inbox = s.inbox
  linkIn   : s'.linkIn = s.linkIn
  clock    : s.clock ≤ s'.clock
  reached  : s.reached ≤ s'.reached
  out      : s.out <+: s'.out

theorem BaseFrame.refl (s : State) : BaseFrame s s := by
  constructor <;> rfl

theorem BaseFrame.trans {s s' s'' : State} (h : BaseFrame s s') (k : BaseFrame s' s'') : BaseFrame s s'' := by
  constructor
  case out => exact h.out.trans k.out
  case clock => exact le_trans h.clock k.clock
  case reached => exact le_trans h.reached k.reached
  all_goals first
    | exact k.param.trans h.param | exact k.deviceId.trans h.deviceId | exact k.p.trans h.p | exact k.c.trans h.c
    | exact k.todo.trans h.todo | exact k.inbox.trans h.inbox | exact k.linkIn.trans h.linkIn

theorem LinkFrame.toBase {s s' : State} (h : LinkFrame s s') : BaseFrame s s' :=
  ⟨h.param, h.deviceId, h.p, h.c, by rw [h.con], h.inbox, h.linkIn, le_of_eq h.clock.symm, h.reached, h.out⟩

/-- An update of A, Q, the environment or the samples collected. -/
theorem BaseFrame.of_eq {s s' : State} (h1 : s'.param = s.param) (h2 : s'.t = s.t) (h3 : s'.p = s.p) (h4 : s'.c = s.c)
    (h5 : s'.con.todo = s.con.todo) (h6 : s'.inbox = s.inbox) (h7 : s'.linkIn = s.linkIn) (h8 : s.clock ≤ s'.clock)
    (h9 : s.reached ≤ s'.reached) (h10 : s'.out = s.out) : BaseFrame s s' :=
  ⟨h1, by rw [h2], h3, h4, h5, h6, h7, h8, h9, by rw [h10]⟩

theorem applySample_base (e : Sample) (s : State) : BaseFrame s (applySample e s).1 := by
  unfold applySample State.decodeNow
  dsimp only
  apply BaseFrame.of_eq
  case h8 =>
    split <;> split <;> split <;> first | exact le_refl _ | exact State.clock_le_readNow _
  case h9 =>
    split <;> split <;> split <;> first | exact le_refl _ | exact State.reached_le_readNow _
  all_goals (split <;> split <;> split <;> simp)

theorem afterPiece_base {s : State} {r : State × List Work} {rest : List Work} {next : State → State × List Work}
    (h : BaseFrame s r.1) (hn : ∀ s', BaseFrame s' (next s').1) : BaseFrame s (afterPiece r rest next).1 := by
  unfold afterPiece
  split
  · split
    next s' e => exact (h.trans (proceed_frame e).toBase).trans (hn s')
    next => exact h
  · exact h

theorem runSamples_base (l : List Sample) (s : State) : BaseFrame s (runSamples l s).1 := by
  induction l generalizing s with
  | nil => exact .refl s
  | cons e rest ih =>
    exact afterPiece_base (afterPiece_base (applySample_base e s) fun s' => (runEmissions_frame _ s').toBase) ih

theorem clearQueue_base (j : Nat) (s : State) : BaseFrame s (s.clearQueue j) := by
  constructor <;> simp

theorem runDrain_base (js : List Nat) (s : State) : BaseFrame s (runDrain js s).1 := by
  induction js generalizing s with
  | nil => constructor <;> simp [runDrain]
  | cons j js ih =>
    exact afterPiece_base (afterPiece_base (clearQueue_base j s) (runSamples_base (s.queue j))) ih

theorem connectNow_base (cfg : PortCfg) (s : State) : BaseFrame s (connectNow cfg s) := by
  unfold connectNow
  dsimp only
  split
  · constructor <;> simp
  · split <;> (constructor <;> simp)

theorem runItem_base (w : Work) (s : State) : BaseFrame s (runItem w s).1 := by
  cases w with
  | xact x k => exact (runItem_frame _ rfl s).toBase
  | emission e => exact (runItem_frame _ rfl s).toBase
  | samples l => exact runSamples_base l s
  | drain js => exact runDrain_base js s
  | connect cfg =>
    unfold runItem
    dsimp only
    split
    · exact connectNow_base cfg s
    · exact .refl s
  | disconnect =>
    unfold runItem
    dsimp only
    split
    · constructor <;> simp [disconnectNow]
    · exact .refl s
  | posture => constructor <;> simp [runItem, posture]
  | join wake =>
    unfold runItem
    dsimp only
    split <;> exact .refl s
  | done r => exact (runItem_frame _ rfl s).toBase

/-- Kept by the consumer's work as a whole; what it leaves to do stands before what was there. -/
structure RunFrame (s s' : State) : Prop where
  param    : s'.param = s.param
  deviceId : s'.t.deviceId = s.t.deviceId
  p        : s'.p = s.p
  c        : s'.c = s.c
  inbox    : s'.inbox = s.inbox
  linkIn   : s'.linkIn = s.linkIn
  clock    : s.clock ≤ s'.clock
  reached  : s.reached ≤ s'.reached
  out      : s.out <+: s'.out
  todo     : ∃ ws, s'.con.todo = ws ++ s.con.todo

theorem BaseFrame.run {s s' s'' : State} (h : BaseFrame s s') (k : RunFrame s' s'') : RunFrame s s'' where
  param := k.param.trans h.param
  deviceId := k.deviceId.trans h.deviceId
  p := k.p.trans h.p
  c := k.c.trans h.c
  inbox := k.inbox.trans h.inbox
  linkIn := k.linkIn.trans h.linkIn
  clock := le_trans h.clock k.clock
  reached := le_trans h.reached k.reached
  out := h.out.trans k.out
  todo := by rw [← h.todo]; exact k.todo

theorem leave_run (ws : List Work) (s : State) : RunFrame s (s.leave ws) := by
  constructor
  case todo => exact ⟨ws, rfl⟩
  all_goals simp

theorem RunFrame.refl (s : State) : RunFrame s s := by
  constructor
  case todo => exact ⟨[], rfl⟩
  all_goals rfl

/-- All the consumer's work can do, at every schedule. -/
theorem runWork_run (ws : List Work) (s : State) : RunFrame s (runWork ws s) := by
  induction ws generalizing s with
  | nil => exact .refl s
  | cons w ws ih =>
    have h := runItem_base w s
    unfold runWork
    split
    next s1 l ls e => rw [e] at h; exact h.run (leave_run _ s1)
    next s1 e =>
      rw [e] at h
      split
      · exact h.run (.refl s1)
      · split
        next s2 e2 => exact (h.trans (proceed_frame e2).toBase).run (ih s2)
        next => exact h.run (leave_run _ s1)

end Sys2Proof.Machine
end

