-- ==== Sys2Proof/Laws/Decode.lean ====
section
/-! SUPPORT. Each operand reader takes back what its writer put there, and leaves the bytes after it. -/

namespace Sys2Proof

theorem takeNat_putNatF (fuel n : Nat) (r : List Byte) (h : n ≤ fuel) : takeNat (putNatF fuel n ++ r) = some (n, r) := by
  induction fuel generalizing n with
  | zero =>
    obtain rfl : n = 0 := by omega
    rfl
  | succ fuel ih =>
    unfold putNatF
    split
    next h' =>
      have e : (BitVec.ofNat 8 n).toNat = n := by rw [BitVec.toNat_ofNat]; omega
      simp [takeNat, e, h']
    next h' =>
      have e : (BitVec.ofNat 8 (128 + n % 128)).toNat = 128 + n % 128 := by rw [BitVec.toNat_ofNat]; omega
      simp only [List.cons_append, takeNat, e, ih (n / 128) (by omega)]
      rw [if_neg (by omega)]
      simp only [Option.some.injEq, Prod.mk.injEq, and_true]
      omega

@[simp] theorem takeNat_putNat (n : Nat) (r : List Byte) : takeNat (putNat n ++ r) = some (n, r) :=
  takeNat_putNatF n n r le_rfl

@[simp] theorem takeBits_putBits {w : Nat} (v : BitVec w) (r : List Byte) :
    takeBits w (putBits v ++ r) = some (v, r) := by
  simp [takeBits, putBits, v.isLt]

@[simp] theorem takeBool_putBool (b : Bool) (r : List Byte) : takeBool (putBool b ++ r) = some (b, r) := by
  cases b <;> simp [takeBool, putBool]

theorem takeMany_flatMap {α : Type} (item : List Byte → Option (α × List Byte)) (put : α → List Byte)
    (h : ∀ a r, item (put a ++ r) = some (a, r)) (l : List α) (r : List Byte) :
    takeMany item l.length (l.flatMap put ++ r) = some (l, r) := by
  induction l with
  | nil => rfl
  | cons a l ih => simp [takeMany, h, ih]

theorem takeList_putList {α : Type} (item : List Byte → Option (α × List Byte)) (put : α → List Byte)
    (h : ∀ a r, item (put a ++ r) = some (a, r)) (l : List α) (r : List Byte) :
    takeList item (putList put l ++ r) = some (l, r) := by
  simp [takeList, putList, takeMany_flatMap item put h]

@[simp] theorem takeList_bits {w : Nat} (l : List (BitVec w)) (r : List Byte) :
    takeList (takeBits w) (putList putBits l ++ r) = some (l, r) :=
  takeList_putList _ _ takeBits_putBits l r

@[simp] theorem takeRat_putRat (v : Rat) (r : List Byte) : takeRat (putRat v ++ r) = some (v, r) := by
  have hd : v.den - 1 + 1 = v.den := Nat.sub_add_cancel v.den_pos
  have hn : (if decide (v < 0) then -(v.num.natAbs : Int) else (v.num.natAbs : Int)) = v.num := by
    rcases lt_or_ge v 0 with h | h
    · have : v.num < 0 := Rat.num_neg.2 h
      rw [if_pos (by simpa using h)]; omega
    · have : 0 ≤ v.num := Rat.num_nonneg.2 h
      rw [if_neg (by simpa using h)]; omega
  simp only [takeRat, putRat, List.append_assoc, takeBool_putBool, takeNat_putNat, hd, hn, Rat.mkRat_self]

theorem takePosRat_putPosRat (v : Rat) (h : 0 < v) (r : List Byte) : takePosRat (putPosRat v ++ r) = some (v, r) := by
  have hd : v.den - 1 + 1 = v.den := Nat.sub_add_cancel v.den_pos
  have hp : 0 < v.num := Rat.num_pos.2 h
  have hn : ((v.num.natAbs - 1 : Nat) : Int) + 1 = v.num := by omega
  simp only [takePosRat, putPosRat, List.append_assoc, takeNat_putNat, hd, hn, Rat.mkRat_self]

@[simp] theorem takeData_putBits (v : Value) (r : List Byte) : takeData (putBits v ++ r) = some (v, r) := by
  rw [← takeBits_putBits v r]
  cases h : putBits v ++ r with
  | nil =>
    have := takeBits_putBits v r
    rw [h] at this
    cases this
  | cons b l => rfl

@[simp] theorem takeBaud_putBaud (n : Nat) (r : List Byte) : takeBaud (putBaud n ++ r) = some (n, r) := by
  simp [takeBaud, putBaud]

@[simp] theorem takeMotor_putMotor (m : Motor) (r : List Byte) : takeMotor (putMotor m ++ r) = some (m, r) := by
  cases m <;> simp [takeMotor, putMotor]

@[simp] theorem takeField_putField (f : CfgField) (r : List Byte) : takeField (putField f ++ r) = some (f, r) := by
  cases f <;> simp [takeField, putField]

@[simp] theorem mapOperand_some {α β : Type} (f : α → β) (a : α) (r : List Byte) :
    mapOperand f (some (a, r)) = some (f a, r) := rfl

@[simp] theorem andThen_some {α β γ : Type} (a : α) (r : List Byte) (next : List Byte → Option (β × List Byte))
    (f : α → β → γ) : andThen (some (a, r)) next f = mapOperand (f a) (next r) := rfl

/-- What the host port makes of an opcode whose operands are read. -/
theorem decodeHost_of_read {op : Byte} {l r : List Byte} {i : Instr} {read : List Byte → Option (Instr × List Byte)}
    (h : operandsOf op = some read) (hr : read l = some (i, r)) (hp : isPadding r = true) (hw : i.wf = true) :
    decodeHost (op :: l) = .ok i := by
  simp [decodeHost, h, hr, hp, hw]

end Sys2Proof
end

