-- ==== Sys2Proof/Laws/Lock.lean ====
section
/-! SUPPORT. The lock and the link's traffic: what a step of a transaction, and a piece of the consumer's work, does to
`LinkOk`. -/

namespace Sys2Proof.Machine

/-! ### Reading traffic -/

theorem linkFold_none (l : List Event) : l.foldl (fun o e => o.bind (linkEvent e)) none = none := by
  induction l with
  | nil => rfl
  | cons e l ih => exact ih

theorem linkTrace_append (l es : List Event) : linkTrace (l ++ es) = (linkTrace l).bind fun ph => linkTraceFrom ph es := by
  unfold linkTrace linkTraceFrom
  rw [List.foldl_append]
  cases l.foldl (fun o e => o.bind (linkEvent e)) (some .idle) with
  | none => exact linkFold_none es
  | some ph => rfl

/-- An event that says nothing of the link. -/
def Event.offLink : Event → Bool
  | .flush _ => false
  | .tx _ _ => false
  | .txFailed _ _ => false
  | .rx _ _ _ => false
  | .rxFailed _ => false
  | _ => true

theorem linkTraceFrom_offLink (ph : LinkPhase) {es : List Event} (h : ∀ e ∈ es, e.offLink = true) :
    linkTraceFrom ph es = some ph := by
  unfold linkTraceFrom
  induction es with
  | nil => rfl
  | cons e es ih =>
    have h1 : linkEvent e ph = some ph := by
      have := h e List.mem_cons_self
      cases e <;> first | rfl | cases this
    simp only [List.foldl_cons, Option.bind_some, h1]
    exact ih fun e he => h e (List.mem_cons_of_mem _ he)

theorem linkTrace_offLink (l : List Event) {es : List Event} (h : ∀ e ∈ es, e.offLink = true) :
    linkTrace (l ++ es) = linkTrace l := by
  rw [linkTrace_append]
  cases linkTrace l with
  | none => rfl
  | some ph => exact linkTraceFrom_offLink ph h

/-! ### A step of a transaction -/

/-- `LinkOk` seen from one agent: the step its own transaction is at, and the other's. -/
def LinkFor (g : Agent) (lock : Option Agent) (own other : Option XPhase) (trace : Option LinkPhase) : Prop :=
  match g with
  | .consumer => LinkOk lock own other trace
  | .poller => LinkOk lock other own trace

theorem linkFor_some {g : Agent} {lock : Option Agent} {ph : XPhase} {other : Option XPhase} {tr : Option LinkPhase} :
    LinkFor g lock (some ph) other tr ↔ other = none ∧ lock = some g ∧ tr = some (phaseOn g ph) := by
  cases g <;> cases other <;> simp [LinkFor, LinkOk]

theorem linkFor_none_none {g : Agent} {lock : Option Agent} {tr : Option LinkPhase} :
    LinkFor g lock none none tr ↔ lock = none ∧ tr = some .idle := by
  cases g <;> simp [LinkFor, LinkOk]

theorem linkFor_free {g : Agent} {other : Option XPhase} {tr : Option LinkPhase}
    (h : LinkFor g none none other tr) : other = none ∧ tr = some .idle := by
  cases g <;> cases other <;> simp_all [LinkFor, LinkOk]

/-- What a step of a transaction leaves of the lock and the traffic. -/
def XStep.LinkAll (g : Agent) (other : Option XPhase) : XStep → Prop
  | .wait => True
  | .more x s => x.flight.isSome ∧ LinkFor g s.t.lock x.flight other (linkTrace s.out)
  | .done _ s => LinkFor g s.t.lock none other (linkTrace s.out)

theorem logWrite_trace (r : Req) (ok : Bool) (s : State) : linkTrace (s.logWrite r ok).out = linkTrace s.out := by
  cases r with
  | read a => rfl
  | write a v => exact linkTrace_offLink _ (by simp [Event.offLink])

theorem xactStep_link (g : Agent) (x : Xact) (s : State) (other : Option XPhase)
    (h : LinkFor g s.t.lock x.flight other (linkTrace s.out)) : (xactStep g x s).LinkAll g other := by
  obtain ⟨req, frame, phase⟩ := x
  cases phase with
  | acquire =>
    unfold xactStep
    dsimp only
    split
    next hl =>
      rw [hl] at h
      obtain ⟨h1, h2⟩ := linkFor_free h
      exact ⟨rfl, linkFor_some.2 ⟨h1, rfl, h2⟩⟩
    next => trivial
  | send =>
    obtain ⟨h1, h2, h3⟩ := linkFor_some.1 h
    subst h1
    unfold xactStep sendRequest
    dsimp only
    split
    · split
      · refine ⟨rfl, linkFor_some.2 ⟨rfl, by simpa using h2, ?_⟩⟩
        simp [linkTrace_append, h3, linkTraceFrom, linkEvent, phaseOn]
      · refine linkFor_none_none.2 ⟨by simp, ?_⟩
        simp [linkTrace_append, h3, linkTraceFrom, linkEvent, phaseOn]
    · refine linkFor_none_none.2 ⟨by simp, ?_⟩
      simp [linkTrace_append, h3, linkTraceFrom, linkEvent, phaseOn]
  | settle wake =>
    obtain ⟨h1, h2, h3⟩ := linkFor_some.1 h
    subst h1
    refine ⟨rfl, linkFor_some.2 ⟨rfl, by simpa [xactStep] using h2, ?_⟩⟩
    simp [linkTrace_append, h3, linkTraceFrom, linkEvent, phaseOn]
  | receive late =>
    obtain ⟨h1, h2, h3⟩ := linkFor_some.1 h
    subst h1
    unfold xactStep receiveReply
    dsimp only
    split
    · refine linkFor_none_none.2 ⟨by simp, ?_⟩
      rw [logWrite_trace]
      simp [linkTrace_append, h3, linkTraceFrom, linkEvent, phaseOn]
    · refine linkFor_none_none.2 ⟨?_, ?_⟩
      · split <;> simp
      · rw [logWrite_trace]
        split <;> simp [linkTrace_append, h3, linkTraceFrom, linkEvent, phaseOn]

/-! ### The consumer's pieces of work -/

/-- The link is in order while the consumer is at work `ws` that it has still to do, first piece first. -/
def WorkLink (ws : List Work) (s : State) : Prop :=
  LinkOk s.t.lock (flightOf ws) s.p.io.flight (linkTrace s.out) ∧ tailQuiet ws

/-- No piece is inside a transaction. -/
def allQuiet (ws : List Work) : Prop := ∀ w ∈ ws, flightOf [w] = none

theorem allQuiet.tail {ws : List Work} (h : allQuiet ws) : tailQuiet ws :=
  fun w hw => h w (List.mem_of_mem_tail hw)

theorem allQuiet.flight {ws : List Work} (h : allQuiet ws) : flightOf ws = none := by
  cases ws with
  | nil => rfl
  | cons w ws =>
    have := h w List.mem_cons_self
    cases w <;> exact this

theorem flightOf_append {ws : List Work} (l : List Work) (h : ws ≠ []) : flightOf (ws ++ l) = flightOf ws := by
  cases ws with
  | nil => exact absurd rfl h
  | cons w ws => cases w <;> rfl

theorem WorkLink.append {ws l : List Work} {s : State} (h : WorkLink ws s) (hw : ws ≠ []) (hl : allQuiet l) :
    WorkLink (ws ++ l) s := by
  refine ⟨by rw [flightOf_append l hw]; exact h.1, ?_⟩
  intro w hw'
  rw [List.tail_append_of_ne_nil hw] at hw'
  rcases List.mem_append.1 hw' with h1 | h1
  · exact h.2 w h1
  · exact hl w h1

theorem proceed_link {s s' : State} (h : s.proceed = some s') : s'.t.lock = s.t.lock := by
  unfold State.proceed at h
  split at h
  · cases h; rfl
  · cases h; rfl
  · cases h

theorem proceed_out {s s' : State} (h : s.proceed = some s') : s'.out = s.out := by
  unfold State.proceed at h
  split at h
  · cases h; rfl
  · cases h; rfl
  · cases h

/-- The lock, the traffic and the poller's transaction are as they were. -/
theorem WorkLink.of_eq {ws : List Work} {s s' : State} (h : WorkLink ws s) (hl : s'.t.lock = s.t.lock)
    (hp : s'.p.io = s.p.io) (ho : linkTrace s'.out = linkTrace s.out) : WorkLink ws s' :=
  ⟨by rw [hl, hp, ho]; exact h.1, h.2⟩

theorem WorkLink.proceed {ws : List Work} {s s' : State} (h : WorkLink ws s) (e : s.proceed = some s') :
    WorkLink ws s' :=
  h.of_eq (proceed_link e) (by rw [(proceed_frame e).p]) (by rw [proceed_out e])

theorem runXactN_link (n : Nat) (x : Xact) (k : After) (s : State) (h : WorkLink [.xact x k] s) :
    match runXactN n x s with
    | .wait => True
    | .more x' s' => WorkLink [.xact x' k] s'
    | .done _ s' => WorkLink [] s' := by
  induction n generalizing x s with
  | zero => exact h
  | succ n ih =>
    have hx := xactStep_link .consumer x s s.p.io.flight h.1
    have hf := xactStep_frame .consumer x s
    unfold runXactN
    cases e : xactStep .consumer x s with
    | wait => trivial
    | done v s' =>
      rw [e] at hx hf
      exact ⟨by rw [(show LinkFrame s s' from hf).p]; exact hx, by intro w hw; cases hw⟩
    | more x' s' =>
      rw [e] at hx hf
      have h' : WorkLink [.xact x' k] s' :=
        ⟨by rw [(show LinkFrame s s' from hf).p]; exact hx.2, by intro w hw; cases hw⟩
      dsimp only
      cases e' : s'.proceed with
      | none => exact h'
      | some s'' => exact ih x' s'' (h'.proceed e')

theorem WorkLink.fresh {w : Work} {s : State} (hw : flightOf [w] = none) (h : WorkLink [] s) : WorkLink [w] s :=
  ⟨by rw [hw]; exact h.1, by intro w' hw'; cases hw'⟩

/-- Work that is not inside a transaction, left where none is. -/
theorem WorkLink.quiet {ws : List Work} {s : State} (hw : allQuiet ws) (h : WorkLink [] s) : WorkLink ws s :=
  ⟨by rw [hw.flight]; exact h.1, hw.tail⟩

theorem workLink_nil {w : Work} {s : State} (hw : flightOf [w] = none) (h : WorkLink [w] s) : WorkLink [] s :=
  ⟨by have h1 := h.1; rw [hw] at h1; exact h1, by intro w' hw'; cases hw'⟩

/-- An update that leaves the lock and the poller alone, and puts out nothing on the link. -/
theorem WorkLink.offLink {ws : List Work} {s s' : State} (h : WorkLink ws s) (hl : s'.t.lock = s.t.lock)
    (hp : s'.p.io = s.p.io) (es : List Event) (ho : s'.out = s.out ++ es) (he : ∀ e ∈ es, e.offLink = true) :
    WorkLink ws s' :=
  h.of_eq hl hp (by rw [ho, linkTrace_offLink _ he])

theorem WorkLink.emit {ws : List Work} {s : State} (h : WorkLink ws s) (e : Event) (he : e.offLink = true) :
    WorkLink ws (s.emit e) :=
  h.offLink rfl rfl [e] rfl (by simpa using he)

theorem WorkLink.emitIf {ws : List Work} {s : State} (h : WorkLink ws s) (b : Bool) (e : Event)
    (he : e.offLink = true) : WorkLink ws (s.emitIf b e) :=
  h.offLink rfl rfl _ rfl (by cases b <;> simp [he])

theorem WorkLink.deliver {ws : List Work} {s : State} (h : WorkLink ws s) (r : Result) : WorkLink ws (s.deliver r) :=
  h.offLink rfl rfl [.result r] rfl (by simp [Event.offLink])

theorem runWrites_link (act : Action) (l : List Write) (ok : Bool) (s : State) (h : WorkLink [] s) :
    WorkLink (runWrites act l ok s).2 (runWrites act l ok s).1 := by
  induction l generalizing ok s with
  | nil => exact h.offLink rfl rfl _ rfl (by simp [Event.offLink])
  | cons w rest ih =>
    unfold runWrites
    dsimp only
    cases e : s.proceed with
    | none => exact WorkLink.fresh rfl h
    | some s1 =>
      have h1 : WorkLink [.xact (writeXact s.t.deviceId w.1 w.2) (.emit act rest ok)] s1 :=
        WorkLink.fresh rfl (h.proceed e)
      have h2 := runXactN_link 4 _ _ _ h1
      dsimp only [runXact]
      cases e2 : runXactN 4 (writeXact s.t.deviceId w.1 w.2) s1 with
      | wait => exact h1
      | more x' s2 => rw [e2] at h2; exact h2
      | done v s2 => rw [e2] at h2; exact ih _ s2 h2

theorem actionWrites_link (act : Action) {ws : List Work} {s : State} (h : WorkLink ws s) :
    WorkLink ws (actionWrites act s).2 := by
  cases act <;> first | exact h | exact h.of_eq (by simp [actionWrites]) (by simp [actionWrites]) (by simp [actionWrites])

theorem runEmission_link (e : Emission) (s : State) (h : WorkLink [] s) :
    WorkLink (runEmission e s).2 (runEmission e s).1 := by
  cases e with
  | act act => exact runWrites_link act _ true _ (actionWrites_link act h)
  | logPurgeStart => exact h.offLink rfl rfl _ rfl (by simp [Event.offLink])
  | flowOpen => exact h.offLink rfl rfl _ rfl (by split <;> simp [Event.offLink])
  | flowStart => exact h.offLink rfl rfl _ rfl (by split <;> simp [Event.offLink])
  | auxStart =>
    exact h.offLink (by simp [runEmission]) (by simp [runEmission]) _ (by simp [runEmission]; rfl)
      (by split <;> simp [Event.offLink])
  | auxEnd =>
    exact h.offLink (by simp [runEmission]) (by simp [runEmission]) _ (by simp [runEmission]; rfl)
      (by split <;> simp [Event.offLink])

theorem afterPiece_link {r : State × List Work} {rest : List Work} {next : State → State × List Work}
    (h : WorkLink r.2 r.1) (hr : allQuiet rest)
    (hn : ∀ s', WorkLink [] s' → WorkLink (next s').2 (next s').1) :
    WorkLink (afterPiece r rest next).2 (afterPiece r rest next).1 := by
  unfold afterPiece
  split
  next s1 =>
    split
    next s' e => exact hn s' (h.proceed e)
    next => exact WorkLink.quiet hr h
  next => exact WorkLink.append h (by simp) hr

theorem emissions_quiet (l : List Emission) : allQuiet (l.map Work.emission) := by
  intro w hw
  obtain ⟨e, -, rfl⟩ := List.mem_map.1 hw
  rfl

theorem runEmissions_link (l : List Emission) (s : State) (h : WorkLink [] s) :
    WorkLink (runEmissions l s).2 (runEmissions l s).1 := by
  induction l generalizing s with
  | nil => exact h
  | cons e rest ih => exact afterPiece_link (runEmission_link e s h) (emissions_quiet rest) ih

theorem verifyResult_link (v : Option Value) (s : State) (h : WorkLink [] s) : WorkLink [] (verifyResult v s) := by
  unfold verifyResult
  split
  · split <;> exact (h.emit _ rfl).deliver _
  · exact (h.emit _ rfl).deliver _

theorem afterXact_link (k : After) (v : Option Value) (s : State) (h : WorkLink [] s) :
    WorkLink (afterXact k v s).2 (afterXact k v s).1 := by
  cases k with
  | read => exact h.offLink rfl rfl _ rfl (by simp [Event.offLink])
  | write => exact h.offLink rfl rfl _ rfl (by simp [Event.offLink])
  | verify => exact verifyResult_link v s h
  | emit act rest ok => exact runWrites_link act rest _ s h

theorem applySample_link (e : Sample) (s : State) (h : WorkLink [] s) : WorkLink [] (applySample e s).1 := by
  unfold applySample State.decodeNow
  dsimp only
  refine h.of_eq ?_ ?_ ?_ <;> (split <;> split <;> split <;> simp)

theorem runSamples_link (l : List Sample) (s : State) (h : WorkLink [] s) :
    WorkLink (runSamples l s).2 (runSamples l s).1 := by
  induction l generalizing s with
  | nil => exact h
  | cons e rest ih =>
    exact afterPiece_link
      (afterPiece_link (r := ((applySample e s).1, [])) (applySample_link e s h) (emissions_quiet _) (runEmissions_link _))
      (by simp [allQuiet, flightOf]) ih

theorem runDrain_link (js : List Nat) (s : State) (h : WorkLink [] s) :
    WorkLink (runDrain js s).2 (runDrain js s).1 := by
  induction js generalizing s with
  | nil => exact h.offLink rfl rfl _ rfl (by simp [Event.offLink])
  | cons j js ih =>
    exact afterPiece_link
      (afterPiece_link (r := (s.clearQueue j, [])) (h.of_eq rfl rfl rfl) (by simp [allQuiet, flightOf]) (runSamples_link _))
      (by simp [allQuiet, flightOf]) ih

theorem connectNow_link (cfg : PortCfg) (s : State) (h : WorkLink [] s) : WorkLink [] (connectNow cfg s) := by
  unfold connectNow
  dsimp only
  split
  · exact h.deliver _
  · refine WorkLink.deliver (WorkLink.emitIf (WorkLink.emit (h.of_eq ?_ ?_ ?_) _ ?_) _ _ ?_) _
    all_goals first | rfl | (split <;> simp)

/-- A piece of the consumer's work keeps the link in order. -/
theorem runItem_link (w : Work) (s : State) (h : WorkLink [w] s) : WorkLink (runItem w s).2 (runItem w s).1 := by
  cases w with
  | xact x k =>
    have h1 := runXactN_link 4 x k s h
    unfold runItem
    dsimp only [runXact]
    split
    next => exact h
    next x' s' e => rw [e] at h1; exact h1
    next v s' e => rw [e] at h1; exact afterXact_link k v s' h1
  | emission e => exact runEmission_link e s (workLink_nil rfl h)
  | samples l => exact runSamples_link l s (workLink_nil rfl h)
  | drain js => exact runDrain_link js s (workLink_nil rfl h)
  | connect cfg =>
    unfold runItem
    dsimp only
    split
    · exact connectNow_link cfg s (workLink_nil rfl h)
    · exact h
  | disconnect =>
    unfold runItem
    dsimp only
    split
    · exact (workLink_nil rfl h).offLink rfl rfl _ rfl (by simp [Event.offLink])
    · exact h
  | posture => exact (workLink_nil rfl h).of_eq rfl rfl rfl
  | join wake =>
    unfold runItem
    dsimp only
    split
    · exact h
    · exact workLink_nil rfl h
  | done r => exact (workLink_nil rfl h).offLink rfl rfl _ rfl (by simp [Event.offLink])

/-- The consumer's work keeps the link in order: what it leaves stands before what was there. -/
theorem runWork_link (ws : List Work) (s : State) (h : WorkLink ws s) (h0 : s.con.todo = []) :
    WorkLink (runWork ws s).con.todo (runWork ws s) := by
  induction ws generalizing s with
  | nil => unfold runWork; rw [h0]; exact h
  | cons w ws ih =>
    have hq : allQuiet ws := h.2
    have hw : WorkLink [w] s :=
      ⟨by have h1 := h.1; rw [← List.singleton_append, flightOf_append ws (by simp)] at h1; exact h1,
        by intro w' hw'; cases hw'⟩
    have h1 := runItem_link w s hw
    have h2 := (runItem_base w s).todo
    unfold runWork
    split
    next s1 l ls e =>
      rw [e] at h1 h2
      have h3 := WorkLink.append h1 (by simp) hq
      refine (show WorkLink (l :: ls ++ ws ++ s1.con.todo) (s1.leave (l :: ls ++ ws)) from ?_)
      rw [h2, h0, List.append_nil]
      exact h3.of_eq rfl rfl rfl
    next s1 e =>
      rw [e] at h1 h2
      split
      · rw [h2, h0]; exact h1
      next w' ws' =>
        have h3 : WorkLink (w' :: ws') s1 := ⟨by rw [hq.flight]; exact h1.1, hq.tail⟩
        split
        next s2 e2 => exact ih s2 (h3.proceed e2) (by rw [(proceed_frame e2).con, h2, h0])
        next =>
          refine (show WorkLink (w' :: ws' ++ s1.con.todo) (s1.leave (w' :: ws')) from ?_)
          rw [h2, h0, List.append_nil]
          exact h3.of_eq rfl rfl rfl

end Sys2Proof.Machine
end

