-- ==== Sys2Proof/Laws/PerInstr.lean ====
section
/-! SUPPORT. The family `RoundTrip`: decoding a well-formed instruction's encoding gives it back, one lemma per
constructor. At the host port zero bytes may follow (log 6). -/

namespace Sys2Proof.Laws.RoundTrip

open Sys2Proof Sys2Proof.Machine

/-- Decoding the encoding of `i` gives `i`, where `i` is well formed. -/
def Statement (i : Instr) : Prop :=
  i.wf = true → ∀ pad : List Byte, isPadding pad = true → (i.port = .host ∨ pad = []) →
    Sys2Proof.decode i.port (encode i ++ pad) = .ok i

theorem crc7 (bytes : List Byte) : Statement (.crc7 bytes) := by
  intro hw pad hp _
  show decodeHost (0x01#8 :: (putList putBits bytes ++ pad)) = .ok _
  exact decodeHost_of_read rfl (by simp) hp hw

theorem build (address : Nat) (w : Bool) (data : Value) : Statement (.build address w data) := by
  intro hw pad hp _
  show decodeHost (0x02#8 :: ((putNat address ++ putBool w ++ putBits data) ++ pad)) = .ok _
  exact decodeHost_of_read rfl (by simp) hp hw

theorem parse (resp : List Byte) (addr : Addr) (dev : DevId) : Statement (.parse resp addr dev) := by
  intro hw pad hp _
  show decodeHost (0x03#8 :: ((putList putBits resp ++ putBits addr ++ putBits dev) ++ pad)) = .ok _
  exact decodeHost_of_read rfl (by simp) hp hw

theorem sdecode (word : Value) : Statement (.sdecode word) := by
  intro hw pad hp _
  show decodeHost (0x04#8 :: (putBits word ++ pad)) = .ok _
  exact decodeHost_of_read rfl (by simp) hp hw

theorem connect (cfg : PortCfg) : Statement (.connect cfg) := by
  intro hw pad hp _
  show decodeHost (0x10#8 :: ((putList putBits cfg.port ++ putBaud cfg.baud ++ putPosRat cfg.timeout) ++ pad)) = .ok _
  have ht : 0 < cfg.timeout := by simpa [Instr.wf, portAccepts] using hw
  exact decodeHost_of_read rfl (by simp [takePosRat_putPosRat _ ht]) hp hw

theorem disconnect : Statement (.disconnect) := by
  intro hw pad hp _
  show decodeHost (0x11#8 :: pad) = .ok _
  exact decodeHost_of_read rfl rfl hp hw

theorem isconn : Statement (.isconn) := by
  intro hw pad hp _
  show decodeHost (0x12#8 :: pad) = .ok _
  exact decodeHost_of_read rfl rfl hp hw

theorem rdreg (addr : Addr) : Statement (.rdreg addr) := by
  intro hw pad hp _
  show decodeHost (0x13#8 :: (putBits addr ++ pad)) = .ok _
  exact decodeHost_of_read rfl (by simp) hp hw

theorem wrreg (addr : Addr) (value : Value) : Statement (.wrreg addr value) := by
  intro hw pad hp _
  show decodeHost (0x14#8 :: ((putBits addr ++ putBits value) ++ pad)) = .ok _
  exact decodeHost_of_read rfl (by simp) hp hw

theorem pconfig (addrs : List Addr) : Statement (.pconfig addrs) := by
  intro hw pad hp _
  show decodeHost (0x20#8 :: (putList putBits addrs ++ pad)) = .ok _
  exact decodeHost_of_read rfl (by simp) hp hw

theorem pstart : Statement (.pstart) := by
  intro hw pad hp _
  show decodeHost (0x21#8 :: pad) = .ok _
  exact decodeHost_of_read rfl rfl hp hw

theorem pstop : Statement (.pstop) := by
  intro hw pad hp _
  show decodeHost (0x22#8 :: pad) = .ok _
  exact decodeHost_of_read rfl rfl hp hw

theorem decode (word : Value) : Statement (.decode word) := by
  intro hw pad hp _
  show decodeHost (0x30#8 :: (putBits word ++ pad)) = .ok _
  exact decodeHost_of_read rfl (by simp) hp hw

theorem period (motor : Motor) (value : Value) : Statement (.period motor value) := by
  intro hw pad hp _
  show decodeHost (0x31#8 :: ((putMotor motor ++ putBits value) ++ pad)) = .ok _
  exact decodeHost_of_read rfl (by simp) hp hw

theorem arm (aux : Bool) : Statement (.arm aux) := by
  intro hw pad hp _
  show decodeHost (0x32#8 :: (putBool aux ++ pad)) = .ok _
  exact decodeHost_of_read rfl (by simp) hp hw

theorem cancel : Statement (.cancel) := by
  intro hw pad hp _
  show decodeHost (0x33#8 :: pad) = .ok _
  exact decodeHost_of_read rfl rfl hp hw

theorem purge : Statement (.purge) := by
  intro hw pad hp _
  show decodeHost (0x34#8 :: pad) = .ok _
  exact decodeHost_of_read rfl rfl hp hw

theorem ppend (b : Bool) : Statement (.ppend b) := by
  intro hw pad hp _
  show decodeHost (0x35#8 :: (putBool b ++ pad)) = .ok _
  exact decodeHost_of_read rfl (by simp) hp hw

theorem setcfg (field : CfgField) (value : Rat) : Statement (.setcfg field value) := by
  intro hw pad hp _
  show decodeHost (0x36#8 :: ((putField field ++ putRat value) ++ pad)) = .ok _
  exact decodeHost_of_read rfl (by simp) hp hw

theorem verify : Statement (.verify) := by
  intro hw pad hp _
  show decodeHost (0x37#8 :: pad) = .ok _
  exact decodeHost_of_read rfl rfl hp hw

theorem drain : Statement (.drain) := by
  intro hw pad hp _
  show decodeHost (0x38#8 :: pad) = .ok _
  exact decodeHost_of_read rfl rfl hp hw

theorem readReq (dev : DevId) (addr : Addr) (crc : Crc) : Statement (.readReq dev addr crc) := by
  intro hw pad _ h
  obtain rfl : pad = [] := h.resolve_left (by simp [Instr.port])
  have hd : dataOf (headerByte false 0#16 dev) 0#8 0#8 = 0#16 := dataOf_built false 0#16 dev false false
  have ht : top1 0#8 = false := by decide
  show decodeTx [_, _, _, _, _] = .ok _
  simp [decodeTx, readReqFrame, hd, ht, hw]

theorem writeReq (dev : DevId) (addr : Addr) (data : Value) (crc : Crc) : Statement (.writeReq dev addr data crc) := by
  intro hw pad _ h
  obtain rfl : pad = [] := h.resolve_left (by simp [Instr.port])
  show decodeTx [_, _, _, _, _] = .ok _
  simp [decodeTx, writeReqFrame, hw]

theorem response (w : Bool) (dev : DevId) (addr : Addr) (data : Value) (crc : Crc) (x y z v : Bool) :
    Statement (.response w dev addr data crc x y z v) := by
  intro _ pad _ h
  obtain rfl : pad = [] := h.resolve_left (by simp [Instr.port])
  show decodeRx [_, _, _, _, _] = .ok _
  simp [decodeRx, responseFrame]

end Sys2Proof.Laws.RoundTrip
end

