-- ==== Sys2Proof/Laws/Phases.lean ====
section
/-! SUPPORT. What each phase of the decode step leaves alone, one lemma per field; then what each does. -/

namespace Sys2Proof.Machine

variable (a : Automaton)

/-! ### homeReset -/

@[simp] theorem homeReset_flags (old new : Flags) : (homeReset old new a).flags = a.flags := by
  unfold homeReset
  split <;> rfl
@[simp] theorem homeReset_tPrev (old new : Flags) : (homeReset old new a).tPrev = a.tPrev := by
  unfold homeReset
  split <;> rfl
@[simp] theorem homeReset_periodM1 (old new : Flags) : (homeReset old new a).periodM1 = a.periodM1 := by
  unfold homeReset
  split <;> rfl
@[simp] theorem homeReset_periodM2 (old new : Flags) : (homeReset old new a).periodM2 = a.periodM2 := by
  unfold homeReset
  split <;> rfl
@[simp] theorem homeReset_override (old new : Flags) : (homeReset old new a).override = a.override := by
  unfold homeReset
  split <;> rfl
@[simp] theorem homeReset_armed (old new : Flags) : (homeReset old new a).armed = a.armed := by
  unfold homeReset
  split <;> rfl
@[simp] theorem homeReset_armTime (old new : Flags) : (homeReset old new a).armTime = a.armTime := by
  unfold homeReset
  split <;> rfl
@[simp] theorem homeReset_armAux (old new : Flags) : (homeReset old new a).armAux = a.armAux := by
  unfold homeReset
  split <;> rfl
@[simp] theorem homeReset_purgeActive (old new : Flags) : (homeReset old new a).purgeActive = a.purgeActive := by
  unfold homeReset
  split <;> rfl
@[simp] theorem homeReset_purgeCount (old new : Flags) : (homeReset old new a).purgeCount = a.purgeCount := by
  unfold homeReset
  split <;> rfl
@[simp] theorem homeReset_purgeLast (old new : Flags) : (homeReset old new a).purgeLast = a.purgeLast := by
  unfold homeReset
  split <;> rfl
@[simp] theorem homeReset_purgeValve (old new : Flags) : (homeReset old new a).purgeValve = a.purgeValve := by
  unfold homeReset
  split <;> rfl
@[simp] theorem homeReset_purgePending (old new : Flags) : (homeReset old new a).purgePending = a.purgePending := by
  unfold homeReset
  split <;> rfl

/-! ### integrateForward -/

@[simp] theorem integrateForward_flags (par : Params) (new : Flags) (dt : Time) : (integrateForward par new dt a).flags = a.flags := by
  unfold integrateForward
  split <;> rfl
@[simp] theorem integrateForward_tPrev (par : Params) (new : Flags) (dt : Time) : (integrateForward par new dt a).tPrev = a.tPrev := by
  unfold integrateForward
  split <;> rfl
@[simp] theorem integrateForward_periodM1 (par : Params) (new : Flags) (dt : Time) : (integrateForward par new dt a).periodM1 = a.periodM1 := by
  unfold integrateForward
  split <;> rfl
@[simp] theorem integrateForward_periodM2 (par : Params) (new : Flags) (dt : Time) : (integrateForward par new dt a).periodM2 = a.periodM2 := by
  unfold integrateForward
  split <;> rfl
@[simp] theorem integrateForward_override (par : Params) (new : Flags) (dt : Time) : (integrateForward par new dt a).override = a.override := by
  unfold integrateForward
  split <;> rfl
@[simp] theorem integrateForward_armed (par : Params) (new : Flags) (dt : Time) : (integrateForward par new dt a).armed = a.armed := by
  unfold integrateForward
  split <;> rfl
@[simp] theorem integrateForward_armTime (par : Params) (new : Flags) (dt : Time) : (integrateForward par new dt a).armTime = a.armTime := by
  unfold integrateForward
  split <;> rfl
@[simp] theorem integrateForward_armAux (par : Params) (new : Flags) (dt : Time) : (integrateForward par new dt a).armAux = a.armAux := by
  unfold integrateForward
  split <;> rfl
@[simp] theorem integrateForward_purgeActive (par : Params) (new : Flags) (dt : Time) : (integrateForward par new dt a).purgeActive = a.purgeActive := by
  unfold integrateForward
  split <;> rfl
@[simp] theorem integrateForward_purgeCount (par : Params) (new : Flags) (dt : Time) : (integrateForward par new dt a).purgeCount = a.purgeCount := by
  unfold integrateForward
  split <;> rfl
@[simp] theorem integrateForward_purgeLast (par : Params) (new : Flags) (dt : Time) : (integrateForward par new dt a).purgeLast = a.purgeLast := by
  unfold integrateForward
  split <;> rfl
@[simp] theorem integrateForward_purgeValve (par : Params) (new : Flags) (dt : Time) : (integrateForward par new dt a).purgeValve = a.purgeValve := by
  unfold integrateForward
  split <;> rfl
@[simp] theorem integrateForward_purgePending (par : Params) (new : Flags) (dt : Time) : (integrateForward par new dt a).purgePending = a.purgePending := by
  unfold integrateForward
  split <;> rfl

/-! ### integrateBackward -/

@[simp] theorem integrateBackward_flags (par : Params) (new : Flags) (dt : Time) : (integrateBackward par new dt a).flags = a.flags := by
  unfold integrateBackward
  split <;> rfl
@[simp] theorem integrateBackward_tPrev (par : Params) (new : Flags) (dt : Time) : (integrateBackward par new dt a).tPrev = a.tPrev := by
  unfold integrateBackward
  split <;> rfl
@[simp] theorem integrateBackward_periodM1 (par : Params) (new : Flags) (dt : Time) : (integrateBackward par new dt a).periodM1 = a.periodM1 := by
  unfold integrateBackward
  split <;> rfl
@[simp] theorem integrateBackward_periodM2 (par : Params) (new : Flags) (dt : Time) : (integrateBackward par new dt a).periodM2 = a.periodM2 := by
  unfold integrateBackward
  split <;> rfl
@[simp] theorem integrateBackward_elapsed (par : Params) (new : Flags) (dt : Time) : (integrateBackward par new dt a).elapsed = a.elapsed := by
  unfold integrateBackward
  split <;> rfl
@[simp] theorem integrateBackward_override (par : Params) (new : Flags) (dt : Time) : (integrateBackward par new dt a).override = a.override := by
  unfold integrateBackward
  split <;> rfl
@[simp] theorem integrateBackward_armed (par : Params) (new : Flags) (dt : Time) : (integrateBackward par new dt a).armed = a.armed := by
  unfold integrateBackward
  split <;> rfl
@[simp] theorem integrateBackward_armTime (par : Params) (new : Flags) (dt : Time) : (integrateBackward par new dt a).armTime = a.armTime := by
  unfold integrateBackward
  split <;> rfl
@[simp] theorem integrateBackward_armAux (par : Params) (new : Flags) (dt : Time) : (integrateBackward par new dt a).armAux = a.armAux := by
  unfold integrateBackward
  split <;> rfl
@[simp] theorem integrateBackward_purgeActive (par : Params) (new : Flags) (dt : Time) : (integrateBackward par new dt a).purgeActive = a.purgeActive := by
  unfold integrateBackward
  split <;> rfl
@[simp] theorem integrateBackward_purgeCount (par : Params) (new : Flags) (dt : Time) : (integrateBackward par new dt a).purgeCount = a.purgeCount := by
  unfold integrateBackward
  split <;> rfl
@[simp] theorem integrateBackward_purgeLast (par : Params) (new : Flags) (dt : Time) : (integrateBackward par new dt a).purgeLast = a.purgeLast := by
  unfold integrateBackward
  split <;> rfl
@[simp] theorem integrateBackward_purgeValve (par : Params) (new : Flags) (dt : Time) : (integrateBackward par new dt a).purgeValve = a.purgeValve := by
  unfold integrateBackward
  split <;> rfl
@[simp] theorem integrateBackward_purgePending (par : Params) (new : Flags) (dt : Time) : (integrateBackward par new dt a).purgePending = a.purgePending := by
  unfold integrateBackward
  split <;> rfl

/-! ### overrideOn -/

@[simp] theorem overrideOn_flags (c : Cfg) (old new : Flags) : (overrideOn c old new a).1.flags = a.flags := by
  unfold overrideOn
  split <;> rfl
@[simp] theorem overrideOn_tPrev (c : Cfg) (old new : Flags) : (overrideOn c old new a).1.tPrev = a.tPrev := by
  unfold overrideOn
  split <;> rfl
@[simp] theorem overrideOn_periodM1 (c : Cfg) (old new : Flags) : (overrideOn c old new a).1.periodM1 = a.periodM1 := by
  unfold overrideOn
  split <;> rfl
@[simp] theorem overrideOn_periodM2 (c : Cfg) (old new : Flags) : (overrideOn c old new a).1.periodM2 = a.periodM2 := by
  unfold overrideOn
  split <;> rfl
@[simp] theorem overrideOn_position (c : Cfg) (old new : Flags) : (overrideOn c old new a).1.position = a.position := by
  unfold overrideOn
  split <;> rfl
@[simp] theorem overrideOn_elapsed (c : Cfg) (old new : Flags) : (overrideOn c old new a).1.elapsed = a.elapsed := by
  unfold overrideOn
  split <;> rfl
@[simp] theorem overrideOn_armed (c : Cfg) (old new : Flags) : (overrideOn c old new a).1.armed = a.armed := by
  unfold overrideOn
  split <;> rfl
@[simp] theorem overrideOn_armTime (c : Cfg) (old new : Flags) : (overrideOn c old new a).1.armTime = a.armTime := by
  unfold overrideOn
  split <;> rfl
@[simp] theorem overrideOn_armAux (c : Cfg) (old new : Flags) : (overrideOn c old new a).1.armAux = a.armAux := by
  unfold overrideOn
  split <;> rfl
@[simp] theorem overrideOn_purgeActive (c : Cfg) (old new : Flags) : (overrideOn c old new a).1.purgeActive = a.purgeActive := by
  unfold overrideOn
  split <;> rfl
@[simp] theorem overrideOn_purgeCount (c : Cfg) (old new : Flags) : (overrideOn c old new a).1.purgeCount = a.purgeCount := by
  unfold overrideOn
  split <;> rfl
@[simp] theorem overrideOn_purgeLast (c : Cfg) (old new : Flags) : (overrideOn c old new a).1.purgeLast = a.purgeLast := by
  unfold overrideOn
  split <;> rfl
@[simp] theorem overrideOn_purgeValve (c : Cfg) (old new : Flags) : (overrideOn c old new a).1.purgeValve = a.purgeValve := by
  unfold overrideOn
  split <;> rfl
@[simp] theorem overrideOn_purgePending (c : Cfg) (old new : Flags) : (overrideOn c old new a).1.purgePending = a.purgePending := by
  unfold overrideOn
  split <;> rfl

/-! ### overrideOff -/

@[simp] theorem overrideOff_flags (c : Cfg) (new : Flags) : (overrideOff c new a).1.flags = a.flags := by
  unfold overrideOff
  split <;> rfl
@[simp] theorem overrideOff_tPrev (c : Cfg) (new : Flags) : (overrideOff c new a).1.tPrev = a.tPrev := by
  unfold overrideOff
  split <;> rfl
@[simp] theorem overrideOff_periodM1 (c : Cfg) (new : Flags) : (overrideOff c new a).1.periodM1 = a.periodM1 := by
  unfold overrideOff
  split <;> rfl
@[simp] theorem overrideOff_periodM2 (c : Cfg) (new : Flags) : (overrideOff c new a).1.periodM2 = a.periodM2 := by
  unfold overrideOff
  split <;> rfl
@[simp] theorem overrideOff_position (c : Cfg) (new : Flags) : (overrideOff c new a).1.position = a.position := by
  unfold overrideOff
  split <;> rfl
@[simp] theorem overrideOff_elapsed (c : Cfg) (new : Flags) : (overrideOff c new a).1.elapsed = a.elapsed := by
  unfold overrideOff
  split <;> rfl
@[simp] theorem overrideOff_armed (c : Cfg) (new : Flags) : (overrideOff c new a).1.armed = a.armed := by
  unfold overrideOff
  split <;> rfl
@[simp] theorem overrideOff_armTime (c : Cfg) (new : Flags) : (overrideOff c new a).1.armTime = a.armTime := by
  unfold overrideOff
  split <;> rfl
@[simp] theorem overrideOff_armAux (c : Cfg) (new : Flags) : (overrideOff c new a).1.armAux = a.armAux := by
  unfold overrideOff
  split <;> rfl
@[simp] theorem overrideOff_purgeActive (c : Cfg) (new : Flags) : (overrideOff c new a).1.purgeActive = a.purgeActive := by
  unfold overrideOff
  split <;> rfl
@[simp] theorem overrideOff_purgeCount (c : Cfg) (new : Flags) : (overrideOff c new a).1.purgeCount = a.purgeCount := by
  unfold overrideOff
  split <;> rfl
@[simp] theorem overrideOff_purgeLast (c : Cfg) (new : Flags) : (overrideOff c new a).1.purgeLast = a.purgeLast := by
  unfold overrideOff
  split <;> rfl
@[simp] theorem overrideOff_purgeValve (c : Cfg) (new : Flags) : (overrideOff c new a).1.purgeValve = a.purgeValve := by
  unfold overrideOff
  split <;> rfl
@[simp] theorem overrideOff_purgePending (c : Cfg) (new : Flags) : (overrideOff c new a).1.purgePending = a.purgePending := by
  unfold overrideOff
  split <;> rfl

/-! ### purgeInit -/

@[simp] theorem purgeInit_flags (now : Time) : (purgeInit now a).1.flags = a.flags := by
  unfold purgeInit
  split <;> rfl
@[simp] theorem purgeInit_tPrev (now : Time) : (purgeInit now a).1.tPrev = a.tPrev := by
  unfold purgeInit
  split <;> rfl
@[simp] theorem purgeInit_periodM1 (now : Time) : (purgeInit now a).1.periodM1 = a.periodM1 := by
  unfold purgeInit
  split <;> rfl
@[simp] theorem purgeInit_periodM2 (now : Time) : (purgeInit now a).1.periodM2 = a.periodM2 := by
  unfold purgeInit
  split <;> rfl
@[simp] theorem purgeInit_position (now : Time) : (purgeInit now a).1.position = a.position := by
  unfold purgeInit
  split <;> rfl
@[simp] theorem purgeInit_elapsed (now : Time) : (purgeInit now a).1.elapsed = a.elapsed := by
  unfold purgeInit
  split <;> rfl
@[simp] theorem purgeInit_override (now : Time) : (purgeInit now a).1.override = a.override := by
  unfold purgeInit
  split <;> rfl
@[simp] theorem purgeInit_armed (now : Time) : (purgeInit now a).1.armed = a.armed := by
  unfold purgeInit
  split <;> rfl
@[simp] theorem purgeInit_armTime (now : Time) : (purgeInit now a).1.armTime = a.armTime := by
  unfold purgeInit
  split <;> rfl
@[simp] theorem purgeInit_armAux (now : Time) : (purgeInit now a).1.armAux = a.armAux := by
  unfold purgeInit
  split <;> rfl
@[simp] theorem purgeInit_purgePending (now : Time) : (purgeInit now a).1.purgePending = a.purgePending := by
  unfold purgeInit
  split <;> rfl

/-! ### returnStroke -/

@[simp] theorem returnStroke_flags (c : Cfg) (new : Flags) (now : Time) : (returnStroke c new now a).1.flags = a.flags := by
  unfold returnStroke
  split
  · split <;> simp
  · rfl
@[simp] theorem returnStroke_tPrev (c : Cfg) (new : Flags) (now : Time) : (returnStroke c new now a).1.tPrev = a.tPrev := by
  unfold returnStroke
  split
  · split <;> simp
  · rfl
@[simp] theorem returnStroke_periodM1 (c : Cfg) (new : Flags) (now : Time) : (returnStroke c new now a).1.periodM1 = a.periodM1 := by
  unfold returnStroke
  split
  · split <;> simp
  · rfl
@[simp] theorem returnStroke_periodM2 (c : Cfg) (new : Flags) (now : Time) : (returnStroke c new now a).1.periodM2 = a.periodM2 := by
  unfold returnStroke
  split
  · split <;> simp
  · rfl
@[simp] theorem returnStroke_position (c : Cfg) (new : Flags) (now : Time) : (returnStroke c new now a).1.position = a.position := by
  unfold returnStroke
  split
  · split <;> simp
  · rfl
@[simp] theorem returnStroke_elapsed (c : Cfg) (new : Flags) (now : Time) : (returnStroke c new now a).1.elapsed = a.elapsed := by
  unfold returnStroke
  split
  · split <;> simp
  · rfl
@[simp] theorem returnStroke_override (c : Cfg) (new : Flags) (now : Time) : (returnStroke c new now a).1.override = a.override := by
  unfold returnStroke
  split
  · split <;> simp
  · rfl
@[simp] theorem returnStroke_armed (c : Cfg) (new : Flags) (now : Time) : (returnStroke c new now a).1.armed = a.armed := by
  unfold returnStroke
  split
  · split <;> simp
  · rfl
@[simp] theorem returnStroke_armTime (c : Cfg) (new : Flags) (now : Time) : (returnStroke c new now a).1.armTime = a.armTime := by
  unfold returnStroke
  split
  · split <;> simp
  · rfl
@[simp] theorem returnStroke_armAux (c : Cfg) (new : Flags) (now : Time) : (returnStroke c new now a).1.armAux = a.armAux := by
  unfold returnStroke
  split
  · split <;> simp
  · rfl

/-! ### manualStart -/

@[simp] theorem manualStart_flags (c : Cfg) (now : Time) : (manualStart c now a).1.flags = a.flags := by
  unfold manualStart
  split <;> rfl
@[simp] theorem manualStart_tPrev (c : Cfg) (now : Time) : (manualStart c now a).1.tPrev = a.tPrev := by
  unfold manualStart
  split <;> rfl
@[simp] theorem manualStart_periodM1 (c : Cfg) (now : Time) : (manualStart c now a).1.periodM1 = a.periodM1 := by
  unfold manualStart
  split <;> rfl
@[simp] theorem manualStart_periodM2 (c : Cfg) (now : Time) : (manualStart c now a).1.periodM2 = a.periodM2 := by
  unfold manualStart
  split <;> rfl
@[simp] theorem manualStart_position (c : Cfg) (now : Time) : (manualStart c now a).1.position = a.position := by
  unfold manualStart
  split <;> rfl
@[simp] theorem manualStart_elapsed (c : Cfg) (now : Time) : (manualStart c now a).1.elapsed = a.elapsed := by
  unfold manualStart
  split <;> rfl
@[simp] theorem manualStart_override (c : Cfg) (now : Time) : (manualStart c now a).1.override = a.override := by
  unfold manualStart
  split <;> rfl
@[simp] theorem manualStart_armTime (c : Cfg) (now : Time) : (manualStart c now a).1.armTime = a.armTime := by
  unfold manualStart
  split <;> rfl
@[simp] theorem manualStart_armAux (c : Cfg) (now : Time) : (manualStart c now a).1.armAux = a.armAux := by
  unfold manualStart
  split <;> rfl
@[simp] theorem manualStart_purgeActive (c : Cfg) (now : Time) : (manualStart c now a).1.purgeActive = a.purgeActive := by
  unfold manualStart
  split <;> rfl
@[simp] theorem manualStart_purgeCount (c : Cfg) (now : Time) : (manualStart c now a).1.purgeCount = a.purgeCount := by
  unfold manualStart
  split <;> rfl
@[simp] theorem manualStart_purgeLast (c : Cfg) (now : Time) : (manualStart c now a).1.purgeLast = a.purgeLast := by
  unfold manualStart
  split <;> rfl
@[simp] theorem manualStart_purgeValve (c : Cfg) (now : Time) : (manualStart c now a).1.purgeValve = a.purgeValve := by
  unfold manualStart
  split <;> rfl
@[simp] theorem manualStart_purgePending (c : Cfg) (now : Time) : (manualStart c now a).1.purgePending = a.purgePending := by
  unfold manualStart
  split <;> rfl

/-! ### purgeToggle -/

@[simp] theorem purgeToggle_flags (now : Time) : (purgeToggle now a).1.flags = a.flags := rfl
@[simp] theorem purgeToggle_tPrev (now : Time) : (purgeToggle now a).1.tPrev = a.tPrev := rfl
@[simp] theorem purgeToggle_periodM1 (now : Time) : (purgeToggle now a).1.periodM1 = a.periodM1 := rfl
@[simp] theorem purgeToggle_periodM2 (now : Time) : (purgeToggle now a).1.periodM2 = a.periodM2 := rfl
@[simp] theorem purgeToggle_position (now : Time) : (purgeToggle now a).1.position = a.position := rfl
@[simp] theorem purgeToggle_elapsed (now : Time) : (purgeToggle now a).1.elapsed = a.elapsed := rfl
@[simp] theorem purgeToggle_override (now : Time) : (purgeToggle now a).1.override = a.override := rfl
@[simp] theorem purgeToggle_armed (now : Time) : (purgeToggle now a).1.armed = a.armed := rfl
@[simp] theorem purgeToggle_armTime (now : Time) : (purgeToggle now a).1.armTime = a.armTime := rfl
@[simp] theorem purgeToggle_armAux (now : Time) : (purgeToggle now a).1.armAux = a.armAux := rfl
@[simp] theorem purgeToggle_purgeActive (now : Time) : (purgeToggle now a).1.purgeActive = a.purgeActive := rfl
@[simp] theorem purgeToggle_purgePending (now : Time) : (purgeToggle now a).1.purgePending = a.purgePending := rfl

/-! ### purgeEnd -/

@[simp] theorem purgeEnd_flags (c : Cfg) : (purgeEnd c a).1.flags = a.flags := by
  unfold purgeEnd
  split <;> rfl
@[simp] theorem purgeEnd_tPrev (c : Cfg) : (purgeEnd c a).1.tPrev = a.tPrev := by
  unfold purgeEnd
  split <;> rfl
@[simp] theorem purgeEnd_periodM1 (c : Cfg) : (purgeEnd c a).1.periodM1 = a.periodM1 := by
  unfold purgeEnd
  split <;> rfl
@[simp] theorem purgeEnd_periodM2 (c : Cfg) : (purgeEnd c a).1.periodM2 = a.periodM2 := by
  unfold purgeEnd
  split <;> rfl
@[simp] theorem purgeEnd_position (c : Cfg) : (purgeEnd c a).1.position = a.position := by
  unfold purgeEnd
  split <;> rfl
@[simp] theorem purgeEnd_elapsed (c : Cfg) : (purgeEnd c a).1.elapsed = a.elapsed := by
  unfold purgeEnd
  split <;> rfl
@[simp] theorem purgeEnd_override (c : Cfg) : (purgeEnd c a).1.override = a.override := by
  unfold purgeEnd
  split <;> rfl
@[simp] theorem purgeEnd_armed (c : Cfg) : (purgeEnd c a).1.armed = a.armed := by
  unfold purgeEnd
  split <;> rfl
@[simp] theorem purgeEnd_armTime (c : Cfg) : (purgeEnd c a).1.armTime = a.armTime := by
  unfold purgeEnd
  split <;> rfl
@[simp] theorem purgeEnd_armAux (c : Cfg) : (purgeEnd c a).1.armAux = a.armAux := by
  unfold purgeEnd
  split <;> rfl
@[simp] theorem purgeEnd_purgeCount (c : Cfg) : (purgeEnd c a).1.purgeCount = a.purgeCount := by
  unfold purgeEnd
  split <;> rfl
@[simp] theorem purgeEnd_purgeLast (c : Cfg) : (purgeEnd c a).1.purgeLast = a.purgeLast := by
  unfold purgeEnd
  split <;> rfl
@[simp] theorem purgeEnd_purgePending (c : Cfg) : (purgeEnd c a).1.purgePending = a.purgePending := by
  unfold purgeEnd
  split <;> rfl

/-! ### purgeStep -/

@[simp] theorem purgeStep_flags (c : Cfg) (now : Time) : (purgeStep c now a).1.flags = a.flags := by
  unfold purgeStep
  split
  · dsimp only
    split <;> simp
  · rfl
@[simp] theorem purgeStep_tPrev (c : Cfg) (now : Time) : (purgeStep c now a).1.tPrev = a.tPrev := by
  unfold purgeStep
  split
  · dsimp only
    split <;> simp
  · rfl
@[simp] theorem purgeStep_periodM1 (c : Cfg) (now : Time) : (purgeStep c now a).1.periodM1 = a.periodM1 := by
  unfold purgeStep
  split
  · dsimp only
    split <;> simp
  · rfl
@[simp] theorem purgeStep_periodM2 (c : Cfg) (now : Time) : (purgeStep c now a).1.periodM2 = a.periodM2 := by
  unfold purgeStep
  split
  · dsimp only
    split <;> simp
  · rfl
@[simp] theorem purgeStep_position (c : Cfg) (now : Time) : (purgeStep c now a).1.position = a.position := by
  unfold purgeStep
  split
  · dsimp only
    split <;> simp
  · rfl
@[simp] theorem purgeStep_elapsed (c : Cfg) (now : Time) : (purgeStep c now a).1.elapsed = a.elapsed := by
  unfold purgeStep
  split
  · dsimp only
    split <;> simp
  · rfl
@[simp] theorem purgeStep_override (c : Cfg) (now : Time) : (purgeStep c now a).1.override = a.override := by
  unfold purgeStep
  split
  · dsimp only
    split <;> simp
  · rfl
@[simp] theorem purgeStep_armed (c : Cfg) (now : Time) : (purgeStep c now a).1.armed = a.armed := by
  unfold purgeStep
  split
  · dsimp only
    split <;> simp
  · rfl
@[simp] theorem purgeStep_armTime (c : Cfg) (now : Time) : (purgeStep c now a).1.armTime = a.armTime := by
  unfold purgeStep
  split
  · dsimp only
    split <;> simp
  · rfl
@[simp] theorem purgeStep_armAux (c : Cfg) (now : Time) : (purgeStep c now a).1.armAux = a.armAux := by
  unfold purgeStep
  split
  · dsimp only
    split <;> simp
  · rfl
@[simp] theorem purgeStep_purgePending (c : Cfg) (now : Time) : (purgeStep c now a).1.purgePending = a.purgePending := by
  unfold purgeStep
  split
  · dsimp only
    split <;> simp
  · rfl

/-! ### What the phases do -/

theorem homeReset_position (old new : Flags) : (homeReset old new a).position =
    if rising old.begBlk new.begBlk && !old.m1Running then 0 else a.position := by
  unfold homeReset
  split <;> rfl

theorem homeReset_elapsed (old new : Flags) : (homeReset old new a).elapsed =
    if rising old.begBlk new.begBlk && !old.m1Running then 0 else a.elapsed := by
  unfold homeReset
  split <;> rfl

theorem integrateForward_position (par : Params) (new : Flags) (dt : Time) : (integrateForward par new dt a).position =
    a.position + if new.m1Fwd then travel par dt a else 0 := by
  unfold integrateForward
  split <;> simp

theorem integrateForward_elapsed (par : Params) (new : Flags) (dt : Time) : (integrateForward par new dt a).elapsed =
    a.elapsed + if new.m1Fwd then dt else 0 := by
  unfold integrateForward
  split <;> simp

theorem integrateBackward_position (par : Params) (new : Flags) (dt : Time) : (integrateBackward par new dt a).position =
    a.position - if new.m1Back then travel par dt a else 0 := by
  unfold integrateBackward
  split <;> simp

/-- The motor-1 travel depends on A through its period alone. -/
theorem travel_of_period (par : Params) (dt : Time) {a b : Automaton} (h : a.periodM1 = b.periodM1) :
    travel par dt a = travel par dt b := by
  unfold travel
  rw [h]

theorem manualStart_armed (c : Cfg) (now : Time) : (manualStart c now a).1.armed =
    (a.armed && !decide (c.startDelay ≤ now - a.armTime)) := by
  unfold manualStart
  split <;> simp_all

theorem overrideOn_override (c : Cfg) (old new : Flags) : (overrideOn c old new a).1.override =
    (a.override || rising old.m1Back new.m1Back && c.backSpeedEn) := by
  unfold overrideOn
  split <;> simp_all

theorem overrideOff_override (c : Cfg) (new : Flags) : (overrideOff c new a).1.override =
    (a.override && !(new.begBlk && c.backSpeedEn)) := by
  unfold overrideOff
  cases h : a.override <;> cases h1 : new.begBlk <;> cases h2 : c.backSpeedEn <;> simp [h]

/-- R298, R345: does the return stroke begin a purge. -/
def purgeBegins (c : Cfg) (new : Flags) (a : Automaton) : Bool :=
  c.manualReturnEn && new.endBlk && !new.m1Back && a.purgePending && !a.purgeActive

theorem returnStroke_purgeActive (c : Cfg) (new : Flags) (now : Time) : (returnStroke c new now a).1.purgeActive =
    (a.purgeActive || purgeBegins c new a) := by
  unfold returnStroke purgeInit purgeBegins
  cases c.manualReturnEn <;> cases new.endBlk <;> cases new.m1Back <;> cases h : a.purgePending <;>
    cases h' : a.purgeActive <;> simp [*]

theorem returnStroke_purgeCount (c : Cfg) (new : Flags) (now : Time) : (returnStroke c new now a).1.purgeCount =
    if purgeBegins c new a then 0 else a.purgeCount := by
  unfold returnStroke purgeInit purgeBegins
  cases c.manualReturnEn <;> cases new.endBlk <;> cases new.m1Back <;> cases h : a.purgePending <;>
    cases h' : a.purgeActive <;> simp [*]

theorem returnStroke_purgeLast (c : Cfg) (new : Flags) (now : Time) : (returnStroke c new now a).1.purgeLast =
    if purgeBegins c new a then now else a.purgeLast := by
  unfold returnStroke purgeInit purgeBegins
  cases c.manualReturnEn <;> cases new.endBlk <;> cases new.m1Back <;> cases h : a.purgePending <;>
    cases h' : a.purgeActive <;> simp [*]

theorem returnStroke_purgeValve (c : Cfg) (new : Flags) (now : Time) : (returnStroke c new now a).1.purgeValve =
    (!purgeBegins c new a && a.purgeValve) := by
  unfold returnStroke purgeInit purgeBegins
  cases c.manualReturnEn <;> cases new.endBlk <;> cases new.m1Back <;> cases h : a.purgePending <;>
    cases h' : a.purgeActive <;> simp [*]

theorem returnStroke_purgePending (c : Cfg) (new : Flags) (now : Time) : (returnStroke c new now a).1.purgePending =
    (a.purgePending && !(c.manualReturnEn && new.endBlk && !new.m1Back)) := by
  unfold returnStroke purgeInit
  cases c.manualReturnEn <;> cases new.endBlk <;> cases new.m1Back <;> cases h : a.purgePending <;>
    cases h' : a.purgeActive <;> simp [*]

theorem purgeStep_purgeCount (c : Cfg) (now : Time) : (purgeStep c now a).1.purgeCount =
    if a.purgeActive && toggleDue c now a then a.purgeCount + 1 else a.purgeCount := by
  unfold purgeStep purgeEnd toggleDue purgeToggle
  by_cases h0 : a.purgeActive = true <;> by_cases h1 : a.purgeCount < 2 * c.purgePulses <;>
    by_cases h2 : c.purgeDuration ≤ now - a.purgeLast <;> simp [h0, h1, h2] <;> (try split) <;> simp_all

theorem purgeStep_purgeLast (c : Cfg) (now : Time) : (purgeStep c now a).1.purgeLast =
    if a.purgeActive && toggleDue c now a then now else a.purgeLast := by
  unfold purgeStep purgeEnd toggleDue purgeToggle
  by_cases h0 : a.purgeActive = true <;> by_cases h1 : a.purgeCount < 2 * c.purgePulses <;>
    by_cases h2 : c.purgeDuration ≤ now - a.purgeLast <;> simp [h0, h1, h2] <;> (try split) <;> simp_all

/-- R303's second test, at the count after the toggle. -/
def purgeEnds (c : Cfg) (now : Time) (a : Automaton) : Bool :=
  a.purgeActive && decide (2 * c.purgePulses ≤ if toggleDue c now a then a.purgeCount + 1 else a.purgeCount)

theorem purgeStep_purgeActive (c : Cfg) (now : Time) : (purgeStep c now a).1.purgeActive =
    (a.purgeActive && !purgeEnds c now a) := by
  unfold purgeStep purgeEnds purgeEnd toggleDue purgeToggle
  by_cases h0 : a.purgeActive = true <;> by_cases h1 : a.purgeCount < 2 * c.purgePulses <;>
    by_cases h2 : c.purgeDuration ≤ now - a.purgeLast <;> simp [h0, h1, h2] <;> (try split) <;> simp_all

theorem purgeStep_purgeValve (c : Cfg) (now : Time) : (purgeStep c now a).1.purgeValve =
    (!purgeEnds c now a && xor (a.purgeActive && toggleDue c now a) a.purgeValve) := by
  unfold purgeStep purgeEnds purgeEnd toggleDue purgeToggle
  by_cases h0 : a.purgeActive = true <;> by_cases h1 : a.purgeCount < 2 * c.purgePulses <;>
    by_cases h2 : c.purgeDuration ≤ now - a.purgeLast <;> simp [h0, h1, h2] <;> (try split) <;> simp_all

/-- All that phase 5 puts out. -/
theorem purgeStep_emissions (c : Cfg) (now : Time) : (purgeStep c now a).2 =
    (if a.purgeActive && toggleDue c now a then [.act (if a.purgeValve then .valve2Off else .valve2On)] else []) ++
      (if purgeEnds c now a then [.act .valve2Off, .flowStart] else []) := by
  unfold purgeStep purgeEnds purgeEnd toggleDue purgeToggle
  by_cases h0 : a.purgeActive = true <;> by_cases h1 : a.purgeCount < 2 * c.purgePulses <;>
    by_cases h2 : c.purgeDuration ≤ now - a.purgeLast <;> simp [h0, h1, h2] <;> (try split) <;> simp_all

theorem overrideOn_emissions (c : Cfg) (old new : Flags) : (overrideOn c old new a).2 =
    if rising old.m1Back new.m1Back && c.backSpeedEn then [.act (.setPeriodM1 backPeriod)] else [] := by
  unfold overrideOn
  split <;> rfl

theorem overrideOff_emissions (c : Cfg) (new : Flags) : (overrideOff c new a).2 =
    if new.begBlk && a.override && c.backSpeedEn then [.act .applyFwd] else [] := by
  unfold overrideOff
  split <;> rfl

theorem returnStroke_emissions (c : Cfg) (new : Flags) (now : Time) : (returnStroke c new now a).2 =
    (if new.endBlk && !new.m1Back && c.manualReturnEn then [.act .m2Fwd, .act .m1Back] else []) ++
      (if purgeBegins c new a then [.flowOpen, .logPurgeStart] else []) := by
  unfold returnStroke purgeInit purgeBegins
  cases c.manualReturnEn <;> cases new.endBlk <;> cases new.m1Back <;> cases h : a.purgePending <;>
    cases h' : a.purgeActive <;> simp [*]

theorem manualStart_emissions (c : Cfg) (now : Time) : (manualStart c now a).2 =
    (if a.armed && decide (c.startDelay ≤ now - a.armTime) then [.act .m1Fwd, .act .m2Fwd] else []) ++
      (if a.armed && decide (c.startDelay ≤ now - a.armTime) && a.armAux then [.auxStart] else []) := by
  unfold manualStart
  split <;> simp_all

/-! ### The step as a whole -/

variable (par : Params) (c : Cfg) (now : Time) (word : Value)

theorem decodeStep_flags : (decodeStep par c now word a).1.flags = decodeStatus par.statusIndex word := by
  simp [decodeStep, phase1]

theorem decodeStep_tPrev : (decodeStep par c now word a).1.tPrev = some now := by
  simp [decodeStep, phase1]

theorem decodeStep_periodM1 : (decodeStep par c now word a).1.periodM1 = a.periodM1 := by
  simp [decodeStep, phase1]

theorem decodeStep_periodM2 : (decodeStep par c now word a).1.periodM2 = a.periodM2 := by
  simp [decodeStep, phase1]

theorem decodeStep_armed : (decodeStep par c now word a).1.armed =
    (a.armed && !decide (c.startDelay ≤ now - a.armTime)) := by
  simp [decodeStep, phase1, manualStart_armed]

theorem decodeStep_armTime : (decodeStep par c now word a).1.armTime = a.armTime := by
  simp [decodeStep, phase1]

theorem decodeStep_armAux : (decodeStep par c now word a).1.armAux = a.armAux := by
  simp [decodeStep, phase1]

end Sys2Proof.Machine
end

