-- ==== Sys2Proof/Laws/Ready.lean ====
section
/-! SUPPORT. Work that no one disturbs comes to its end: with nothing scheduled and the lock free, every piece that does
not wait for the poller is done when it is reached, and leaves nothing. -/

namespace Sys2Proof.Machine

/-! ### A draw depends on the environment alone, and changes it alone -/

theorem drawTxOk_env (s s' : State) (h : s'.env = s.env) :
    s'.drawTxOk = (s.drawTxOk.1, { s' with env := s.drawTxOk.2.env }) := by
  unfold State.drawTxOk State.countDraw
  rw [h]
  split <;> rfl

theorem drawRx_env (s s' : State) (h : s'.env = s.env) :
    s'.drawRx = (s.drawRx.1, { s' with env := s.drawRx.2.env }) := by
  unfold State.drawRx State.countDraw
  rw [h]
  split <;> rfl

/-! ### One transaction -/

theorem linkEnv_sched (s : State) : (linkEnv s).sched = s.env.sched := by
  unfold linkEnv
  split
  · split <;> simp
  · rfl

theorem runXactN_more {n : Nat} {x x' : Xact} {s s' : State} (h : xactStep .consumer x s = .more x' s')
    (hs : s'.env.sched = []) : runXactN (n + 1) x s = runXactN n x' s' := by
  simp [runXactN, h, State.proceed, hs]

theorem runXactN_done {n : Nat} {x : Xact} {v : Option Value} {s s' : State}
    (h : xactStep .consumer x s = .done v s') : runXactN (n + 1) x s = .done v s' := by
  simp [runXactN, h]

/-- The state of a transaction that has sent its request. -/
def sentState (g : Agent) (x : Xact) (s : State) : State :=
  { s with t := { s.t with rx := [], lock := some g }, env := s.drawTxOk.2.env
           out := s.out ++ [.flush g, .tx g x.frame.bytes] }

/-- The state of a transaction that waits for its reply. -/
def settledState (g : Agent) (x : Xact) (s : State) : State :=
  { sentState g x s with
    reached := s.reached + delayBound s.param (settleDelay x.req)
    out := s.out ++ [.flush g, .tx g x.frame.bytes,
      .sleep g (settleDelay x.req) (delayBound s.param (settleDelay x.req))] }

theorem send_ok {g : Agent} {req : Req} {frame : Frame} {s : State} (hc : s.t.connected = true) (ht : s.drawTxOk.1 = true) :
    xactStep g ⟨req, frame, .send⟩ (s.setLock (some g)) =
      .more ⟨req, frame, .settle (s.reached + delayBound s.param (settleDelay req))⟩ (sentState g ⟨req, frame, .acquire⟩ s) := by
  simp only [xactStep, sendRequest, State.setLock_t, hc, if_true]
  rw [drawTxOk_env s _ (by simp)]
  simp [ht, sentState, State.emit, State.setRx, State.setLock, hc]

theorem send_fails {g : Agent} {req : Req} {frame : Frame} {s : State} (hl : s.t.lock = none) (hc : s.t.connected = true)
    (ht : s.drawTxOk.1 = false) :
    xactStep g ⟨req, frame, .send⟩ (s.setLock (some g)) =
      .done none { s with t := { s.t with rx := [] }, env := s.drawTxOk.2.env
                          out := s.out ++ [.flush g, .txFailed g frame.bytes, .log (.error .io) .error] } := by
  simp only [xactStep, sendRequest, State.setLock_t, hc, if_true]
  rw [drawTxOk_env s _ (by simp)]
  simp [ht, State.emit, State.setRx, State.setLock, State.raise, State.log, hc, ← hl]

theorem send_not_open {g : Agent} {req : Req} {frame : Frame} {s : State} (hl : s.t.lock = none) (hc : s.t.connected = false) :
    xactStep g ⟨req, frame, .send⟩ (s.setLock (some g)) =
      .done none { s with out := s.out ++ [.log (.error .notOpen) .error] } := by
  simp only [xactStep, sendRequest, State.setLock_t, hc]
  simp [State.emit, State.setLock, State.raise, State.log, ← hl, ← hc]

theorem settle_eq {g : Agent} {req : Req} {frame : Frame} {s : State} :
    xactStep g ⟨req, frame, .settle (s.reached + delayBound s.param (settleDelay req))⟩
        (sentState g ⟨req, frame, .acquire⟩ s) =
      .more ⟨req, frame, .receive (s.reached + delayBound s.param (settleDelay req) + s.t.portCfg.timeout)⟩
        (settledState g ⟨req, frame, .acquire⟩ s) := by
  simp [xactStep, settledState, sentState, State.emit, State.reach]

theorem receive_eq {g : Agent} {req : Req} {frame : Frame} {s : State} (hl : s.t.lock = none) (hc : s.t.connected = true)
    (ht : s.drawTxOk.1 = true) :
    xactStep g ⟨req, frame, .receive (s.reached + delayBound s.param (settleDelay req) + s.t.portCfg.timeout)⟩
        (settledState g ⟨req, frame, .acquire⟩ s) =
      .done (linkValue req.addr s)
        { s with t := { s.t with rx := linkRx s }, env := linkEnv s, reached := linkReached req s
                 out := s.out ++ linkEvents g ⟨req, frame, .acquire⟩ s } := by
  simp only [xactStep, receiveReply]
  rw [drawRx_env s.drawTxOk.2 (settledState g ⟨req, frame, .acquire⟩ s) rfl]
  cases hr : s.drawTxOk.2.drawRx.1 with
  | fails =>
    cases req <;>
      simp [linkValue, replyOf, hc, ht, hr, linkRx, linkEnv, linkReached, linkEvents, writeLog, settledState, sentState,
        State.emit, State.setLock, ← hl]
  | bytes more =>
    cases hp : parse (more.take 5) req.addr s.t.deviceId <;> cases req <;>
      simp [linkValue, replyOf, hc, ht, hr, hp, linkRx, linkEnv, linkReached, linkEvents, writeLog, settledState,
        sentState, State.emit, State.setLock, State.setRx, State.reachIf, ← hl]

/-- The state after an undisturbed transaction of the consumer. -/
def linkDone (x : Xact) (s : State) : State :=
  { s with t := { s.t with rx := linkRx s }, env := linkEnv s, reached := linkReached x.req s
           out := s.out ++ linkEvents .consumer x s }

/-- All that an undisturbed transaction of the consumer does. -/
theorem runXact_ready {x : Xact} {s : State} (hx : x.phase = .acquire) (hs : s.ready) :
    runXact x s = .done (linkValue x.req.addr s) (linkDone x s) := by
  obtain ⟨h1, h2⟩ := hs
  obtain ⟨req, frame, phase⟩ := x
  simp only at hx
  subst hx
  have acq : xactStep .consumer ⟨req, frame, .acquire⟩ s = .more ⟨req, frame, .send⟩ (s.setLock (some .consumer)) := by
    simp [xactStep, h2]
  unfold runXact
  rw [runXactN_more acq (by simpa using h1)]
  cases hc : s.t.connected with
  | false =>
    rw [runXactN_done (send_not_open h2 hc)]
    simp [linkDone, linkValue, linkRx, linkEnv, linkReached, linkEvents, hc]
    rw [← hc]
  | true =>
    cases ht : s.drawTxOk.1 with
    | false =>
      rw [runXactN_done (send_fails h2 hc ht)]
      simp [linkDone, linkValue, replyOf, linkRx, linkEnv, linkReached, linkEvents, hc, ht]
    | true =>
      rw [runXactN_more (send_ok hc ht) (by simpa [sentState] using h1)]
      rw [runXactN_more settle_eq (by simpa [settledState, sentState] using h1), runXactN_done (receive_eq h2 hc ht)]
      rfl

/-! ### The consumer's pieces of work -/

theorem proceed_ready {s : State} (hs : s.ready) : s.proceed = some s := by
  simp [State.proceed, hs.1]

/-- A piece of work that is done: nothing is left of it, and the consumer is as undisturbed as before. -/
def Finished (r : State × List Work) : Prop := r.2 = [] ∧ r.1.ready

/-- R348: the upper byte is a code exactly when the quotient by 2^8 is. -/
theorem upperByte_eq (x : Value) (y : Byte) : x.extractLsb' 8 8 = y ↔ x.toNat / 256 = y.toNat := by
  have := x.isLt
  rw [← BitVec.toNat_inj]
  simp [BitVec.extractLsb'_toNat, Nat.shiftRight_eq_div_pow]
  omega

/-- R348: the lower byte. -/
theorem lowerByte_eq (x : Value) : x.extractLsb' 0 8 = BitVec.ofNat 8 x.toNat := by
  rw [← BitVec.toNat_inj]; simp

/-- The end of a transaction where another agent's turn comes next: what the command puts out, its result, and the work it
has left are `transactionEnd`'s. -/
theorem afterXact_interrupted (k : After) (v : Option Value) {s : State} (h : s.proceed = none) :
    afterXact k v s =
      ({ s with out := s.out ++ (transactionEnd k v s).1, result := (transactionEnd k v s).2.1 },
        (transactionEnd k v s).2.2) := by
  cases k with
  | read => rfl
  | write => rfl
  | verify =>
    cases v with
    | none => simp [afterXact, verifyResult, transactionEnd, State.deliver, State.log, State.emit]
    | some x =>
      by_cases hc : x.toNat / 256 = s.param.idCode.toNat <;>
        simp [afterXact, verifyResult, transactionEnd, State.deliver, State.log, State.emit, upperByte_eq, lowerByte_eq, hc]
  | emit act l ok =>
    cases l with
    | nil => simp [afterXact, runWrites, transactionEnd, State.log, State.emit]
    | cons w ws => simp [afterXact, runWrites, transactionEnd, h]

/-- What has been performed since a state is what the emissions `l` come to (R311). Whatever emissions follow, and whatever
the auxiliary peer answers once the answers the state lists are used up: there are answers before with which all of them
together come to the two parts. -/
structure PerformsFrom (s : State) (l : List Emission) (s' : State) : Prop where
  param : s'.param = s.param
  out : ∃ es, s'.out = s.out ++ es ∧ ∀ more conn' run', ∃ conn run,
    performs s.param (l ++ more) (s.env.auxConn ++ conn) (s.env.auxRun ++ run) =
      performedIn es ++ performs s.param more (s'.env.auxConn ++ conn') (s'.env.auxRun ++ run')

theorem PerformsFrom.trans {s s' s'' : State} {l l' : List Emission} (h : PerformsFrom s l s')
    (k : PerformsFrom s' l' s'') : PerformsFrom s (l ++ l') s'' := by
  obtain ⟨h0, es, h1, h2⟩ := h
  obtain ⟨k0, es', k1, k2⟩ := k
  refine ⟨k0.trans h0, es ++ es', by rw [k1, h1, List.append_assoc], fun more conn' run' => ?_⟩
  obtain ⟨conn1, run1, e1⟩ := k2 more conn' run'
  obtain ⟨conn, run, e⟩ := h2 (l' ++ more) conn1 run1
  exact ⟨conn, run, by rw [List.append_assoc, e, ← h0, e1, h0]; simp [performedIn]⟩

/-- Where the auxiliary peer is not asked: the events decide. -/
theorem PerformsFrom.unasked {s s' : State} {l : List Emission} (es : List Event) (ho : s'.out = s.out ++ es)
    (hp : s'.param = s.param) (hc : s'.env.auxConn = s.env.auxConn) (hr : s'.env.auxRun = s.env.auxRun)
    (hl : ∀ more conn run, performs s.param (l ++ more) conn run = performedIn es ++ performs s.param more conn run) :
    PerformsFrom s l s' :=
  ⟨hp, es, ho, fun more conn' run' => ⟨conn', run', by rw [hc, hr]; exact hl _ _ _⟩⟩

/-- What has been performed in the end. -/
theorem PerformsFrom.performed {s s' : State} {l : List Emission} (h : PerformsFrom s l s') :
    ∃ es conn run, s'.out = s.out ++ es ∧
      performedIn es = performs s.param l (s.env.auxConn ++ conn) (s.env.auxRun ++ run) := by
  obtain ⟨-, es, h1, h2⟩ := h
  obtain ⟨conn, run, e⟩ := h2 [] [] []
  exact ⟨es, conn, run, h1, by simpa [performs] using e.symm⟩

theorem actionsIn_eq (es : List Event) : actionsIn es = actionsOf (performedIn es) := by
  induction es with
  | nil => rfl
  | cons e es ih =>
    cases e with
    | log k sev =>
      cases k with
      | purgeStart => cases sev <;> exact ih
      | command act => exact congrArg (act :: ·) ih
      | _ => exact ih
    | _ => exact ih

theorem actionsOf_append (l l' : List Emission) : actionsOf (l ++ l') = actionsOf l ++ actionsOf l' := by
  simp [actionsOf]

/-- Every action reaches the link. -/
theorem actionsOf_performs (par : Params) (l : List Emission) (conn run : List Bool) :
    actionsOf (performs par l conn run) = actionsOf l := by
  induction l generalizing conn run with
  | nil => rfl
  | cons e l ih =>
    cases e with
    | act act => exact congrArg (act :: ·) (ih conn run)
    | logPurgeStart => exact ih conn run
    | flowOpen => rw [performs, actionsOf_append, ih]; split <;> rfl
    | flowStart => rw [performs, actionsOf_append, ih]; split <;> rfl
    | auxStart =>
      rw [performs]
      split
      · rw [actionsOf_append, ih]; split <;> rfl
      · exact ih conn run
    | auxEnd =>
      rw [performs]
      split
      · rw [actionsOf_append, ih]; split <;> rfl
      · exact ih conn run

theorem linkEnv_aux (s : State) : (linkEnv s).auxConn = s.env.auxConn ∧ (linkEnv s).auxRun = s.env.auxRun := by
  unfold linkEnv State.drawTxOk State.drawRx
  constructor <;> (repeat' split) <;> rfl

theorem performedIn_linkEvents (x : Xact) (s : State) : performedIn (linkEvents .consumer x s) = [] := by
  unfold linkEvents
  split
  · split
    · split
      · cases x.req <;> rfl
      · split <;> cases x.req <;> rfl
    · rfl
  · rfl

theorem ready_after_xact {s : State} (hs : s.ready) (x : Xact) :
    (linkDone x s).ready :=
  ⟨(linkEnv_sched s).trans hs.1, hs.2⟩

theorem runWrites_ready (act : Action) (l : List Write) (ok : Bool) {s : State} (hs : s.ready) :
    Finished (runWrites act l ok s) ∧ PerformsFrom s [.act act] (runWrites act l ok s).1 := by
  induction l generalizing ok s with
  | nil => exact ⟨⟨rfl, by simpa [runWrites, State.ready] using hs⟩, .unasked [_] rfl rfl rfl rfl fun _ _ _ => rfl⟩
  | cons w rest ih =>
    unfold runWrites
    simp only [proceed_ready hs, runXact_ready (x := writeXact s.t.deviceId w.1 w.2) rfl hs]
    have h := ih (ok && (linkValue (writeXact s.t.deviceId w.1 w.2).req.addr s).isSome)
      (ready_after_xact hs (writeXact s.t.deviceId w.1 w.2))
    refine ⟨h.1, ?_⟩
    have h0 : PerformsFrom s [] (linkDone (writeXact s.t.deviceId w.1 w.2) s) :=
      .unasked _ rfl rfl (linkEnv_aux s).1 (linkEnv_aux s).2 fun _ _ _ => by rw [performedIn_linkEvents]; rfl
    exact h0.trans h.2

theorem actionWrites_ready (act : Action) {s : State} (hs : s.ready) : (actionWrites act s).2.ready := by
  cases act <;> simpa [actionWrites, State.ready] using hs

theorem drawUserFwd_aux (s : State) :
    s.drawUserFwd.2.env.auxConn = s.env.auxConn ∧ s.drawUserFwd.2.env.auxRun = s.env.auxRun := by
  unfold State.drawUserFwd; split <;> exact ⟨rfl, rfl⟩

theorem actionWrites_performs (act : Action) (s : State) : PerformsFrom s [] (actionWrites act s).2 := by
  refine .unasked [] ?_ ?_ ?_ ?_ fun _ _ _ => rfl
  · cases act <;> simp [actionWrites]
  · cases act <;> simp [actionWrites]
  · cases act <;> try rfl
    exact (drawUserFwd_aux s).1
  · cases act <;> try rfl
    exact (drawUserFwd_aux s).2

/-- The auxiliary peer's answer whether it is connected: the next the state lists, or a free one. -/
theorem readAuxConnected_cases (s : State) :
    (s.param.auxPresent = false ∧ s.readAuxConnected = (false, s)) ∨
    (s.param.auxPresent = true ∧ ∀ conn', ∃ conn, s.env.auxConn ++ conn =
      s.readAuxConnected.1 :: (s.readAuxConnected.2.env.auxConn ++ conn')) := by
  unfold State.readAuxConnected
  cases hp : s.param.auxPresent with
  | false => exact .inl ⟨rfl, rfl⟩
  | true =>
    refine .inr ⟨rfl, fun conn' => ?_⟩
    cases hc : s.env.auxConn with
    | nil => exact ⟨Config.freeAuxConnected s.env.draws :: conn', by simp [State.countDraw, hc]⟩
    | cons b r => exact ⟨conn', by simp⟩

/-- The same of its answer whether it runs. -/
theorem readAuxRunning_cases (s : State) :
    (s.param.auxPresent = false ∧ s.readAuxRunning = (false, s)) ∨
    (s.param.auxPresent = true ∧ ∀ run', ∃ run, s.env.auxRun ++ run =
      s.readAuxRunning.1 :: (s.readAuxRunning.2.env.auxRun ++ run')) := by
  unfold State.readAuxRunning
  cases hp : s.param.auxPresent with
  | false => exact .inl ⟨rfl, rfl⟩
  | true =>
    refine .inr ⟨rfl, fun run' => ?_⟩
    cases hc : s.env.auxRun with
    | nil => exact ⟨Config.freeAuxRunning s.env.draws :: run', by simp [State.countDraw, hc]⟩
    | cons b r => exact ⟨run', by simp⟩

theorem readAuxConnected_auxRun (s : State) : s.readAuxConnected.2.env.auxRun = s.env.auxRun := by
  unfold State.readAuxConnected; (repeat' split) <;> rfl

theorem readAuxRunning_auxConn (s : State) : s.readAuxRunning.2.env.auxConn = s.env.auxConn := by
  unfold State.readAuxRunning; (repeat' split) <;> rfl

theorem auxStart_performs (s : State) : PerformsFrom s [.auxStart] (runEmission .auxStart s).1 := by
  refine ⟨by simp [runEmission], _, by simp [runEmission]; rfl, fun more conn' run' => ?_⟩
  rcases readAuxConnected_cases s with ⟨hp, he⟩ | ⟨hp, he⟩
  · exact ⟨conn', run', by simp [performs, hp, he, runEmission, performedIn]⟩
  · obtain ⟨conn, e⟩ := he conn'
    refine ⟨conn, run', ?_⟩
    simp only [List.cons_append, List.nil_append, performs, hp, if_true, e, List.headD_cons, List.tail_cons]
    cases s.readAuxConnected.1 <;> simp [runEmission, performedIn, readAuxConnected_auxRun]

theorem auxEnd_performs (s : State) : PerformsFrom s [.auxEnd] (runEmission .auxEnd s).1 := by
  refine ⟨by simp [runEmission], _, by simp [runEmission]; rfl, fun more conn' run' => ?_⟩
  rcases readAuxConnected_cases s with ⟨hp, he⟩ | ⟨hp, he⟩
  · have hr : s.readAuxRunning = (false, s) := by simp [State.readAuxRunning, hp]
    exact ⟨conn', run', by simp [performs, hp, he, hr, runEmission, performedIn]⟩
  · rcases readAuxRunning_cases s.readAuxConnected.2 with ⟨hp', -⟩ | ⟨-, hr⟩
    · rw [State.readAuxConnected_param, hp] at hp'; cases hp'
    · obtain ⟨conn, e⟩ := he conn'
      obtain ⟨run, e'⟩ := hr run'
      rw [readAuxConnected_auxRun] at e'
      refine ⟨conn, run, ?_⟩
      simp only [List.cons_append, List.nil_append, performs, hp, if_true, e, e', List.headD_cons, List.tail_cons]
      cases s.readAuxConnected.1 <;> cases s.readAuxConnected.2.readAuxRunning.1 <;>
        simp [runEmission, performedIn, readAuxRunning_auxConn]

theorem runEmission_ready (e : Emission) {s : State} (hs : s.ready) :
    Finished (runEmission e s) ∧ PerformsFrom s [e] (runEmission e s).1 := by
  cases e with
  | act act =>
    have h := runWrites_ready act (actionWrites act s).1 true (actionWrites_ready act hs)
    exact ⟨h.1, (actionWrites_performs act s).trans h.2⟩
  | flowOpen =>
    refine ⟨⟨rfl, by simpa [runEmission, State.ready] using hs⟩, .unasked _ rfl rfl rfl rfl fun _ _ _ => ?_⟩
    cases h : s.param.flowPresent <;> simp [performs, performedIn, h]
  | flowStart =>
    refine ⟨⟨rfl, by simpa [runEmission, State.ready] using hs⟩, .unasked _ rfl rfl rfl rfl fun _ _ _ => ?_⟩
    cases h : s.param.flowPresent <;> simp [performs, performedIn, h]
  | auxStart => exact ⟨⟨rfl, by simpa [runEmission, State.ready] using hs⟩, auxStart_performs s⟩
  | auxEnd => exact ⟨⟨rfl, by simpa [runEmission, State.ready] using hs⟩, auxEnd_performs s⟩
  | logPurgeStart =>
    exact ⟨⟨rfl, by simpa [runEmission, State.ready] using hs⟩, .unasked [_] rfl rfl rfl rfl fun _ _ _ => rfl⟩

/-- After a piece that is done the consumer goes on at once. -/
theorem afterPiece_ready {r : State × List Work} (h : Finished r) (rest : List Work)
    (next : State → State × List Work) : afterPiece r rest next = next r.1 := by
  obtain ⟨s, ws⟩ := r
  obtain ⟨h1, h2⟩ := h
  simp only at h1 h2
  simp [afterPiece, h1, proceed_ready h2]

theorem runEmissions_ready (l : List Emission) {s : State} (hs : s.ready) :
    Finished (runEmissions l s) ∧ PerformsFrom s l (runEmissions l s).1 := by
  induction l generalizing s with
  | nil => exact ⟨⟨rfl, hs⟩, .unasked [] (by simp [runEmissions]) rfl rfl rfl fun _ _ _ => rfl⟩
  | cons e rest ih =>
    have h := runEmission_ready e hs
    have k := ih h.1.2
    rw [runEmissions, afterPiece_ready h.1]
    exact ⟨k.1, h.2.trans k.2⟩

theorem verifyResult_ready (v : Option Value) {s : State} (hs : s.ready) : (verifyResult v s).ready := by
  unfold verifyResult
  split
  · split <;> simpa [State.ready] using hs
  · simpa [State.ready] using hs

theorem afterXact_ready (k : After) (v : Option Value) {s : State} (hs : s.ready) : Finished (afterXact k v s) := by
  cases k with
  | read => exact ⟨rfl, by simpa [afterXact, State.ready] using hs⟩
  | write => exact ⟨rfl, by simpa [afterXact, State.ready] using hs⟩
  | verify => exact ⟨rfl, verifyResult_ready v hs⟩
  | emit act rest ok => exact (runWrites_ready act rest _ hs).1

theorem applySample_ready (e : Sample) {s : State} (hs : s.ready) : (applySample e s).1.ready := by
  have h := hs.1
  have h' := hs.2
  unfold applySample State.decodeNow State.ready
  dsimp only
  split <;> split <;> split <;> simp [h, h']

theorem runSamples_ready (l : List Sample) {s : State} (hs : s.ready) : Finished (runSamples l s) := by
  induction l generalizing s with
  | nil => exact ⟨rfl, hs⟩
  | cons e rest ih =>
    have h := (runEmissions_ready (applySample e s).2 (applySample_ready e hs)).1
    rw [runSamples, afterPiece_ready (r := (_, [])) ⟨rfl, applySample_ready e hs⟩, afterPiece_ready h]
    exact ih h.2

theorem runDrain_ready (js : List Nat) {s : State} (hs : s.ready) : Finished (runDrain js s) := by
  induction js generalizing s with
  | nil => exact ⟨rfl, by simpa [runDrain, State.ready] using hs⟩
  | cons j js ih =>
    have hc : (s.clearQueue j).ready := by simpa [State.ready] using hs
    have h := runSamples_ready (s.queue j) hc
    rw [runDrain, afterPiece_ready (r := (s.clearQueue j, [])) ⟨rfl, hc⟩, afterPiece_ready h]
    exact ih h.2

/-- A piece of work that has not begun, and does not wait for the poller. -/
def Work.fresh : Work → Prop
  | .xact x _ => x.phase = .acquire
  | .join _ => False
  | _ => True

theorem connectNow_ready (cfg : PortCfg) {s : State} (hs : s.ready) : (connectNow cfg s).ready := by
  have h := hs.1
  have h' := hs.2
  unfold connectNow State.ready
  dsimp only
  split
  · simp [h, h']
  · split <;> simp [h, h']

theorem runItem_ready {w : Work} (hw : w.fresh) {s : State} (hs : s.ready) : Finished (runItem w s) := by
  cases w with
  | xact x k =>
    unfold runItem
    simp only [runXact_ready hw hs]
    exact afterXact_ready k _ (ready_after_xact hs x)
  | emission e => exact (runEmission_ready e hs).1
  | samples l => exact runSamples_ready l hs
  | drain js => exact runDrain_ready js hs
  | connect cfg =>
    unfold runItem
    simp only [hs.2, if_true]
    exact ⟨rfl, connectNow_ready cfg hs⟩
  | disconnect =>
    unfold runItem
    simp only [hs.2, if_true]
    exact ⟨rfl, by simpa [disconnectNow, State.ready] using hs⟩
  | posture => exact ⟨rfl, hs⟩
  | join wake => exact hw.elim
  | done r => exact ⟨rfl, by simpa [runItem, State.ready] using hs⟩

/-- Undisturbed work is done piece after piece. -/
theorem runWork_cons_ready {w : Work} (hw : w.fresh) (ws : List Work) {s : State} (hs : s.ready) :
    runWork (w :: ws) s = runWork ws (runItem w s).1 := by
  have h := runItem_ready hw hs
  conv => lhs; unfold runWork
  split
  next s1 l ls e => rw [e] at h; cases h.1
  next s1 e =>
    rw [e] at h ⊢
    cases ws with
    | nil => rfl
    | cons w' ws' => simp only [proceed_ready h.2]

/-- A command that is one transaction: its result goes where `k` says. -/
theorem runWork_xact_ready {x : Xact} (hx : x.phase = .acquire) (k : After) {s : State} (hs : s.ready) :
    runWork [.xact x k] s =
      (afterXact k (linkValue x.req.addr s) (linkDone x s)).1 := by
  rw [runWork_cons_ready (w := .xact x k) hx [] hs]
  simp only [runWork, runItem, runXact_ready hx hs]

theorem runWork_ready {ws : List Work} (hws : ∀ w ∈ ws, w.fresh) {s : State} (hs : s.ready) : (runWork ws s).ready := by
  induction ws generalizing s with
  | nil => exact hs
  | cons w ws ih =>
    rw [runWork_cons_ready (hws w List.mem_cons_self) ws hs]
    exact ih (fun w hw => hws w (List.mem_cons_of_mem _ hw)) (runItem_ready (hws w List.mem_cons_self) hs).2

/-- The emissions of a command and its result: the result is the last thing put out, and nothing is left over. -/
theorem runWork_emissions_ready (l : List Emission) (r : Result) {s : State} (hs : s.ready) :
    ∃ s', LinkFrame s s' ∧ s'.ready ∧ PerformsFrom s l s' ∧
      runWork (l.map Work.emission ++ [.done r]) s = s'.deliver r := by
  induction l generalizing s with
  | nil => exact ⟨s, .refl s, hs, .unasked [] (by simp) rfl rfl rfl fun _ _ _ => rfl, by simp [runWork, runItem]⟩
  | cons e rest ih =>
    have h := runEmission_ready e hs
    obtain ⟨s', h1, h2, h3, h4⟩ := ih h.1.2
    refine ⟨s', (runEmission_frame e s).trans h1, h2, h.2.trans h3, ?_⟩
    rw [List.map_cons, List.cons_append, runWork_cons_ready (w := .emission e) trivial _ hs]
    exact h4

end Sys2Proof.Machine
end

