-- ==== Sys2Proof/Laws/Waits.lean ====
section
/-! SUPPORT. The waits take their time (R12, R15): what a transaction, and the consumer's work, add to the waits among the
outputs they add to the time up to which their agent's waits are counted. -/

namespace Sys2Proof.Machine

/-! ### Waits among events -/

theorem waitedIn_append (g : Agent) (l l' : List Event) : waitedIn g (l ++ l') = waitedIn g l + waitedIn g l' := by
  simp [waitedIn]

/-- An event that is no wait. -/
def Event.noWait : Event → Bool
  | .sleep _ _ _ => false
  | _ => true

theorem waitedIn_noWait (g : Agent) {l : List Event} (h : ∀ e ∈ l, e.noWait = true) : waitedIn g l = 0 := by
  unfold waitedIn
  apply List.sum_eq_zero
  intro x hx
  obtain ⟨e, he, rfl⟩ := List.mem_map.1 hx
  have := h e he
  cases e <;> first | rfl | cases this

theorem settleDelay_ne_join (r : Req) : settleDelay r ≠ .join := by
  cases r <;> simp [settleDelay]

/-- One wait of agent `g`, none of a stop. -/
theorem waitedIn_sleep (g : Agent) {d : Delay} (hd : d ≠ .join) (t : Time) : waitedIn g [.sleep g d t] = t := by
  cases d <;> first | exact absurd rfl hd | simp [waitedIn]

theorem waitedIn_sleep_other {g g' : Agent} (hg : g ≠ g') (d : Delay) (t : Time) : waitedIn g' [.sleep g d t] = 0 := by
  cases d <;> simp [waitedIn, hg]

/-! ### Time added -/

/-- From `s` to `s'` the waits of agent `g` put out fit between the times `T` and `T'`, and no other agent's are put out. -/
structure Adds (g : Agent) (T : Time) (s : State) (T' : Time) (s' : State) : Prop where
  param : s'.param = s.param
  ex    : ∃ es, s'.out = s.out ++ es ∧ (∀ g' ≠ g, waitedIn g' es = 0) ∧ T + waitedIn g es ≤ T'

theorem Adds.refl (g : Agent) {T T' : Time} (s : State) (h : T ≤ T') : Adds g T s T' s :=
  ⟨rfl, [], by simp, fun _ _ => rfl, by simpa [waitedIn] using h⟩

theorem Adds.trans {g : Agent} {T T' T'' : Time} {s s' s'' : State} (h : Adds g T s T' s') (k : Adds g T' s' T'' s'') :
    Adds g T s T'' s'' := by
  obtain ⟨es, h1, h2, h3⟩ := h.ex
  obtain ⟨fs, k1, k2, k3⟩ := k.ex
  refine ⟨k.param.trans h.param, es ++ fs, by rw [k1, h1, List.append_assoc], fun g' hg => ?_, ?_⟩
  · rw [waitedIn_append, h2 g' hg, k2 g' hg, add_zero]
  · rw [waitedIn_append, ← add_assoc]
    exact le_trans (add_le_add_left h3 _) k3

/-- An update that puts out no wait. -/
theorem Adds.quiet {g : Agent} {T T' : Time} {s s' : State} (hp : s'.param = s.param) (es : List Event)
    (ho : s'.out = s.out ++ es) (he : ∀ e ∈ es, e.noWait = true) (hT : T ≤ T') : Adds g T s T' s' :=
  ⟨hp, es, ho, fun g' _ => waitedIn_noWait g' he, by rw [waitedIn_noWait g he, add_zero]; exact hT⟩

theorem Xact.countedTo_le (x : Xact) (s : State) : x.countedTo s ≤ s.reached := by
  unfold Xact.countedTo
  split
  · exact min_le_left _ _
  · exact le_refl _

theorem Xact.countedTo_mono (x : Xact) {s s' : State} (hp : s'.param = s.param) (hr : s.reached ≤ s'.reached) :
    x.countedTo s ≤ x.countedTo s' := by
  unfold Xact.countedTo
  split
  · rw [hp]; exact min_le_min_right _ hr
  · exact hr

/-- What a step of a transaction of agent `g` adds. -/
def XStep.AddsTo (g : Agent) (T : Time) (s : State) : XStep → Prop
  | .wait => True
  | .more x s' => Adds g T s (x.countedTo s') s'
  | .done _ s' => Adds g T s s'.reached s'

theorem logWrite_out (r : Req) (ok : Bool) (s : State) : (s.logWrite r ok).out = s.out ++ writeLog r ok := by
  cases r <;> simp [State.logWrite, writeLog]

theorem writeLog_noWait (r : Req) (ok : Bool) : ∀ e ∈ writeLog r ok, e.noWait = true := by
  cases r <;> simp [writeLog, Event.noWait]

theorem xactStep_adds (g : Agent) (x : Xact) (s : State) : (xactStep g x s).AddsTo g (x.countedTo s) s := by
  obtain ⟨req, frame, phase⟩ := x
  cases phase with
  | acquire =>
    unfold xactStep
    dsimp only
    split
    · exact Adds.quiet rfl [] (by simp) (by simp) (le_refl _)
    · trivial
  | send =>
    unfold xactStep sendRequest
    dsimp only
    split
    · split
      · refine Adds.quiet (by simp) [.flush g, .tx g frame.bytes] (by simp) (by simp [Event.noWait]) ?_
        simp [Xact.countedTo, State.wakeAt]
      · exact Adds.quiet (by simp) [.flush g, .txFailed g frame.bytes, .log (.error .io) .error] (by simp)
          (by simp [Event.noWait]) (by simp [Xact.countedTo])
    · exact Adds.quiet (by simp) [.log (.error .notOpen) .error] (by simp) (by simp [Event.noWait])
        (by simp [Xact.countedTo])
  | settle wake =>
    refine ⟨by simp, [.sleep g (settleDelay req) (delayBound s.param (settleDelay req))], by simp, ?_, ?_⟩
    · intro g' hg
      exact waitedIn_sleep_other (Ne.symm hg) _ _
    · rw [waitedIn_sleep g (settleDelay_ne_join req)]
      have h1 : min s.reached (wake - delayBound s.param (settleDelay req)) + delayBound s.param (settleDelay req) ≤ wake := by
        have := min_le_right s.reached (wake - delayBound s.param (settleDelay req))
        linarith
      simpa [Xact.countedTo] using Or.inr h1
  | receive late =>
    unfold xactStep receiveReply
    dsimp only
    split
    · exact Adds.quiet (by simp) ([.rxFailed g, .log (.error .io) .error] ++ writeLog req false)
        (by simp [logWrite_out]) (by simpa [Event.noWait] using writeLog_noWait req false) (by simp [Xact.countedTo])
    next more _ =>
      split
      · exact Adds.quiet (by simp) ([.rx g ((s.t.rx ++ more).take 5) s.t.portCfg.timeout] ++
            writeLog req (parse ((s.t.rx ++ more).take 5) req.addr s.t.deviceId).isSome)
          (by simp [logWrite_out]) (by simpa [Event.noWait] using writeLog_noWait req _)
          (by simp [Xact.countedTo])
      · exact Adds.quiet (by simp) ([.rx g ((s.t.rx ++ more).take 5) s.t.portCfg.timeout,
              .log (.error (failKind ((s.t.rx ++ more).take 5) req.addr s.t.deviceId)) .error] ++
            writeLog req (parse ((s.t.rx ++ more).take 5) req.addr s.t.deviceId).isSome)
          (by simp [logWrite_out]) (by simpa [Event.noWait] using writeLog_noWait req _)
          (by simp [Xact.countedTo])

/-! ### The consumer's work -/

/-- The time up to which the consumer's waits are counted while it is at work `ws`. -/
def timeOf : List Work → State → Time
  | .xact x _ :: _, s => x.countedTo s
  | _, s => s.reached

theorem countedTo_consumer (s : State) : countedTo .consumer s = timeOf s.con.todo s := by
  unfold countedTo timeOf
  dsimp only
  split <;> simp_all

theorem timeOf_append {ws : List Work} (l : List Work) (s : State) (h : ws ≠ []) : timeOf (ws ++ l) s = timeOf ws s := by
  cases ws with
  | nil => exact absurd rfl h
  | cons w ws => cases w <;> rfl

theorem timeOf_le (ws : List Work) (s : State) : timeOf ws s ≤ s.reached := by
  unfold timeOf
  split
  · exact Xact.countedTo_le _ _
  · exact le_refl _

theorem timeOf_leave (ws l : List Work) (s : State) : timeOf ws (s.leave l) = timeOf ws s := by
  unfold timeOf Xact.countedTo
  split <;> simp

/-- A piece that is not inside a transaction: its agent's waits are counted up to the time reached. -/
theorem timeOf_quiet {w : Work} (h : flightOf [w] = none) (ws : List Work) (s : State) : timeOf (w :: ws) s = s.reached := by
  cases w with
  | xact x k =>
    have : x.phase = .acquire := by
      by_contra hn
      simp [flightOf, Xact.flight, hn] at h
    simp [timeOf, Xact.countedTo, this]
  | _ => rfl

theorem proceed_adds {s s' : State} (h : s.proceed = some s') : Adds .consumer s.reached s s'.reached s' := by
  unfold State.proceed at h
  split at h
  · cases h; exact .refl _ _ (le_refl _)
  · cases h; exact Adds.quiet rfl [] (by simp) (by simp) (le_refl _)
  · cases h

theorem runXactN_adds (n : Nat) (x : Xact) (s : State) : (runXactN n x s).AddsTo .consumer (x.countedTo s) s := by
  induction n generalizing x s with
  | zero => exact .refl _ _ (le_refl _)
  | succ n ih =>
    have h := xactStep_adds .consumer x s
    unfold runXactN
    split
    next => trivial
    next v s' e => rw [e] at h; exact h
    next x' s' e =>
      rw [e] at h
      split
      next s'' e' =>
        have hk := ih x' s''
        have hf := proceed_frame e'
        have hm : Adds .consumer (x'.countedTo s') s' (x'.countedTo s'') s'' := by
          obtain ⟨fs, h1, h2, h3⟩ := (proceed_adds e').ex
          refine Adds.quiet hf.param [] ?_ (by simp) (x'.countedTo_mono hf.param hf.reached)
          unfold State.proceed at e'
          split at e' <;> cases e' <;> simp
        cases e2 : runXactN n x' s'' with
        | wait => trivial
        | more x2 s2 => rw [e2] at hk; exact (Adds.trans h hm).trans hk
        | done v s2 => rw [e2] at hk; exact (Adds.trans h hm).trans hk
      next => exact h

/-- What a piece of the consumer's work adds. -/
def PieceAdds (s : State) (r : State × List Work) : Prop := Adds .consumer s.reached s (timeOf r.2 r.1) r.1

theorem PieceAdds.after {T : Time} {s s' : State} {r : State × List Work} (h : Adds .consumer T s s'.reached s')
    (k : PieceAdds s' r) : Adds .consumer T s (timeOf r.2 r.1) r.1 := h.trans k

/-- Pieces that end without a wait. -/
theorem PieceAdds.quiet {s s' : State} (hp : s'.param = s.param) (hr : s.reached ≤ s'.reached) (es : List Event)
    (ho : s'.out = s.out ++ es) (he : ∀ e ∈ es, e.noWait = true) : PieceAdds s (s', []) :=
  Adds.quiet hp es ho he hr

theorem runWrites_adds (act : Action) (l : List Write) (ok : Bool) (s : State) : PieceAdds s (runWrites act l ok s) := by
  induction l generalizing ok s with
  | nil => exact PieceAdds.quiet (by simp) (by simp) [.log (.command act) _] rfl (by simp [Event.noWait])
  | cons w rest ih =>
    unfold runWrites
    dsimp only
    split
    next => exact Adds.refl _ _ (by simp [timeOf, writeXact, Xact.countedTo])
    next s1 e =>
      have hp := proceed_adds e
      have hx := runXactN_adds 4 (writeXact s.t.deviceId w.1 w.2) s1
      have e0 : (writeXact s.t.deviceId w.1 w.2).countedTo s1 = s1.reached := rfl
      rw [e0] at hx
      unfold runXact
      split
      next => exact hp
      next x' s2 e2 => rw [e2] at hx; exact Adds.trans hp hx
      next v s2 e2 => rw [e2] at hx; exact PieceAdds.after (Adds.trans hp hx) (ih _ s2)

theorem actionWrites_adds (act : Action) (s : State) : Adds .consumer s.reached s (actionWrites act s).2.reached (actionWrites act s).2 := by
  cases act <;> exact Adds.quiet (by simp [actionWrites]) [] (by simp [actionWrites]) (by simp) (by simp [actionWrites])

theorem runEmission_adds (e : Emission) (s : State) : PieceAdds s (runEmission e s) := by
  cases e with
  | act act => exact PieceAdds.after (actionWrites_adds act s) (runWrites_adds act _ true _)
  | logPurgeStart => exact PieceAdds.quiet rfl (le_refl _) [.log .purgeStart .info] rfl (by simp [Event.noWait])
  | flowOpen => exact PieceAdds.quiet rfl (le_refl _) _ rfl (by split <;> simp [Event.noWait])
  | flowStart => exact PieceAdds.quiet rfl (le_refl _) _ rfl (by split <;> simp [Event.noWait])
  | auxStart =>
    exact PieceAdds.quiet (by simp) (by simp) _ (by simp; rfl) (by split <;> simp [Event.noWait])
  | auxEnd =>
    exact PieceAdds.quiet (by simp) (by simp) _ (by simp; rfl) (by split <;> simp [Event.noWait])

theorem afterPiece_adds {s : State} {r : State × List Work} {rest : List Work} {next : State → State × List Work}
    (h : PieceAdds s r) (hr : allQuiet rest) (hn : ∀ s', PieceAdds s' (next s')) :
    PieceAdds s (afterPiece r rest next) := by
  unfold afterPiece
  split
  next s1 =>
    split
    next s' e => exact PieceAdds.after (h.trans (proceed_adds e)) (hn s')
    next =>
      have e : timeOf rest s1 = s1.reached := by
        cases rest with
        | nil => rfl
        | cons w ws => exact timeOf_quiet (hr w List.mem_cons_self) ws s1
      exact (show Adds .consumer s.reached s (timeOf rest s1) s1 from e.symm ▸ h)
  next s1 w ws =>
    refine (show Adds .consumer s.reached s (timeOf (w :: ws ++ rest) s1) s1 from ?_)
    rw [timeOf_append _ _ (by simp)]
    exact h

theorem runEmissions_adds (l : List Emission) (s : State) : PieceAdds s (runEmissions l s) := by
  induction l generalizing s with
  | nil => exact Adds.refl _ _ (le_refl _)
  | cons e rest ih => exact afterPiece_adds (runEmission_adds e s) (emissions_quiet rest) ih

theorem verifyResult_adds (v : Option Value) (s : State) : PieceAdds s (verifyResult v s, []) := by
  unfold verifyResult
  split
  · split
    · exact PieceAdds.quiet rfl (le_refl _) [.log .verifyOk .success, .result _] (by simp; rfl) (by simp [Event.noWait])
    · exact PieceAdds.quiet rfl (le_refl _) [.log .verifyFailed .warning, .result _] (by simp; rfl) (by simp [Event.noWait])
  · exact PieceAdds.quiet rfl (le_refl _) [.log .verifyFailed .warning, .result _] (by simp; rfl) (by simp [Event.noWait])

theorem afterXact_adds (k : After) (v : Option Value) (s : State) : PieceAdds s (afterXact k v s) := by
  cases k with
  | read => exact PieceAdds.quiet rfl (le_refl _) [.result _] rfl (by simp [Event.noWait])
  | write => exact PieceAdds.quiet rfl (le_refl _) [.result _] rfl (by simp [Event.noWait])
  | verify => exact verifyResult_adds v s
  | emit act rest ok => exact runWrites_adds act rest _ s

theorem applySample_adds (e : Sample) (s : State) :
    Adds .consumer s.reached s (applySample e s).1.reached (applySample e s).1 := by
  have hb := applySample_base e s
  refine Adds.quiet hb.param [] ?_ (by simp) hb.reached
  unfold applySample State.decodeNow
  dsimp only
  split <;> split <;> split <;> simp

theorem runSamples_adds (l : List Sample) (s : State) : PieceAdds s (runSamples l s) := by
  induction l generalizing s with
  | nil => exact Adds.refl _ _ (le_refl _)
  | cons e rest ih =>
    exact afterPiece_adds
      (afterPiece_adds (applySample_adds e s) (emissions_quiet _) (runEmissions_adds _)) (by simp [allQuiet, flightOf]) ih

theorem runDrain_adds (js : List Nat) (s : State) : PieceAdds s (runDrain js s) := by
  induction js generalizing s with
  | nil => exact PieceAdds.quiet rfl (le_refl _) [.result _] rfl (by simp [Event.noWait])
  | cons j js ih =>
    have h0 : Adds .consumer s.reached s (s.clearQueue j).reached (s.clearQueue j) :=
      Adds.quiet rfl [] (by simp) (by simp) (le_refl _)
    exact afterPiece_adds (afterPiece_adds h0 (by simp [allQuiet, flightOf]) (runSamples_adds (s.queue j))) (by simp [allQuiet, flightOf]) ih

theorem connectNow_adds (cfg : PortCfg) (s : State) : PieceAdds s (connectNow cfg s, []) := by
  unfold connectNow
  dsimp only
  split
  · exact PieceAdds.quiet rfl (le_refl _) [.result _] rfl (by simp [Event.noWait])
  · refine PieceAdds.quiet ?_ ?_ ([.portOpened cfg s.drawOpenOk.1] ++
      (if !s.drawOpenOk.1 then [.log (.error .openFailed) .error] else []) ++ [.result (.bool s.drawOpenOk.1)]) ?_ ?_
    · simp; split <;> simp
    · simp; split <;> simp
    · simp; split <;> simp
    · split <;> simp [Event.noWait]

/-- What a piece of the consumer's work adds, from the time up to which its waits are counted at its start. -/
theorem runItem_adds (w : Work) (s : State) :
    Adds .consumer (timeOf [w] s) s (timeOf (runItem w s).2 (runItem w s).1) (runItem w s).1 := by
  cases w with
  | xact x k =>
    have h1 := runXactN_adds 4 x s
    unfold runItem
    dsimp only [runXact]
    split
    next => exact Adds.refl _ _ (le_refl _)
    next x' s' e => rw [e] at h1; exact h1
    next v s' e => rw [e] at h1; exact PieceAdds.after h1 (afterXact_adds k v s')
  | emission e => exact runEmission_adds e s
  | samples l => exact runSamples_adds l s
  | drain js => exact runDrain_adds js s
  | connect cfg =>
    unfold runItem
    dsimp only
    split
    · exact connectNow_adds cfg s
    · exact Adds.refl _ _ (le_refl _)
  | disconnect =>
    unfold runItem
    dsimp only
    split
    · exact PieceAdds.quiet rfl (le_refl _) [.portClosed] rfl (by simp [Event.noWait])
    · exact Adds.refl _ _ (le_refl _)
  | posture => exact PieceAdds.quiet rfl (le_refl _) [] (by simp [posture]) (by simp)
  | join wake =>
    unfold runItem
    dsimp only
    split <;> exact Adds.refl _ _ (le_refl _)
  | done r => exact PieceAdds.quiet rfl (le_refl _) [.result r] rfl (by simp [Event.noWait])

/-- The consumer's work adds its waits to the time up to which they are counted, at every schedule. -/
theorem runWork_adds (ws : List Work) (s : State) (hq : tailQuiet ws) (h0 : s.con.todo = []) :
    Adds .consumer (timeOf ws s) s (countedTo .consumer (runWork ws s)) (runWork ws s) := by
  rw [countedTo_consumer]
  induction ws generalizing s with
  | nil => unfold runWork; rw [h0]; exact .refl _ _ (le_refl _)
  | cons w ws ih =>
    have h1 := runItem_adds w s
    have h2 := (runItem_base w s).todo
    have hw : timeOf (w :: ws) s = timeOf [w] s := by rw [← List.singleton_append, timeOf_append _ _ (by simp)]
    rw [hw]
    unfold runWork
    split
    next s1 l ls e =>
      rw [e] at h1 h2
      refine Adds.trans h1 (Adds.quiet (by simp) [] (by simp) (by simp) ?_)
      rw [timeOf_leave]
      refine (show _ ≤ timeOf (l :: ls ++ ws ++ s1.con.todo) s1 from ?_)
      rw [List.append_assoc, timeOf_append _ _ (by simp)]
    next s1 e =>
      rw [e] at h1 h2
      split
      · rw [h2, h0]; exact h1
      next w' ws' =>
        have hw' : ∀ s', timeOf (w' :: ws') s' = s'.reached := fun s' =>
          timeOf_quiet (hq w' List.mem_cons_self) ws' s'
        split
        next s2 e2 =>
          have h3 := ih s2 (fun w hw => hq w (List.mem_cons_of_mem _ hw)) (by rw [(proceed_frame e2).con, h2, h0])
          rw [hw' s2] at h3
          exact (Adds.trans h1 (proceed_adds e2)).trans h3
        next =>
          refine Adds.trans h1 (Adds.quiet (by simp) [] (by simp) (by simp) ?_)
          rw [timeOf_leave]
          refine (show _ ≤ timeOf (w' :: ws' ++ s1.con.todo) s1 from ?_)
          rw [timeOf_append _ _ (by simp), hw']
          exact le_refl _

end Sys2Proof.Machine
end

