-- ==== Sys2Proof/Tests/Slice0.lean ====
section
/-! SUPPORT. Tests with expected results from 95_test_vectors.md (each test names its vector), the smoke tests of the
well-formedness check, and for each statement with hypotheses a witness that meets them. -/

namespace Sys2Proof.Tests

open Sys2Proof.Machine

set_option Elab.async false -- the tests one after another: each waits for the kernel, and a thread for each is too many

/-! ### Set E of 95_test_vectors.md, and small states -/

def one (a : Addr) (v : Value) : WriteList := ⟨(a, v), []⟩

def setE : Params where
  deviceId := 1
  statusIndex := .listed
  regs := ⟨0x00, 0x04, 0x01, 0x02, 0x10, 0x11, 0x03, 0x05, 0x12, 0x13, 0x14, 0x7E⟩
  actionWrites := ⟨one 0x01 1, one 0x01 2, one 0x02 1, one 0x02 0, one 0x04 1, one 0x04 0⟩
  speed := [(5000, 10)]
  periodSrcM1 := 0x03
  periodSrcM2 := 0x05
  idCode := 0x5A
  cfg0 := ⟨0, 0, 0, false, false⟩
  drainOrder := []
  auxPresent := false
  flowPresent := true
  rateCb := true
  dataCb := true
  delays := ⟨⟨0, 49⟩, ⟨0, 199⟩, ⟨0, 99⟩, ⟨0, 0⟩, ⟨0, 0⟩⟩

/-- The construction state with set E. -/
def start : State :=
  { State.reset with
    param := setE
    t := { State.reset.t with deviceId := setE.deviceId }
    p := { State.reset.p with rateCb := setE.rateCb, dataCb := setE.dataCb }
    c := setE.cfg0 }

/-- Connected, with the replies the link will give. -/
def linked (replies : List (List Byte)) : State :=
  { start with
    t := { start.t with connected := true, portCfg := ⟨[0x70], 38400, 1 / 10⟩ }
    env := { start.env with txOk := replies.map fun _ => true, rx := replies.map RxDraw.bytes } }

/-- The automaton's state changed. -/
def State.withA (f : Automaton → Automaton) (s : State) : State := { s with a := f s.a }

/-- The configuration registers changed. -/
def State.withC (f : Cfg → Cfg) (s : State) : State := { s with c := f s.c }

/-- The time input, and the time reached. -/
def State.at (t : Time) (s : State) : State := { s with clock := t, reached := t }

/-- Decoded before at time 0, with the period 5000 known. -/
def known (s : State) : State := State.withA (fun a => { a with tPrev := some 0, periodM1 := some 5000 }) s

def isNext : Out → Bool
  | .next _ => true
  | .fault _ => false
  | .refused _ => false

/-- The next state satisfies the test. -/
def gives (o : Out) (p : State → Bool) : Bool :=
  match o with
  | .next t => p t
  | .fault _ => false
  | .refused _ => false

theorem next_of {o : Out} (h : isNext o = true) : ∃ t, o = .next t := by
  cases o with
  | next t => exact ⟨t, rfl⟩
  | fault f => cases h
  | refused r => cases h

theorem gives_of {o : Out} {p : State → Bool} (h : gives o p = true) : ∃ t, o = .next t ∧ p t = true := by
  cases o with
  | next t => exact ⟨t, rfl, h⟩
  | fault f => cases h
  | refused r => cases h

/-! ### Well-formedness: each check refuses an ill-formed term -/

theorem test_wf_negative_delay : (Instr.setcfg .startDelay (-1)).wf = false := by decide +kernel
theorem test_wf_negative_duration : (Instr.setcfg .purgeDuration (-1 / 2)).wf = false := by decide +kernel
theorem test_wf_fractional_pulses : (Instr.setcfg .purgePulses (1 / 2)).wf = false := by decide +kernel
theorem test_wf_negative_pulses : (Instr.setcfg .purgePulses (-1)).wf = false := by decide +kernel
theorem test_wf_boolean_two : (Instr.setcfg .backSpeedEn 2).wf = false := by decide +kernel
theorem test_wf_boolean_half : (Instr.setcfg .manualReturnEn (1 / 2)).wf = false := by decide +kernel
theorem test_wf_no_timeout : (Instr.connect ⟨[0x70], 38400, 0⟩).wf = false := by decide +kernel
theorem test_wf_read_crc : (Instr.readReq 1 0x03 0x21).wf = false := by decide +kernel
theorem test_wf_write_crc : (Instr.writeReq 1 0x10 5000 0x66).wf = false := by decide +kernel

/-! ### Decoding: words written out from the encodings of 30_encoding.md (operand bytes: log 6) -/

theorem test_decode_crc7 : decode .host [0x01, 4, 0xC0, 0x01, 0, 0, 0] = .ok (.crc7 [0xC0, 0, 0, 0]) := by decide +kernel
theorem test_decode_build : decode .host [0x02, 0x10, 1, 0x88, 0x27] = .ok (.build 0x10 true 5000) := by decide +kernel
theorem test_decode_parse : decode .host [0x03, 1, 0x00, 0x10, 7] = .ok (.parse [0] 0x10 7) := by decide +kernel
theorem test_decode_sdecode : decode .host [0x04, 0x12] = .ok (.sdecode 0x0012) := by decide +kernel
/-- R170: the data is 0 where it is omitted. -/
theorem test_decode_build_omitted : decode .host [0x02, 0x10, 0] = .ok (.build 0x10 false 0) := by decide +kernel
/-- R203: the rate is 38400 where it is omitted (here a 0 in its place, log 6); a named rate is one less than its number. -/
theorem test_decode_connect : decode .host [0x10, 1, 0x70, 0, 0, 9] = .ok (.connect ⟨[0x70], 38400, 1 / 10⟩) ∧
    decode .host [0x10, 1, 0x70, 0x81, 0x4B, 0, 9] = .ok (.connect ⟨[0x70], 9600, 1 / 10⟩) := by decide +kernel
theorem test_decode_disconnect : decode .host [0x11] = .ok .disconnect := by decide +kernel
theorem test_decode_isconn : decode .host [0x12] = .ok .isconn := by decide +kernel
theorem test_decode_rdreg : decode .host [0x13, 0x7F] = .ok (.rdreg 0x7F) := by decide +kernel
theorem test_decode_wrreg : decode .host [0x14, 0x10, 0x88, 0x27] = .ok (.wrreg 0x10 5000) := by decide +kernel
theorem test_decode_pconfig : decode .host [0x20, 2, 0x00, 0x03] = .ok (.pconfig [0x00, 0x03]) := by decide +kernel
theorem test_decode_pstart : decode .host [0x21] = .ok .pstart := by decide +kernel
theorem test_decode_pstop : decode .host [0x22] = .ok .pstop := by decide +kernel
theorem test_decode_decode : decode .host [0x30, 0x02] = .ok (.decode 0x0002) := by decide +kernel
theorem test_decode_period : decode .host [0x31, 0, 0x88, 0x27] = .ok (.period .m1 5000) := by decide +kernel
theorem test_decode_arm : decode .host [0x32, 1] = .ok (.arm true) := by decide +kernel
theorem test_decode_cancel : decode .host [0x33] = .ok .cancel := by decide +kernel
theorem test_decode_purge : decode .host [0x34] = .ok .purge := by decide +kernel
theorem test_decode_ppend : decode .host [0x35, 0] = .ok (.ppend false) := by decide +kernel
theorem test_decode_setcfg : decode .host [0x36, 0, 0, 1, 1] = .ok (.setcfg .startDelay (1 / 2)) := by decide +kernel
theorem test_decode_verify : decode .host [0x37] = .ok .verify := by decide +kernel
theorem test_decode_drain : decode .host [0x38] = .ok .drain := by decide +kernel

/-- R115 with id 1 and address 3 (V29f): 11 0 00 001, 0 0000011, 0, 0, 0 0100000. -/
theorem test_decode_read_request :
    decode .tx [0b11000001, 0b00000011, 0b00000000, 0b00000000, 0b00100000] = .ok (.readReq 1 0x03 0x20) := by
  decide +kernel

/-- R116 (V24): 11 1 11 000, 0 0000101, 0 1111111, 0 1111111, 0 1110111. -/
theorem test_decode_write_request :
    decode .tx [0b11111000, 0b00000101, 0b01111111, 0b01111111, 0b01110111] = .ok (.writeReq 0 0x05 0xFFFF 0x77) := by
  decide +kernel

/-- R117 (V36b): bit 7 of b3 set. -/
theorem test_decode_response :
    decode .rx [0b11100001, 0b00010000, 0b10100111, 0b00001000, 0b00110100] =
      .ok (.response true 1 0x10 5000 0x34 false true false false) := by decide +kernel

/-- The host's numbering: bit 0 of a table word is bit 0 of b1. -/
theorem test_table_word : decodeTableWord 40 0x20000003C1 = some (.readReq 1 0x03 0x20) ∧
    decodeTableWord 8 0x38 = some .drain ∧ decodeTableWord 8 0x05 = none := by decide +kernel

/-! ### Refusals (V130-V135, V113, V116) -/

theorem test_illegal_opcode : decode .host [0x05] = .error .illegalCommand ∧
    decode .host [0xFF] = .error .illegalCommand := by decide +kernel
theorem test_illegal_address : decode .host [0x13, 0x80, 0x01] = .error .illegalOperand := by decide +kernel
theorem test_build_address_masked : decode .host [0x02, 0x80, 0x01, 0, 0] = .ok (.build 0x80 false 0) := by decide +kernel
theorem test_illegal_word : decode .host [0x30, 0x80, 0x80, 0x04] = .error .illegalOperand := by decide +kernel
theorem test_illegal_motor : decode .host [0x31, 2, 0] = .error .illegalOperand := by decide +kernel

/-! ### CRC7, BUILD, PARSE, SDECODE -/

/-- V1, V12. -/
theorem test_crc7 : crc7 [0xC0, 0, 0, 0] = 0x52 ∧
    crc7 [0x31, 0x32, 0x33, 0x34, 0x35, 0x36, 0x37, 0x38, 0x39] = 0x75 := by decide +kernel
/-- V20, V29. -/
theorem test_build : (build 1 0x10 true 5000).bytes = [0xE1, 0x10, 0x27, 0x08, 0x67] ∧
    (build 7 0x7F true 0xABCD).bytes = [0xF7, 0x7F, 0x57, 0x4D, 0x49] := by decide +kernel
/-- V29d: the address is masked, in the command. -/
theorem test_build_masks : gives (exec (.build 0x80 false 0) start) (fun t => t.result ==
    some (.frame ⟨0xC1, 0x00, 0x00, 0x00, 0x51⟩)) = true := by decide +kernel
/-- V34, V36, V36b, V39. -/
theorem test_parse : parse [0xE1, 0x10, 0x27, 0x08, 0xE7] 0x10 1 = some 5000 ∧
    parse [0xE1, 0x90, 0x27, 0x08, 0x67] 0x10 1 = none ∧ parse [0xE1, 0x10, 0xA7, 0x08, 0x34] 0x10 1 = some 5000 ∧
    parse [0xC1, 0x10, 0x27, 0x08, 0x07, 0x00] 0x10 1 = none := by decide +kernel
/-- V53, V57. -/
theorem test_sdecode : decodeStatus .listed 0x0012 = { begBlk := true, m1Back := true } ∧
    decodeStatus .listed 0x0401 = { start := true, ping := true } := by decide +kernel

/-! ### The transport (L2.5) -/

/-- V61. -/
theorem test_rdreg : gives (exec (.rdreg 0x03) (linked [[0xC1, 0x03, 0x27, 0x08, 0x2B]])) (fun t =>
    t.result == some (.value (some 5000)) && t.out.contains (.tx .consumer [0xC1, 0x03, 0x00, 0x00, 0x20])) = true := by
  decide +kernel
/-- R12, R15: the settle delay has passed; with a short reply the receive timeout too. -/
theorem test_rdreg_takes_time :
    gives (exec (.rdreg 0x03) (linked [[0xC1, 0x03, 0x27, 0x08, 0x2B]])) (fun t => t.reached == 1 / 50) = true ∧
    gives (exec (.rdreg 0x03) (linked [[0xC1]])) (fun t => t.reached == 3 / 25) = true := by decide +kernel
/-- V63: a short read. -/
theorem test_rdreg_short : gives (exec (.rdreg 0x03) (linked [[0xC1, 0x03, 0x27]])) (fun t =>
    t.result == some (.value none) && t.out.contains (.log (.error .shortRead) .error)) = true := by decide +kernel
/-- V65a: the reply's data is not compared. -/
theorem test_wrreg : gives (exec (.wrreg 0x10 5000) (linked [[0xC1, 0x10, 0x00, 0x00, 0x0C]])) (fun t =>
    t.result == some (.bool true) && t.out.contains (.tx .consumer [0xE1, 0x10, 0x27, 0x08, 0x67])) = true := by
  decide +kernel
/-- V65b: Timeout, then the write's own report. -/
theorem test_wrreg_timeout : gives (exec (.wrreg 0x10 5000) (linked [[]])) (fun t => t.out.drop 4 ==
    [.log (.error .timeout) .error, .log (.write 0x10 5000) .error, .result (.bool false)]) = true := by decide +kernel
/-- V65e. -/
theorem test_connect_absent : gives (exec (.connect ⟨[0x70], 38400, 1 / 10⟩)
    { start with env := { start.env with openOk := [false] } }) (fun t => !t.t.connected &&
      t.out == [.portOpened ⟨[0x70], 38400, 1 / 10⟩ false, .log (.error .openFailed) .error, .result (.bool false)]) = true := by
  decide +kernel
/-- R203's example; the receive buffer holds what the environment says. -/
theorem test_connect : gives (exec (.connect ⟨[0x70], 38400, 1 / 10⟩)
    { start with env := { start.env with openOk := [true], connectRx := [[7]] } }) (fun t => t.t.connected &&
      t.t.rx == [7] && t.result == some (.bool true)) = true := by decide +kernel
/-- V65d. -/
theorem test_disconnect : gives (exec .disconnect { State.withA (fun a => { a with
      flags := { begBlk := true, m1Fwd := true }, position := 12, armed := true }) (linked []) with q := [[(0, 2)]] })
    (fun t => !t.t.connected && t.a.flags == {} && !t.a.armed && t.a.position == 12 && t.q == [[]]) = true := by
  decide +kernel
/-- R205's example. -/
theorem test_isconn : gives (exec .isconn start) (fun t => t.result == some (.bool false)) = true := by decide +kernel
/-- V117. -/
theorem test_verify : gives (exec .verify (linked [[0xC9, 0x7E, 0x34, 0x03, 0x3C]])) (fun t =>
    t.result == some (.version (some 3)) && t.out.contains (.tx .consumer [0xC1, 0x7E, 0x00, 0x00, 0x58])) = true := by
  decide +kernel
/-- V118. -/
theorem test_verify_code : gives (exec .verify (linked [[0xC1, 0x7E, 0x24, 0x03, 0x1D]])) (fun t =>
    t.result == some (.version none) && t.out.contains (.log .verifyFailed .warning) && t.t.connected) = true := by
  decide +kernel
/-- The frame of V61 handed to the transmit side. -/
theorem test_read_request : gives (exec (.readReq 1 0x03 0x20) (linked [[0xC1, 0x03, 0x27, 0x08, 0x2B]])) (fun t =>
    t.result == some (.value (some 5000)) && t.out.contains (.tx .consumer [0xC1, 0x03, 0x00, 0x00, 0x20])) = true := by
  decide +kernel
/-- The frame of V65 handed to the transmit side. -/
theorem test_write_request : gives (exec (.writeReq 1 0x10 5000 0x67) (linked [[0xE1, 0x10, 0x27, 0x08, 0x67]])) (fun t =>
    t.result == some (.bool true) && t.out.contains (.tx .consumer [0xE1, 0x10, 0x27, 0x08, 0x67])) = true := by
  decide +kernel
/-- V36a's bytes, in order, behind what is there (R209). -/
theorem test_response : gives (exec (.response true 1 0x10 5000 0x22 true false false false) (start.setRx [9])) (fun t =>
    t.t.rx == [9, 0xE1, 0x90, 0x27, 0x08, 0x22]) = true := by decide +kernel

/-! ### The poller (L2.6) -/

/-- A poller about to read entry `i`. -/
def polling (i : Nat) (s : State) : State :=
  { s with p := { s.p with config := some [(0x00, 0), (0x03, 1)], running := true, alive := true, ctl := .read i
                           passT0 := some 0 }
           q := [[], []] }

/-- V70. -/
theorem test_push : ((List.range 15).map fun k => ((0x00, BitVec.ofNat 16 (k + 1)) : Sample)).foldl
    (fun q e => pushSample e q) [] = (List.range 10).map fun k => (0x00, BitVec.ofNat 16 (k + 6)) := by decide +kernel
/-- V72. -/
theorem test_pconfig_running : gives (exec (.pconfig [0x00]) (polling 0 start)) (fun t =>
    t.result == some (.bool false) && t.p.config == some [(0x00, 0), (0x03, 1)]) = true := by decide +kernel
/-- R230: an address twice has two queues. -/
theorem test_pconfig_twice : gives (exec (.pconfig [0x05, 0x05]) start) (fun t =>
    t.p.config == some [(0x05, 0), (0x05, 1)] && t.q == [[], []]) = true := by decide +kernel
/-- V71. -/
theorem test_pstart_unconfigured : gives (exec .pstart start) (fun t => t.result == some (.bool false) && !t.p.alive) = true := by
  decide +kernel
/-- V77. -/
theorem test_pstart_running : gives (exec .pstart (polling 1 start)) (fun t => t.result == some (.bool false) &&
    t.p.ctl == .read 1) = true := by decide +kernel
/-- V78: a stop of a poller that has exited returns at once. -/
theorem test_pstop : gives (exec .pstop start) (fun t => t.result == some .unit) = true := by decide +kernel
/-- R232: while it lives the consumer waits. -/
theorem test_pstop_waits : gives (exec .pstop (polling 0 start)) (fun t => !t.p.running && t.p.alive && t.result == none &&
    !t.consumerCan) = true := by decide +kernel
/-- P5's first read: six steps of the poller. -/
theorem test_poller_reads : ((pollerSteps 6 (polling 0 (linked [[0xC1, 0x00, 0x00, 0x02, 0x43]]))).any fun t =>
    t.q == [[(0x00, 0x0002)], []] && t.p.ctl == .delay 0 && t.t.lock == none &&
      t.out.contains (.tx .poller [0xC1, 0x00, 0x00, 0x00, 0x51])) = true := by decide +kernel
/-- R241: at the end of a pass of two entries, with no more time passed than the waits make sure of, the rate reported is
2 * (1/50 + 1/100) seconds. -/
theorem test_pass_takes_time : (pollerSteps 15 (polling 0 { linked [[], []] with
      t := { (linked []).t with portCfg := ⟨[0x70], 38400, 0⟩ }, env := { (linked [[], []]).env with ticks := [0] } })).map
    (fun t => (t.p.ctl, t.out.filterMap fun e => match e with
      | .rate dt => some dt
      | _ => none)) = some (.read 0, [3 / 50]) := by decide +kernel
/-- V76. -/
theorem test_poller_backs_off : (pollerSteps 2 (polling 1 start)).map (fun t => (t.p.ctl, t.q, t.out)) =
    some (.read 1, [[], []], [.sleep .poller .backoff 1]) := by decide +kernel

/-! ### The decode step (L2.7) -/

/-- V80. -/
theorem test_decode_first : gives (exec (.decode 0x0008) (State.at 3 start)) (fun t =>
    t.a.position == 0 && t.a.elapsed == 0 && t.a.tPrev == some 3) = true := by decide +kernel
/-- V88: position 0, then -10; 5000, then the user's settings; the override is off again. -/
theorem test_decode_back_speed : gives (exec (.decode 0x0012) { State.at 1 (State.withC (fun c => { c with backSpeedEn := true })
      (State.withA (fun a => { a with position := 7 }) (known (linked [[], []])))) with
        env := { (linked [[], []]).env with userFwd := [one 0x10 8000] } })
    (fun t => t.a.position == -10 && !t.a.override && (t.out.filterMap fun e => match e with
      | .tx _ b => some b
      | _ => none) == [[0xE1, 0x10, 0x27, 0x08, 0x67], [0xE1, 0x10, 0x3E, 0x40, 0x21]]) = true := by decide +kernel

/-! ### The automaton's other commands (L2.8) -/

/-- V112. -/
theorem test_period : gives (exec (.period .m1 5000) start) (fun t => t.a.periodM1 == some 5000 && t.a.periodM2 == none &&
    t.out.length == 2) = true := by decide +kernel
/-- R340's example. -/
theorem test_arm : gives (exec (.arm true) start) (fun t => t.a.armed && t.a.armTime == 0 && t.a.armAux) = true := by
  decide +kernel
/-- V95: at exactly the delay. -/
theorem test_arm_fires : actionsOf (decodeStep setE ⟨1 / 2, 0, 0, false, false⟩ (1 / 2) 0x0000
    { start.a with armed := true, armTime := 0 }).2 = [.m1Fwd, .m2Fwd] := by decide +kernel
/-- V111. -/
theorem test_cancel : gives (exec .cancel (State.withA (fun a => { a with flags := { m1Fwd := true } }) start)) (fun t =>
    !t.a.armed && t.out == [.log .cancel .info, .result .unit]) = true := by decide +kernel
/-- P3's first line. -/
theorem test_purge : gives (exec .purge start) (fun t => t.a.purgeActive && t.a.purgeCount == 0 &&
    t.out == [.flowOpen, .log .purgeStart .info, .result .unit]) = true := by decide +kernel
/-- V114. -/
theorem test_purge_again : gives (exec .purge (State.withA (fun a => { a with purgeActive := true, purgeCount := 3 }) start))
    (fun t => t.a.purgeCount == 3 && t.out == [.result .unit]) = true := by decide +kernel
/-- V115. -/
theorem test_ppend : gives (exec (.ppend true) start) (fun t => t.a.purgePending && t.out.length == 2) = true := by decide +kernel
/-- R347's example, and V116. -/
theorem test_setcfg : gives (exec (.setcfg .startDelay (1 / 2)) start) (fun t => t.c.startDelay == 1 / 2) = true ∧
    gives (exec (.setcfg .startDelay (-1)) start) (fun t => t.c == start.c &&
      t.result == some (.refused .illegalOperand)) = true := by decide +kernel
/-- V119. -/
theorem test_drain_empty : gives (exec .drain start) (fun t => t.result == some (.samples []) && t.a == start.a) = true := by
  decide +kernel

/-- V120's start. -/
def drainable (order : List Nat) : State :=
  { State.at 1 (polling 0 start) with
    param := { setE with drainOrder := order }
    q := [[(0x00, 0x0002), (0x00, 0x000A)], [(0x03, 5000)]]
    env := { start.env with ticks := [0, 1 / 2] } }

/-- V120: no period is known at the second decode. V121: in the other order it is. -/
theorem test_drain : gives (exec .drain (drainable [])) (fun t => t.a.position == 0 && t.a.elapsed == 1 / 2 &&
      t.a.periodM1 == some 5000 && t.result == some (.samples [(0x00, 0x0002), (0x00, 0x000A), (0x03, 5000)])) = true ∧
    gives (exec .drain (drainable [1, 0])) (fun t => t.a.position == 5) = true := by decide +kernel

/-! ### One step of the machine -/

def isStuck : Out → Bool
  | .next _ => false
  | .fault .timeBackwards => true
  | .refused _ => false

/-- V101: no step. -/
theorem test_time_back : isStuck (step { State.withA (fun a => { a with tPrev := some 5 }) (State.at 5 start) with
    inbox := [⟨4, .host, [0x30, 0]⟩] }) = true := by decide +kernel
/-- V130: refused, and nothing of the state changes. -/
theorem test_step_refuses : gives (step { start with inbox := [⟨0, .host, [0x05]⟩] }) (fun t =>
    t.result == some (.refused .illegalCommand) && t.a == start.a && t.t == start.t) = true := by decide +kernel
/-- A placed word is what the next step runs. -/
theorem test_fetch : gives (step (start.withFetchWord 8 0x12)) (fun t => t.result == some (.bool false)) = true := by
  decide +kernel

/-! ### Witnesses: concrete values that meet the hypotheses of each statement, one per clause -/

/-- What a connected, undisturbed state is. -/
abbrev quiet : State := linked [[0xC1, 0x03, 0x27, 0x08, 0x2B]]

theorem quiet_ready : quiet.ready := ⟨rfl, rfl⟩
theorem start_ready : start.ready := ⟨rfl, rfl⟩

theorem witness_CrcIsLinear : ([0x80, 0x01] : List Byte).length = ([0xFF, 0x10] : List Byte).length := rfl
theorem witness_CrcDetectsOneBit : 0 < 8 ∧ 7 < 8 := by decide
/-- A time input equal to the previous decode step's is not earlier (BUILD, PARSE, the pure commands, PCONFIG, PSTART,
ARM, CANCEL, PERIOD, PPEND, SETCFG, DECODE, RequestFrameIsCommand). -/
theorem witness_timeOk : start.timeOk = true ∧
    (State.at 5 (State.withA (fun a => { a with tPrev := some 5 }) start)).timeOk = true := by decide +kernel
theorem witness_ParseRefusesMutations : ((1 : Addr) ≠ 0 ∧ (7 : DevId) ≠ 0) ∧ (0 < 8 ∧ 7 < 8) ∧
    ∃ f, build 0 0 true 0xFFFF = f ∧ (f.b5 ^^^ 0x7F).toNat % 0x80 ≠ f.b5.toNat % 0x80 ∧
      (f.b5 ^^^ 0x01).toNat % 0x80 ≠ f.b5.toNat % 0x80 :=
  ⟨by decide, by decide, _, rfl, by decide +kernel, by decide +kernel⟩
/-- No bytes, four, and five whose header, id, address and checksum fail in turn. -/
theorem witness_FailKindIsFirstCheck : ∀ r ∈ ([[], [0xC1, 0x10, 0x27, 0x08], [0x61, 0x10, 0x27, 0x08, 0x67],
      [0xE0, 0x10, 0x27, 0x08, 0x67], [0xE1, 0x11, 0x27, 0x08, 0x67], [0xE1, 0x10, 0x27, 0x08, 0x66]] : List (List Byte)),
    r.length ≤ 5 ∧ parse r 0x10 1 = none := by decide +kernel
theorem witness_StatusWordLayout : (0xF812 : Value).toNat % 2 ^ 11 = (0x0012 : Value).toNat % 2 ^ 11 := by decide
/-- RDREG, WRREG, VERIFY, RequestFramesComplete, DISCONNECT, DECODE, and PURGE's and CONNECT's first cases. -/
theorem witness_ready : quiet.timeOk = true ∧ quiet.ready ∧ quiet.t.connected = true :=
  ⟨by decide +kernel, quiet_ready, rfl⟩
theorem witness_RequestFrameIsCommand : (Instr.readReq start.t.deviceId 0x03 0x20).wf = true ∧
    (Instr.writeReq start.t.deviceId 0x10 5000 0x67).wf = true := by decide +kernel
theorem witness_TransactionsFrame : (∃ t, exec (.rdreg 0x03) quiet = .next t) ∧ (∃ t, exec (.wrreg 0x03 1) quiet = .next t) ∧
    (∃ t, exec .verify quiet = .next t) ∧ (∃ t, exec (.readReq 1 0x03 0x20) quiet = .next t) ∧
    ∃ t, exec (.writeReq 1 0x10 5000 0x67) quiet = .next t :=
  ⟨next_of (by decide +kernel), next_of (by decide +kernel), next_of (by decide +kernel), next_of (by decide +kernel),
    next_of (by decide +kernel)⟩
theorem witness_NotOpenFails : start.timeOk = true ∧ start.ready ∧ start.t.connected = false :=
  ⟨by decide +kernel, start_ready, rfl⟩
/-- A state with the work of the consumer and its turn, and another's after it. -/
def atWork (w : List Work) (lock : Option Agent) (s : State) : State :=
  { s.setLock lock with
    con := { todo := w, drained := [] }
    env := { s.env with sched := [.consumer, .poller] } }
/-- The lock held; each command's pieces with the lock free, at the same time and parameters, the request frames' with
another device id and checksum; any transaction not begun; and an action at a write, with either schedule. -/
theorem witness_ConsumerWaitsForLock : (start.setLock (some .poller)).timeOk = true ∧
    (start.setLock (some .poller)).t.lock = some .poller ∧ (0 : Time) < 1 / 10 ∧
    (∀ w ∈ ([[.xact (readXact 1 0x03) .read], [.xact (writeXact 1 0x10 5000) .write],
        [.xact (readXact 1 start.param.regs.verify) .verify],
        [.xact ⟨.read 0x03, readReqFrame 2 0x03 0x20, .acquire⟩ .read],
        [.xact ⟨.write 0x10 5000, writeReqFrame 2 0x10 5000 0x20, .acquire⟩ .write],
        [.connect ⟨[0x70], 38400, 1 / 10⟩], [.disconnect, .posture, .done .unit]] : List (List Work)),
      (atWork w none start).con.todo = w ∧ (atWork w none start).t.lock = none ∧ (atWork w none start).timeOk = true ∧
      (atWork w none start).t.deviceId = start.t.deviceId ∧ (atWork w none start).param = start.param ∧
      (atWork w none start).env.sched = [.consumer, .poller]) ∧
    (writeXact 1 0x01 1).phase = .acquire ∧
    (∀ w ∈ [[Work.xact (writeXact 1 0x01 1) (.emit .m1Fwd [(0x02, 1)] true), .done .unit]],
      (atWork w (some .poller) start).con.todo = w) ∧
    ((start.setLock (some .poller)).env.sched = [] ∧ (atWork [] (some .poller) start).env.sched = [.consumer, .poller] ∧
      (atWork [] (some .poller) start).t.lock = some .poller) := by decide +kernel
/-- Where the consumer waits for the lock that the poller holds, DECODE's action has stopped at its write. -/
theorem test_action_waits : gives (step { atWork [.emission (.act .m1Fwd)] (some .poller) start with
      env := { start.env with sched := [.consumer] } }) (fun t =>
    t.con.todo == [.xact (writeXact 1 0x01 1) (.emit .m1Fwd [] true)] && t.consumerCan == false && t.out == start.out) = true := by
  decide +kernel
/-- Each clause, for RDREG, WRREG, VERIFY, and an action's last write and one before it: before the lock, with the lock,
in the settle delay and at the reply, which comes whole; and not connected, with a request that fails, and with a receive
that does. -/
theorem witness_InterruptedTransactionGoesOn :
    ∀ k ∈ [After.read, .write, .verify, .emit .m1Fwd [] true, .emit .m1Fwd [(0x01, 1)] true],
      (∀ ph ∈ [XPhase.acquire, .send, .settle (1 / 50), .receive (1 / 10)],
        let s := atWork [.xact ⟨.read 0x03, build 1 0x03 false 0, ph⟩ k, .done .unit]
          (if ph = .acquire then none else some .consumer) quiet
        s.timeOk = true ∧ s.env.sched = .consumer :: .poller :: [] ∧ Turn.poller ≠ .consumer ∧ s.t.connected = true ∧
        s.drawTxOk.1 = true ∧ s.drawRx.1 = .bytes [0xC1, 0x03, 0x27, 0x08, 0x2B]) ∧
      let ends (ph : XPhase) := atWork [.xact ⟨.read 0x03, build 1 0x03 false 0, ph⟩ k, .done .unit] (some .consumer)
      (ends .send start).t.connected = false ∧
      (ends .send { quiet with env := { quiet.env with txOk := [false] } }).drawTxOk.1 = false ∧
      (ends (.receive 1) { quiet with env := { quiet.env with rx := [.fails] } }).drawRx.1 = .fails := by decide +kernel
/-- Each other piece, with more behind it and another's turn next; and an action's writes. -/
theorem witness_InterruptedTransactionGoesOn_pieces :
    (∀ w ∈ [Work.emission (.act .m1Fwd), .emission .logPurgeStart, .emission .flowOpen, .emission .flowStart,
        .emission .auxStart, .emission .auxEnd, .drain [0, 1], .drain [], .samples [(0x00, 0x0002)], .samples [],
        .connect ⟨[0x70], 38400, 1 / 10⟩, .disconnect, .posture, .join 1, .done .unit],
      let s := atWork [w, .done .unit] none start
      s.timeOk = true ∧ s.env.sched = .consumer :: .poller :: [] ∧ s.con.todo = w :: [.done .unit] ∧ s.t.lock = none ∧
      s.p.alive = false) ∧
    (actionWrites .m1Fwd start).1 = (0x01, 1) :: [] ∧ start.con.todo = [] ∧ start.a.purgeActive = false ∧
    (0 : Time) < 1 / 10 := by decide +kernel
/-- R350: turn about with the poller, DRAIN empties its first queue at its turn, and goes on with its samples. -/
theorem test_drain_goes_on : gives (step (atWork [.drain [0, 1]] none (drainable []))) (fun t =>
    t.q == [[], [(0x03, 5000)]] && t.con.todo == [.samples [(0x00, 0x0002), (0x00, 0x000A)], .drain [1]]) = true := by
  decide +kernel
/-- Each clause: a timeout of 0 and one above it, connected, and not connected with either answer of the port. -/
theorem witness_ConnectCompletes : (PortCfg.mk [0x70] 38400 0).timeout ≤ 0 ∧ 0 < (PortCfg.mk [0x70] 38400 (1 / 10)).timeout ∧
    (quiet.timeOk = true ∧ quiet.ready ∧ quiet.t.connected = true) ∧
    ∀ ok : Bool, ∃ s : State, s.timeOk = true ∧ s.ready ∧ s.t.connected = false ∧ s.drawOpenOk.1 = ok := by
  refine ⟨le_refl _, by decide +kernel, ⟨by decide +kernel, ⟨rfl, rfl⟩, rfl⟩, fun ok => ?_⟩
  exact ⟨{ start with env := { start.env with openOk := [ok] } }, by cases ok <;> decide +kernel, ⟨rfl, rfl⟩, rfl, rfl⟩
theorem witness_PconfigCompletes : ((polling 0 start).p.running = true ∧ (polling 0 start).timeOk = true) ∧
    start.p.running = false ∧ start.p.alive = false ∧ ([0x05, 0x05] : List Addr) ≠ [] := by decide +kernel
/-- Configured and stopped; and unconfigured (`start`). -/
theorem witness_PstartCompletes : ∃ s : State, s.timeOk = true ∧ s.p.config ≠ none ∧ s.p.running = false ∧
    s.p.alive = false ∧ start.p.config = none :=
  ⟨{ start with p := { start.p with config := some [(0, 0)] } }, by decide +kernel⟩
theorem witness_PstopCompletes : ((polling 0 start).timeOk = true ∧ (polling 0 start).p.alive = true) ∧
    start.p.alive = false ∧ (polling 0 start).env.sched = [] ∧ (polling 0 start).con.todo = [] := by decide +kernel
theorem witness_PushKeepsNewestTen : (List.replicate 10 ((0, 0) : Sample)).length ≤ queueCap := by decide
/-- The poller at each of its control states. -/
def pollerAt (ctl : PollCtl) (io : PollIo) (running connected : Bool) : State :=
  { polling 0 start with
    p := { (polling 0 start).p with ctl := ctl, io := io, running := running }
    t := { start.t with connected := connected } }
theorem witness_PollerControl : ∀ s ∈ [pollerAt (.read 0) .idle false false, pollerAt (.read 1) .idle true false,
      pollerAt (.read 1) .idle true true, pollerAt (.read 0) (.got (some 5)) true true,
      pollerAt (.read 0) (.got none) true true, pollerAt (.delay 1) (.asleep 1) true true, pollerAt .endPass .idle true true,
      pollerAt (.backoff 1) (.asleep 1) true true],
    s.p.alive = true ∧ s.p.config = some [(0x00, 0), (0x03, 1)] ∧ s.p.passT0 = some 0 ∧
      ([(0x00, 0), (0x03, 1)] : List (Addr × Nat))[1]? = some (0x03, 1) := by decide +kernel
/-- Inside its transaction: not connected; connected, with a request the link takes and one it refuses; in the settle delay;
at the reply; and with a receive that fails. -/
theorem witness_PollerControl_xact :
    let inside (ph : XPhase) (s : State) : State :=
      { s with p := (pollerAt (.read 1) (.xact ⟨.read 0x03, build 1 0x03 false 0, ph⟩) true true).p }
    (∀ ph ∈ [XPhase.send, .settle (1 / 50), .receive 1],
      (inside ph quiet).p.alive = true ∧ (inside ph quiet).p.config = some [(0x00, 0), (0x03, 1)] ∧
      (inside ph quiet).p.ctl = .read 1) ∧
    (inside .send start).t.connected = false ∧ (inside .send quiet).t.connected = true ∧
    (inside .send quiet).drawTxOk.1 = true ∧
    (inside .send { quiet with env := { quiet.env with txOk := [false] } }).drawTxOk.1 = false ∧
    (inside (.receive 1) quiet).drawRx.1 = .bytes [0xC1, 0x03, 0x27, 0x08, 0x2B] ∧
    (inside (.receive 1) { quiet with env := { quiet.env with rx := [.fails] } }).drawRx.1 = .fails := by decide +kernel
/-- The lock held by the consumer, and free. -/
theorem witness_PollerControl_lock : let s := pollerAt (.read 1) (.xact (readXact 1 0x03)) true true
    s.p.alive = true ∧ s.p.io = .xact (readXact 1 0x03) ∧ (readXact 1 0x03).phase = .acquire ∧
      (s.setLock (some .consumer)).t.lock = some .consumer ∧ s.t.lock = none := by decide +kernel
theorem witness_PollerReadsRegister : let s := polling 1 quiet
    s.p.alive = true ∧ s.p.running = true ∧ s.p.config = some [(0x00, 0), (0x03, 1)] ∧ s.p.ctl = .read 1 ∧
      s.p.io = .idle ∧ s.t.connected = true ∧ s.t.lock = none := by decide +kernel
theorem witness_PollerIsolation : ∃ t, pollerStep (polling 0 quiet) = some t :=
  Option.isSome_iff_exists.1 (by decide +kernel)
theorem witness_PollerExitsOnlyAtFlagCheck : (pollerAt (.read 0) .idle false false).p.alive = true ∧
    ∃ t, step (pollerAt (.read 0) .idle false false) = .next t ∧ t.p.alive = false := by
  obtain ⟨t, h1, h2⟩ := gives_of (o := step (pollerAt (.read 0) .idle false false)) (p := fun t => !t.p.alive)
    (by decide +kernel)
  exact ⟨rfl, t, h1, by simpa using h2⟩
/-- No auxiliary peer is attached; the flow sensor is. -/
theorem witness_EmissionsPerform : start.param.auxPresent = false ∧ start.param.flowPresent = true ∧
    Machine.Action.m2Stop ≠ .applyFwd := by decide +kernel
theorem witness_ActionAttemptsEveryWrite : (quiet.ready ∧ quiet.t.connected = true) ∧ start.ready ∧
    start.t.connected = false := ⟨⟨quiet_ready, rfl⟩, start_ready, rfl⟩
/-- A run that issues the pair. -/
theorem witness_ManualStartFiresOnce : actionsOf (decodeRun setE ⟨1 / 2, 0, 0, false, false⟩ [(1 / 2, 0x0000)]
    { start.a with armed := true, armTime := 0 }).2 = [] ++ .m1Fwd :: [.m2Fwd] := by decide +kernel
theorem witness_PositionIsTwenty : let a : Automaton := { start.a with periodM1 := some 5000 }
    a.periodM1 = some 5000 ∧ speedOf setE 5000 = 10 ∧ a.flags.begBlk = false ∧ a.flags.m1Fwd = false ∧
      a.flags.m1Back = false ∧ (decodeStatus setE.statusIndex 0x0002).begBlk = true ∧
      (decodeStatus setE.statusIndex 0x0002).m1Fwd = false ∧ (decodeStatus setE.statusIndex 0x0002).m1Back = false ∧
      (∀ x ∈ [((1 : Time), (0x000A : Value)), (2, 0x0008)], (decodeStatus setE.statusIndex x.2).m1Fwd = true ∧
        (decodeStatus setE.statusIndex x.2).m1Back = false) ∧ (2 : Time) - 0 = 2 := by decide +kernel
theorem witness_PurgeTogglesTwicePerPulse : start.a.purgeActive = false ∧ start.a.purgePending = false := ⟨rfl, rfl⟩
theorem witness_SetcfgCompletes : (0 : Rat) ≤ 0 ∧ (-1 / 2 : Rat) < 0 ∧ (3 : Rat) = ((3 : Nat) : Rat) ∧
    (∀ n : Nat, (-1 : Rat) ≠ n) ∧ (1 : Rat) = (if true then 1 else 0) ∧ ((2 : Rat) ≠ 0 ∧ (2 : Rat) ≠ 1) := by
  refine ⟨le_refl _, by norm_num, by norm_num, fun n h => ?_, by simp, by norm_num⟩
  have : (0 : Rat) ≤ n := Nat.cast_nonneg n
  rw [← h] at this
  norm_num at this
theorem witness_PurgeCompletes : (State.withA (fun a => { a with purgeActive := true }) start).a.purgeActive = true ∧
    (State.withA (fun a => { a with purgeActive := true }) start).ready ∧ start.a.purgeActive = false ∧ start.ready :=
  ⟨rfl, ⟨rfl, rfl⟩, rfl, start_ready⟩
theorem witness_DrainCompletes : (drainable [1, 0]).timeOk = true ∧ (drainable [1, 0]).ready ∧
    (drainOrder (drainable [1, 0]).param (drainable [1, 0]).p.config).Nodup :=
  ⟨by decide +kernel, ⟨rfl, rfl⟩, by decide +kernel⟩
theorem witness_DrainOrderVisitsEachQueueOnce :
    ([(0x05, 0), (0x05, 1)] : List (Addr × Nat)).map Prod.snd = List.range 2 ∧ setE.drainOrder = [] := ⟨rfl, rfl⟩
/-- An item at exactly the time input and the previous decode step, and a response on its way. -/
theorem witness_StepRunsDecoded : ∃ s : State, s.con.todo = [] ∧ s.inbox = [⟨5, .host, [0x12]⟩] ∧ s.clock ≤ 5 ∧
    s.a.tPrev = some 5 ∧ decode .host [0x12] = .ok .isconn ∧ s.env.sched = [.consumer] ∧
    s.linkIn = [[0xE1, 0x10, 0x27, 0x08, 0x67]] ∧
    decode .rx [0xE1, 0x10, 0x27, 0x08, 0x67] = .ok (.response true 1 0x10 5000 0x67 false false false false) :=
  ⟨{ State.at 5 (State.withA (fun a => { a with tPrev := some 5 }) start) with
      inbox := [⟨5, .host, [0x12]⟩], linkIn := [[0xE1, 0x10, 0x27, 0x08, 0x67]]
      env := { start.env with sched := [.consumer] } }, by decide +kernel⟩
theorem witness_StepRunsDecoded_device : decode .rx [0xE1, 0x10, 0x27, 0x08, 0x67] =
      .ok (.response true 1 0x10 5000 0x67 false false false false) ∧
    ∃ s : State, s.linkIn = [[0xE1, 0x10, 0x27, 0x08, 0x67]] ∧ s.env.sched = [.device] :=
  ⟨by decide +kernel, { start with
    linkIn := [[0xE1, 0x10, 0x27, 0x08, 0x67]], env := { start.env with sched := [.device] } }, rfl, rfl⟩
/-- Three bytes that are no frame. -/
theorem witness_StepRunsDecoded_bytes : decode .rx [0xE1, 0x10, 0x27] = .error .notAFrame ∧
    ∃ s : State, s.linkIn = [[0xE1, 0x10, 0x27]] ∧ s.env.sched = [.device] :=
  ⟨by decide +kernel, { start with linkIn := [[0xE1, 0x10, 0x27]], env := { start.env with sched := [.device] } }, rfl, rfl⟩
/-- The poller's turn with a step of the poller, with its turn given to the consumer, and with none; the consumer's given to
the poller, and with none of the poller; the device's with no bytes, and T_JOIN's with no stop; and nothing scheduled, each
kind of step the first. -/
theorem witness_StepRunsDecoded_turns :
    let alive (s : State) : State := { s with p := { s.p with alive := true, running := false, ctl := .read 0 } }
    let turn (l : List Turn) (s : State) : State := { s with env := { s.env with sched := l } }
    let can : State := { start with con := { start.con with todo := [.done .unit] } }
    let arrives : State := { start with linkIn := [[0xE1]] }
    (pollerStep (turn [.device] (alive start))).isSome = true ∧
    (pollerStep (turn [.device] can) = none ∧ (turn [.device] can).consumerCan = true) ∧
    (pollerStep (turn [.device] start) = none ∧ (turn [.device] start).consumerCan = false) ∧
    ((turn [.device] (alive start)).consumerCan = false ∧ (turn [.device] start).linkIn = []) ∧
    start.con.todo = [] ∧ start.env.sched = [] ∧
    (can.env.sched = [] ∧ can.consumerCan = true) ∧
    (arrives.env.sched = [] ∧ arrives.consumerCan = false ∧ arrives.linkIn ≠ []) ∧
    ((alive start).env.sched = [] ∧ (alive start).consumerCan = false ∧ (alive start).linkIn = [] ∧
      (pollerStep (alive start)).isSome = true) ∧
    (start.consumerCan = false ∧ start.linkIn = [] ∧ pollerStep start = none ∧ start.con.todo = []) := by decide +kernel
/-- R94, R201: at the poller's turn it takes the lock; while the consumer has it, the turn is the consumer's. -/
theorem test_turn_of_the_poller :
    let reads (lock : Option Agent) : State := { start.setLock lock with
      p := { start.p with alive := true, ctl := .read 0, io := .xact (readXact 1 0x03) }
      con := { start.con with todo := [.done .unit] }
      env := { start.env with sched := [.poller] } }
    gives (step (reads none)) (fun t => t.t.lock == some .poller && t.con.todo == [.done .unit]) = true ∧
    gives (step (reads (some .consumer))) (fun t => t.t.lock == some .consumer && t.con.todo == []) = true := by
  decide +kernel
/-- An item earlier than the time input, and than the previous decode step, with either schedule. -/
theorem witness_CommandsNeverTrap : (State.withA (fun a => { a with tPrev := some 5 }) start).timeOk = false ∧
    Instr.verify.port = .host ∧ (Instr.readReq 1 0x03 0x20).port ≠ .host ∧
    ∀ sched ∈ [[], [Turn.consumer, .poller]], ∃ s : State, s.env.sched = sched ∧ s.con.todo = [] ∧
      s.inbox = [⟨4, .host, [0x12]⟩] ∧ (4 : Time) < s.clock ∧ ∃ t, s.a.tPrev = some t ∧ (4 : Time) < t :=
  ⟨by decide +kernel, rfl, by decide, fun sched _ =>
    ⟨{ State.at 5 (State.withA (fun a => { a with tPrev := some 5 }) start) with
        inbox := [⟨4, .host, [0x12]⟩], env := { start.env with sched := sched } },
      rfl, rfl, rfl, (by decide +kernel : (4 : Time) < 5), 5, rfl, by decide +kernel⟩⟩
/-- With nothing scheduled, and with the consumer's turn next. -/
theorem witness_IllegalOpcodesRefused : ∀ sched ∈ [[], [Turn.consumer, .poller]],
    ∃ s : State, s.env.sched = sched ∧ s.con.todo = [] ∧ s.inbox = [⟨0, .host, [0x39]⟩] ∧ s.clock ≤ 0 ∧ s.a.tPrev = none ∧
    decode .host [0x39] = .error .illegalCommand := fun sched _ =>
  ⟨{ start with inbox := [⟨0, .host, [0x39]⟩], env := { start.env with sched := sched } }, rfl, rfl, rfl, le_refl _, rfl,
    by decide +kernel⟩
theorem witness_IllegalOperandsRefused : 128 ≤ 128 ∧ 127 < 128 ∧ 2 ^ 16 ≤ 65536 ∧ 65535 < 2 ^ 16 ∧ 8 ≤ 8 ∧ 7 < 8 ∧ 2 ≤ 2 ∧
    256 ≤ 256 ∧ 255 < 256 ∧ 5 ≤ 5 ∧ (-1 / 2 : Rat) < 0 ∧ (0 : Rat) ≤ 0 ∧ (0 : Rat) < 1 / 10 := by decide +kernel
theorem witness_DecodeEncodeAgree : (Instr.setcfg .purgePulses 3).wf = true ∧ (Instr.writeReq 1 0x10 5000 0x67).wf = true ∧
    (Instr.connect ⟨[0x70], 38400, 1 / 10⟩).wf = true := by decide +kernel

/-- The poller inside its transaction, its request sent, and the consumer's command waiting for the lock. -/
def contended : State :=
  { (polling 0 quiet).setLock (some .poller) with
    p := { (polling 0 quiet).p with io := .xact ⟨.read 0x00, build 1 0x00 false 0, .settle (1 / 50)⟩ }
    con := { todo := [.xact (writeXact 1 0x10 5000) .write], drained := [] }
    out := [.flush .poller, .tx .poller [0xC1, 0x00, 0x00, 0x00, 0x51]] }

theorem witness_LinkInvariantKept : LinkInv contended ∧ ∃ t, step contended = .next t := by
  refine ⟨⟨?_, ?_, rfl, Or.inr rfl⟩, next_of (by decide +kernel)⟩
  · exact ⟨rfl, by decide +kernel⟩
  · intro w hw
    cases hw
/-- Two configured queues, one of them full, and a push to it to come. -/
theorem witness_QueueInvariantKept : ∃ s : State, queuesBounded s ∧ queuesConfigured s ∧ ∃ t, step s = .next t := by
  refine ⟨{ pollerAt (.read 1) (.got (some 9)) true true with q := [[], List.replicate 10 (0x03, 5000)] }, ?_, ?_,
    next_of (by decide +kernel)⟩
  · intro l hl
    have : l = [] ∨ l = List.replicate 10 (0x03, 5000) := by simpa using hl
    rcases this with rfl | rfl <;> decide
  · refine ⟨rfl, rfl, ?_⟩
    intro j e he x hx
    match j with
    | 0 => cases hx
    | 1 =>
      have he' : e = (0x03, 1) := by
        have h : some ((0x03, 1) : Addr × Nat) = some e := he
        exact (Option.some.inj h).symm
      have hx' : x ∈ List.replicate 10 ((0x03, 5000) : Sample) := hx
      rw [he', (List.mem_replicate.1 hx').2]
    | j + 2 => cases hx
/-- For the link's invariant `witness_LinkInvariantKept`: there the poller ends a wait. -/
theorem witness_TimeInvariantKept : thresholdsOk (known start) ∧ timesOk (known start) ∧ ∃ t, step (known start) = .next t := by
  refine ⟨⟨le_refl _, le_refl _⟩, ⟨?_, le_refl _⟩, next_of (by decide +kernel)⟩
  intro t ht
  cases ht
  exact le_refl _
theorem witness_StepKeepsConstants : ∃ t, step contended = .next t := next_of (by decide +kernel)
/-- Each kind of write does happen: the flags by DECODE, C by SETCFG, the connection by DISCONNECT, the configuration by
PCONFIG, the run flag by PSTOP, the queues by DRAIN. -/
theorem witness_OnlyTheseCommandsWrite :
    gives (exec (.decode 0x0002) start) (fun t => t.a.flags != start.a.flags) = true ∧
    gives (exec (.setcfg .purgePulses 3) start) (fun t => t.c != start.c) = true ∧
    gives (exec .disconnect quiet) (fun t => t.t.connected != quiet.t.connected) = true ∧
    gives (exec (.pconfig [0x05]) start) (fun t => t.p.config != start.p.config) = true ∧
    gives (exec .pstop (polling 0 start)) (fun t => t.p != (polling 0 start).p) = true ∧
    gives (exec .drain (drainable [])) (fun t => t.q != (drainable []).q) = true := by decide +kernel

end Sys2Proof.Tests
end

section
/-! What the machine can do in one step, said once: what a meaning makes of a state, what the poller does, what a turn
does. An invariant of every step is then one lemma about each. -/

namespace Sys2Proof.Machine

/-! ### The meanings of the instructions -/

/-- What the meaning of an instruction makes of a state: a result alone, one change of one part of the state with its
report, work for the consumer, or bytes in the receive buffer. -/
inductive Effect (s : State) : State → Prop
  | report (r : Result) : Effect s (s.deliver r)
  /-- PERIOD, ARM, CANCEL, PPEND. -/
  | automaton (a : Automaton) (k : LogKind) (sev : Severity) (ht : a.tPrev = s.a.tPrev) :
      Effect s (({ s with a := a }.log k sev).deliver .unit)
  | setcfg (f : CfgField) (v : Rat) (hv : cfgAccepts f v = true) :
      Effect s (({ s with c := cfgSet f v s.c }.log (.setConfig f) .info).deliver (.bool true))
  /-- PCONFIG with an empty list. -/
  | unconfigure (hr : s.p.running = false) (hl : s.p.alive = false) :
      Effect s ({ s with p := { s.p with config := none } }.deliver (.bool false))
  | pconfig (addrs : List Addr) (hr : s.p.running = false) (hl : s.p.alive = false) :
      Effect s ({ s with
        p := { s.p with config := some addrs.zipIdx }
        q := addrs.map (fun _ => []) }.deliver (.bool true))
  | pstart (hr : s.p.running = false) (hl : s.p.alive = false) :
      Effect s ({ s with p := { s.p with
        running := true, alive := true, ctl := .read 0, passT0 := some s.clock } }.deliver (.bool true))
  /-- Every command with work: DECODE and PURGE change A before it, PSTOP the run flag, DRAIN its collected samples. -/
  | work (ws : List Work) (a : Automaton) (running : Bool) (drained : List Sample) (hq : allQuiet ws)
      (ht : a.tPrev = s.a.tPrev ∨ a.tPrev = some s.clock) :
      Effect s (runWork ws { s with
        a := a, p := { s.p with running := running }, con := { s.con with drained := drained } })
  /-- A response. -/
  | arrive (l : List Byte) : Effect s (s.setRx (s.t.rx ++ l))

/-- Work that changes nothing before it begins. -/
theorem Effect.workOnly {s : State} {ws : List Work} (hq : allQuiet ws) : Effect s (runWork ws s) :=
  .work ws s.a s.p.running s.con.drained hq (.inl rfl)

theorem command_next {s t : State} {k : State → State} (h : command s k = .next t) : s.timeOk = true ∧ t = k s := by
  unfold command at h
  split at h
  next ht => cases h; exact ⟨ht, rfl⟩
  next => cases h

theorem allQuiet_singleton {w : Work} (h : flightOf [w] = none) : allQuiet [w] := by
  simpa [allQuiet] using h

theorem allQuiet.append {ws l : List Work} (h : allQuiet ws) (k : allQuiet l) : allQuiet (ws ++ l) :=
  List.forall_mem_append.2 ⟨h, k⟩

/-- What a decode step or PURGE puts out, and then its result. -/
theorem emissions_done_quiet (l : List Emission) (r : Result) : allQuiet (l.map Work.emission ++ [.done r]) :=
  (emissions_quiet l).append (allQuiet_singleton rfl)

theorem setPeriod_tPrev (m : Motor) (v : Value) (a : Automaton) : (setPeriod m v a).tPrev = a.tPrev := by
  cases m <;> rfl

theorem execConnect_effect {cfg : PortCfg} {s t : State} (h : execConnect cfg s = .next t) : Effect s t := by
  obtain ⟨-, rfl⟩ := command_next h
  split
  · exact .workOnly (allQuiet_singleton rfl)
  · exact .report _

theorem execPconfig_effect {addrs : List Addr} {s t : State} (h : execPconfig addrs s = .next t) : Effect s t := by
  obtain ⟨-, rfl⟩ := command_next h
  split
  · exact .report _
  next hp =>
    obtain ⟨hr, hl⟩ : s.p.running = false ∧ s.p.alive = false := by simpa using hp
    cases addrs with
    | nil => exact .unconfigure hr hl
    | cons b bs => exact .pconfig (b :: bs) hr hl

theorem execPstart_effect {s t : State} (h : execPstart s = .next t) : Effect s t := by
  obtain ⟨-, rfl⟩ := command_next h
  split
  · exact .report _
  · split
    · exact .report _
    next hp =>
      obtain ⟨hr, hl⟩ : s.p.running = false ∧ s.p.alive = false := by simpa using hp
      exact .pstart hr hl

theorem execSetcfg_effect {f : CfgField} {v : Rat} {s t : State} (h : execSetcfg f v s = .next t) : Effect s t := by
  obtain ⟨-, rfl⟩ := command_next h
  split
  next hv => exact .setcfg f v hv
  next => exact .report _

/-- All that the meaning of an instruction can do. -/
theorem exec_effect {i : Instr} {s t : State} (h : exec i s = .next t) : Effect s t := by
  cases i with
  | crc7 bytes => obtain ⟨-, rfl⟩ := command_next h; exact .report _
  | build address w data => obtain ⟨-, rfl⟩ := command_next h; exact .report _
  | parse resp addr dev => obtain ⟨-, rfl⟩ := command_next h; exact .report _
  | sdecode word => obtain ⟨-, rfl⟩ := command_next h; exact .report _
  | connect cfg => exact execConnect_effect h
  | disconnect => obtain ⟨-, rfl⟩ := command_next h; exact .workOnly (by simp [allQuiet, flightOf])
  | isconn => obtain ⟨-, rfl⟩ := command_next h; exact .report _
  | rdreg addr => obtain ⟨-, rfl⟩ := command_next h; exact .workOnly (allQuiet_singleton rfl)
  | wrreg addr value => obtain ⟨-, rfl⟩ := command_next h; exact .workOnly (allQuiet_singleton rfl)
  | pconfig addrs => exact execPconfig_effect h
  | pstart => exact execPstart_effect h
  | pstop =>
    obtain ⟨-, rfl⟩ := command_next (show execPstop s = .next t from h)
    exact .work _ s.a false s.con.drained (by simp [allQuiet, flightOf]) (.inl rfl)
  | decode word =>
    obtain ⟨-, rfl⟩ := command_next (show execDecode word s = .next t from h)
    exact .work _ _ s.p.running s.con.drained (emissions_done_quiet _ _) (.inr (decodeStep_tPrev ..))
  | period motor value =>
    obtain ⟨-, rfl⟩ := command_next (show execPeriod motor value s = .next t from h)
    exact .automaton (setPeriod motor value s.a) _ _ (setPeriod_tPrev ..)
  | arm aux => obtain ⟨-, rfl⟩ := command_next (show execArm aux s = .next t from h); exact .automaton _ _ _ rfl
  | cancel => obtain ⟨-, rfl⟩ := command_next (show execCancel s = .next t from h); exact .automaton _ _ _ rfl
  | purge =>
    obtain ⟨-, rfl⟩ := command_next (show execPurge s = .next t from h)
    exact .work _ _ s.p.running s.con.drained (emissions_done_quiet _ _) (.inl (purgeInit_tPrev ..))
  | ppend b => obtain ⟨-, rfl⟩ := command_next (show execPpend b s = .next t from h); exact .automaton _ _ _ rfl
  | setcfg field value => exact execSetcfg_effect h
  | verify => obtain ⟨-, rfl⟩ := command_next h; exact .workOnly (allQuiet_singleton rfl)
  | drain =>
    obtain ⟨-, rfl⟩ := command_next (show execDrain s = .next t from h)
    exact .work _ s.a s.p.running [] (allQuiet_singleton rfl) (.inl rfl)
  | readReq dev addr crc => cases h; exact .workOnly (allQuiet_singleton rfl)
  | writeReq dev addr data crc => cases h; exact .workOnly (allQuiet_singleton rfl)
  | response w dev addr data crc x y z v => cases h; exact .arrive _

/-! ### The poller -/

/-- What a step of the poller makes of a state (R234). -/
inductive PollMove (s : State) : State → Prop
  | exit (i : Nat) (hc : s.p.ctl = .read i) (hi : s.p.io = .idle) (hr : s.p.running = false) : PollMove s s.pollExit
  | backOff (i : Nat) (hc : s.p.ctl = .read i) (hi : s.p.io = .idle) (hr : s.p.running = true)
      (ht : s.t.connected = false) :
      PollMove s (s.setPoll (.backoff i) (.asleep (s.wakeAt .backoff)))
  | start (i : Nat) (e : Addr × Nat) (hc : s.p.ctl = .read i) (hi : s.p.io = .idle) (hr : s.p.running = true)
      (ht : s.t.connected = true) (he : s.pollEntry i = some e) :
      PollMove s (s.setPoll (.read i) (.xact (readXact s.t.deviceId e.1)))
  | more (i : Nat) (x x' : Xact) (s' : State) (hc : s.p.ctl = .read i) (hi : s.p.io = .xact x)
      (hx : xactStep .poller x s = .more x' s') :
      PollMove s (s'.setPoll s'.p.ctl (.xact x'))
  | done (i : Nat) (x : Xact) (v : Option Value) (s' : State) (hc : s.p.ctl = .read i) (hi : s.p.io = .xact x)
      (hx : xactStep .poller x s = .done v s') :
      PollMove s (s'.setPoll s'.p.ctl (.got v))
  | push (i : Nat) (e : Addr × Nat) (x : Value) (hc : s.p.ctl = .read i) (hi : s.p.io = .got (some x))
      (he : s.pollEntry i = some e) :
      PollMove s ((s.push e.2 (e.1, x)).setPoll (.delay i) (.asleep (s.wakeAt .interpoll)))
  | skip (i : Nat) (e : Addr × Nat) (hc : s.p.ctl = .read i) (hi : s.p.io = .got none) (he : s.pollEntry i = some e) :
      PollMove s (s.setPoll (.delay i) (.asleep (s.wakeAt .interpoll)))
  | wake (i : Nat) (wake : Time) (hc : s.p.ctl = .delay i) (hi : s.p.io = .asleep wake) :
      PollMove s ((s.sleep .poller .interpoll wake).setPoll
        (if i + 1 < (s.p.config.getD []).length then .read (i + 1) else .endPass) .idle)
  | endPass (hc : s.p.ctl = .endPass) (hi : s.p.io = .idle) : PollMove s (endPass s)
  | retry (i : Nat) (wake : Time) (hc : s.p.ctl = .backoff i) (hi : s.p.io = .asleep wake) :
      PollMove s ((s.sleep .poller .backoff wake).setPoll (.read i) .idle)

theorem xactStep_more_frame {g : Agent} {x x' : Xact} {s s' : State} (h : xactStep g x s = .more x' s') :
    LinkFrame s s' := by
  have hf := xactStep_frame g x s
  rw [h] at hf
  exact hf

theorem xactStep_done_frame {g : Agent} {x : Xact} {v : Option Value} {s s' : State}
    (h : xactStep g x s = .done v s') : LinkFrame s s' := by
  have hf := xactStep_frame g x s
  rw [h] at hf
  exact hf

theorem pollCheck_move {i : Nat} {s t : State} (hc : s.p.ctl = .read i) (hi : s.p.io = .idle)
    (h : pollCheck i s = some t) : PollMove s t := by
  unfold pollCheck at h
  split at h
  next hr => cases h; exact .exit i hc hi (by simpa using hr)
  next hr =>
    split at h
    next ht => cases h; exact .backOff i hc hi (by simpa using hr) (by simpa using ht)
    next ht =>
      obtain ⟨e, he, rfl⟩ := Option.map_eq_some_iff.1 h
      exact .start i e hc hi (by simpa using hr) (by simpa using ht) he

theorem pollPush_move {i : Nat} {v : Option Value} {s t : State} (hc : s.p.ctl = .read i) (hi : s.p.io = .got v)
    (h : pollPush i v s = some t) : PollMove s t := by
  obtain ⟨e, he, rfl⟩ := Option.map_eq_some_iff.1 h
  cases v with
  | some x => exact .push i e x hc hi he
  | none => exact .skip i e hc hi he

/-- All that a step of the poller can do. -/
theorem pollerStep_move {s t : State} (h : pollerStep s = some t) : s.p.alive = true ∧ PollMove s t := by
  unfold pollerStep at h
  split at h
  · cases h
  next ha =>
    refine ⟨by simpa using ha, ?_⟩
    split at h
    next i hc hi => exact pollCheck_move hc hi h
    next i x hc hi =>
      cases hx : xactStep .poller x s with
      | wait => rw [hx] at h; cases h
      | more x' s' => rw [hx] at h; cases h; exact .more i x x' s' hc hi hx
      | done v s' => rw [hx] at h; cases h; exact .done i x v s' hc hi hx
    next i v hc hi => exact pollPush_move hc hi h
    next i wake hc hi => cases h; exact .wake i wake hc hi
    next hc hi => cases h; exact .endPass hc hi
    next i wake hc hi => cases h; exact .retry i wake hc hi
    next => cases h

/-! ### A turn -/

/-- The consumer has taken an item: the time input is the item's. -/
def State.fetched (it : Item) (rest : List Item) (s : State) : State :=
  { s with inbox := rest, clock := it.now, reached := max s.reached it.now }

/-- The consumer goes on with its work, which it leaves again where it is interrupted. -/
def State.resumed (s : State) : State := { s with con := { s.con with todo := [] } }

/-- What a turn makes of a state. -/
inductive Move (s : State) : State → Prop
  | wait : Move s s
  | poller {t : State} (ha : s.p.alive = true) (h : PollMove s t) : Move s t
  | resume {w : Work} {ws : List Work} (hw : s.con.todo = w :: ws) (ht : s.timeOk = true) :
      Move s (runWork (w :: ws) s.resumed)
  | join {wake : Time} {ws : List Work} (hw : s.con.todo = .join wake :: ws) (ht : s.timeOk = true) :
      Move s (runWork ws (s.resumed.sleep .consumer .join wake))
  | fetch {it : Item} {rest : List Item} {t : State} (hw : s.con.todo = []) (hb : s.inbox = it :: rest)
      (hc : s.clock ≤ it.now) (ht : (s.fetched it rest).timeOk = true) (h : Effect (s.fetched it rest) t) : Move s t
  | device (l chunk : List Byte) (rest : List (List Byte)) (hl : s.linkIn = chunk :: rest) :
      Move s (({ s with linkIn := rest } : State).setRx (s.t.rx ++ l))

theorem fetchItem_move {it : Item} {rest : List Item} {s t : State} (hw : s.con.todo = []) (hb : s.inbox = it :: rest)
    (h : fetchItem it { s with inbox := rest } = .next t) : Move s t := by
  unfold fetchItem at h
  split at h
  · cases h
  next hlt =>
    have hc : s.clock ≤ it.now := not_lt.1 hlt
    dsimp only at h
    split at h
    next ht =>
      split at h
      · exact .fetch hw hb hc ht (exec_effect h)
      · cases h; exact .fetch hw hb hc ht (.report _)
    next => cases h

theorem consumerTurn_move {s t : State} (h : consumerTurn s = .next t) : Move s t := by
  unfold consumerTurn at h
  split at h
  next w ws hw =>
    split at h
    next ht => cases h; exact .resume hw ht
    next => cases h
  next hw =>
    split at h
    next it rest hb => exact fetchItem_move hw hb h
    next => cases h; exact .wait

/-- Only a response stands on the receive side. -/
theorem decodeRx_ok {l : List Byte} {i : Instr} (h : decodeRx l = .ok i) :
    ∃ w dev addr data crc x y z v, i = .response w dev addr data crc x y z v := by
  unfold decodeRx at h
  split at h
  · split at h
    · cases h
    · cases h; exact ⟨_, _, _, _, _, _, _, _, _, rfl⟩
  · cases h

theorem deviceTurn_move {s t : State} (h : deviceTurn s = .next t) : Move s t := by
  unfold deviceTurn at h
  split at h
  · cases h; exact .wait
  next chunk rest hl =>
    split at h
    next i hi =>
      obtain ⟨w, dev, addr, data, crc, x, y, z, v, rfl⟩ := decodeRx_ok hi
      cases h; exact .device _ chunk rest hl
    next => cases h; exact .device chunk chunk rest hl

theorem joinTurn_move {s t : State} (h : joinTurn s = .next t) : Move s t := by
  unfold joinTurn at h
  split at h
  next wake ws hw =>
    split at h
    next ht => cases h; exact .join hw ht
    next => cases h
  next => cases h; exact .wait

/-- The poller's step, or another turn where it has none. -/
theorem pollerTurn_move {s t : State} {other : Out} (ho : other = .next t → Move s t)
    (h : (match pollerStep s with | some s' => .next s' | none => other) = Host.Outcome.next t) : Move s t := by
  cases hp : pollerStep s with
  | some s' => rw [hp] at h; cases h; exact .poller (pollerStep_move hp).1 (pollerStep_move hp).2
  | none => rw [hp] at h; exact ho h

theorem wait_move {s t : State} (h : (.next s : Out) = .next t) : Move s t := by
  cases h; exact .wait

theorem turnStep_move {turn : Turn} {s t : State} (h : turnStep turn s = .next t) : Move s t := by
  cases turn with
  | poller =>
    refine pollerTurn_move (fun ho => ?_) h
    split at ho
    · exact consumerTurn_move ho
    · exact wait_move ho
  | consumer =>
    unfold turnStep at h
    dsimp only at h
    split at h
    · exact consumerTurn_move h
    · exact pollerTurn_move wait_move h
  | device => exact deviceTurn_move h
  | joinTimeout => exact joinTurn_move h

theorem unscheduledStep_move {s t : State} (h : unscheduledStep s = .next t) : Move s t := by
  unfold unscheduledStep at h
  split at h
  · exact consumerTurn_move h
  · split at h
    · exact deviceTurn_move h
    · exact pollerTurn_move wait_move h

/-- The schedule is `l`. -/
def State.withSched (l : List Turn) (s : State) : State := { s with env := { s.env with sched := l } }

/-- All that a step can do: a move, the turn it takes used up. -/
theorem step_move {s t : State} (h : step s = .next t) : ∃ l, Move (s.withSched l) t := by
  unfold step at h
  split at h
  · exact ⟨s.env.sched, unscheduledStep_move h⟩
  next turn rest _ => exact ⟨rest, turnStep_move h⟩

end Sys2Proof.Machine
end

section
/-! After reset (R57), and what no step changes (R30, R34, R42, R392, R406). -/

namespace Sys2Proof.Machine

/-! ### Reset -/

/-- R81: the addresses after reset, the free map's where it admits them. -/
theorem Config.regs_distinct : Config.regs.distinct = true := by
  unfold Config.regs
  split
  next h => exact h
  next => decide

theorem Config.params_ok : Config.params.ok = true := by
  have h1 : StatusIndex.listed.injective = true := by decide
  simp [Params.ok, Config.params, Config.cfg0, h1, Config.regs_distinct]

theorem reset_linkInv : LinkInv State.reset where
  link := ⟨rfl, rfl⟩
  quiet := by intro w hw; cases hw
  fits := rfl
  lives := .inl rfl

/-- Settles O54: the invariants speak of an empty machine, and the parameters' constraints are built into `Config.regs`,
`Config.cfg0` and `PosTime`. -/
theorem invariantsAtReset : Obligations.InvariantsAtReset := by
  refine ⟨reset_linkInv, ?_, trivial, ?_, ⟨?_, le_refl _⟩, Config.params_ok, ?_, delayBound_pos _⟩
  · intro l hl; cases hl
  · exact ⟨le_max_left _ _, le_max_left _ _⟩
  · intro t ht; cases ht
  · exact of_decide_eq_true Config.regs_distinct

/-- Settles O59: the record `State.reset` read field by field. -/
theorem resetValues : Obligations.ResetValues := by
  unfold Obligations.ResetValues
  simp [State.reset]

/-! ### What every step keeps -/

/-- What O57 says of a step. -/
structure StepFrame (s t : State) : Prop where
  param    : t.param = s.param
  deviceId : t.t.deviceId = s.t.deviceId
  rateCb   : t.p.rateCb = s.p.rateCb
  dataCb   : t.p.dataCb = s.p.dataCb
  clock    : s.clock ≤ t.clock
  reached  : s.reached ≤ t.reached
  out      : s.out <+: t.out

theorem RunFrame.toStep {s t : State} (h : RunFrame s t) : StepFrame s t :=
  ⟨h.param, h.deviceId, by rw [h.p], by rw [h.p], h.clock, h.reached, h.out⟩

theorem Effect.frame {s t : State} (h : Effect s t) : StepFrame s t := by
  cases h with
  | work ws a running drained hq ht =>
    obtain ⟨h1, h2, h3, h4, h5, h6, h7⟩ := (runWork_run ws _).toStep
    exact ⟨h1, h2, h3, h4, h5, h6, h7⟩
  | _ => constructor <;> simp

/-- What a step of the poller leaves alone (R240). -/
structure PollFrame (s t : State) : Prop extends StepFrame s t where
  config : t.p.config = s.p.config
  a      : t.a = s.a
  c      : t.c = s.c
  con    : t.con = s.con

/-- A step of the poller's transaction, and its new progress. -/
theorem LinkFrame.poll {s s' : State} (h : LinkFrame s s') (ctl : PollCtl) (io : PollIo) :
    PollFrame s (s'.setPoll ctl io) where
  param := h.param
  deviceId := h.deviceId
  rateCb := by simp [h.p]
  dataCb := by simp [h.p]
  clock := h.clock.ge
  reached := h.reached
  out := h.out
  config := by simp [h.p]
  a := h.a
  c := h.c
  con := h.con

theorem endPass_frame (s : State) : PollFrame s (endPass s) := by
  constructor
  case toStepFrame =>
    constructor
    case clock => exact s.clock_le_readNow
    case reached => exact s.reached_le_readNow
    all_goals simp [endPass]
  all_goals simp [endPass]

theorem PollMove.frame {s t : State} (h : PollMove s t) : PollFrame s t := by
  cases h with
  | more i x x' s' hc hi hx => exact (xactStep_more_frame hx).poll _ _
  | done i x v s' hc hi hx => exact (xactStep_done_frame hx).poll _ _
  | endPass hc hi => exact endPass_frame s
  | _ => exact ⟨by constructor <;> simp, by simp, by simp, by simp, by simp⟩

theorem Move.frame {s t : State} (h : Move s t) : StepFrame s t := by
  cases h with
  | wait => constructor <;> rfl
  | poller ha h => exact h.frame.toStepFrame
  | resume hw ht =>
    obtain ⟨h1, h2, h3, h4, h5, h6, h7⟩ := (runWork_run _ s.resumed).toStep
    exact ⟨h1, h2, h3, h4, h5, h6, h7⟩
  | @join wake ws hw ht =>
    obtain ⟨h1, h2, h3, h4, h5, h6, h7⟩ := (runWork_run ws (s.resumed.sleep .consumer .join wake)).toStep
    exact ⟨h1, h2, h3, h4, h5, (le_max_left _ _).trans h6, (List.prefix_append _ _).trans h7⟩
  | fetch hw hb hc ht h =>
    obtain ⟨h1, h2, h3, h4, h5, h6, h7⟩ := h.frame
    exact ⟨h1, h2, h3, h4, hc.trans h5, (le_max_left _ _).trans h6, h7⟩
  | device l chunk rest hl => constructor <;> simp

/-- Settles O57: each of the things a step can do keeps them (`Move.frame`). -/
theorem stepKeepsConstants : Obligations.StepKeepsConstants := by
  intro s t h
  obtain ⟨l, hm⟩ := step_move h
  obtain ⟨h1, h2, h3, h4, h5, h6, h7⟩ := hm.frame
  exact ⟨h1, h2, h3, h4, h5, h6, h7⟩

end Sys2Proof.Machine
end

section
/-! What the consumer's work keeps, at every schedule: one induction over the pieces for every predicate. Then the queues
(R43, R124, R230) and the times (R52, R386, R392). -/

namespace Sys2Proof.Machine

/-! ### Work, piece by piece -/

/-- The queues and their configuration, A and the time input are as they were, and the time reached is not earlier. -/
structure SameData (s s' : State) : Prop where
  config  : s'.p.config = s.p.config
  q       : s'.q = s.q
  a       : s'.a = s.a
  clock   : s'.clock = s.clock
  reached : s.reached ≤ s'.reached

theorem LinkFrame.data {s s' : State} (h : LinkFrame s s') : SameData s s' :=
  ⟨by rw [h.p], h.q, h.a, h.clock, h.reached⟩

theorem connectNow_data (cfg : PortCfg) (s : State) : SameData s (connectNow cfg s) := by
  unfold connectNow
  dsimp only
  split
  · constructor <;> simp
  · split <;> (constructor <;> simp)

/-- A predicate that the link's work cannot touch, and that the pieces of work beyond the link keep: DRAIN's changes of A
and Q, and R421's posture. -/
structure KeptByWork (P : State → Prop) : Prop where
  data    : ∀ {s s'}, SameData s s' → P s → P s'
  sample  : ∀ e {s}, P s → P (applySample e s).1
  clear   : ∀ j {s}, P s → P (s.clearQueue j)
  posture : ∀ {s}, P s → P (posture s)

section
variable {P : State → Prop} (hP : KeptByWork P)
include hP

theorem KeptByWork.link {s s' : State} (h : LinkFrame s s') (hs : P s) : P s' := hP.data h.data hs

theorem KeptByWork.afterPiece {r : State × List Work} {rest : List Work} {next : State → State × List Work}
    (hr : P r.1) (hn : ∀ s', P s' → P (next s').1) : P (afterPiece r rest next).1 := by
  unfold Machine.afterPiece
  split
  · split
    next s' e => exact hn s' (hP.link (proceed_frame e) hr)
    next => exact hr
  · exact hr

theorem KeptByWork.samples (l : List Sample) {s : State} (hs : P s) : P (runSamples l s).1 := by
  induction l generalizing s with
  | nil => exact hs
  | cons e rest ih =>
    exact hP.afterPiece (hP.afterPiece (hP.sample e hs) fun s' hs' => hP.link (runEmissions_frame _ s') hs')
      fun _ => ih

theorem KeptByWork.drain (js : List Nat) {s : State} (hs : P s) : P (runDrain js s).1 := by
  induction js generalizing s with
  | nil => exact hP.data (by constructor <;> simp [runDrain]) hs
  | cons j js ih => exact hP.afterPiece (hP.afterPiece (hP.clear j hs) fun _ => hP.samples _) fun _ => ih

theorem KeptByWork.item (w : Work) {s : State} (hs : P s) : P (runItem w s).1 := by
  cases w with
  | xact x k => exact hP.link (runItem_frame _ rfl s) hs
  | emission e => exact hP.link (runItem_frame _ rfl s) hs
  | samples l => exact hP.samples l hs
  | drain js => exact hP.drain js hs
  | connect cfg =>
    unfold runItem
    dsimp only
    split
    · exact hP.data (connectNow_data cfg s) hs
    · exact hs
  | disconnect =>
    unfold runItem
    dsimp only
    split
    · exact hP.data (by constructor <;> simp [disconnectNow]) hs
    · exact hs
  | posture => exact hP.posture hs
  | join wake =>
    unfold runItem
    dsimp only
    split <;> exact hs
  | done r => exact hP.link (runItem_frame _ rfl s) hs

theorem KeptByWork.leave (ws : List Work) {s : State} (hs : P s) : P (s.leave ws) :=
  hP.data (by constructor <;> simp) hs

/-- The consumer's work keeps what its pieces keep. -/
theorem KeptByWork.work (ws : List Work) {s : State} (hs : P s) : P (runWork ws s) := by
  induction ws generalizing s with
  | nil => exact hs
  | cons w ws ih =>
    have h := hP.item w hs
    unfold runWork
    split
    next s1 l ls e => rw [e] at h; exact hP.leave _ h
    next s1 e =>
      rw [e] at h
      split
      · exact h
      · split
        next s2 e2 => exact ih (hP.link (proceed_frame e2) h)
        next => exact hP.leave _ h

end

/-! ### One sample of a drain -/

theorem applySample_q (e : Sample) (s : State) : (applySample e s).1.q = s.q := by
  unfold applySample State.decodeNow
  dsimp only
  split <;> split <;> split <;> simp

theorem applySample_config (e : Sample) (s : State) : (applySample e s).1.p.config = s.p.config := by
  rw [(applySample_base e s).p]

/-! ### Queues -/

/-- R43, R124: both parts of the queues' invariant. -/
def QueuesOk (s : State) : Prop := queuesBounded s ∧ queuesConfigured s

theorem queuesBounded_iff {s : State} : queuesBounded s ↔ ∀ j, (s.queue j).length ≤ queueCap := by
  constructor
  · intro h j
    unfold State.queue
    cases hj : s.q[j]? with
    | none => simp
    | some l => exact h l (List.mem_of_getElem? hj)
  · intro h l hl
    obtain ⟨j, hj⟩ := List.mem_iff_getElem?.1 hl
    simpa [State.queue, hj] using h j

/-- The invariant is kept where each queue's samples were there, or come from its entry's address, and are not too many. -/
theorem QueuesOk.of_queues {s t : State} (h : QueuesOk s) (hc : t.p.config = s.p.config)
    (hl : t.q.length = s.q.length) (hb : ∀ j, (t.queue j).length ≤ queueCap)
    (hq : ∀ l, s.p.config = some l → ∀ j e, l[j]? = some e → ∀ x ∈ t.queue j, x ∈ s.queue j ∨ x.1 = e.1) :
    QueuesOk t := by
  refine ⟨queuesBounded_iff.2 hb, ?_⟩
  have h2 := h.2
  unfold queuesConfigured at h2 ⊢
  rw [hc]
  cases e : s.p.config with
  | none => trivial
  | some l =>
    rw [e] at h2
    obtain ⟨hids, hlen, haddr⟩ := h2
    refine ⟨hids, hl.trans hlen, fun j e' he x hx => ?_⟩
    rcases hq l e j e' he x hx with hx' | hx'
    · exact haddr j e' he x hx'
    · exact hx'

/-- No queue has gained a sample. -/
theorem QueuesOk.of_subset {s t : State} (h : QueuesOk s) (hc : t.p.config = s.p.config)
    (hl : t.q.length = s.q.length) (hq : ∀ j, t.queue j = s.queue j ∨ t.queue j = []) : QueuesOk t := by
  refine h.of_queues hc hl (fun j => ?_) fun l _ j e _ x hx => ?_
  · rcases hq j with h' | h' <;> rw [h']
    · exact queuesBounded_iff.1 h.1 j
    · exact Nat.zero_le _
  · rcases hq j with h' | h' <;> rw [h'] at hx
    · exact .inl hx
    · cases hx

theorem QueuesOk.of_eq {s t : State} (h : QueuesOk s) (hc : t.p.config = s.p.config) (hq : t.q = s.q) : QueuesOk t :=
  h.of_subset hc (by rw [hq]) fun j => .inl (by unfold State.queue; rw [hq])

theorem clearQueue_queue (i j : Nat) (s : State) :
    (s.clearQueue i).queue j = s.queue j ∨ (s.clearQueue i).queue j = [] := by
  unfold State.queue
  rw [State.clearQueue_q, List.getElem?_modify]
  by_cases hij : i = j
  · right; cases s.q[j]? <;> simp [hij]
  · left; simp [hij]

theorem posture_queue (j : Nat) (s : State) : (posture s).queue j = [] := by
  simp only [State.queue, posture, List.getElem?_map]
  cases s.q[j]? <;> rfl

/-- R230: the queues of a new configuration are empty. -/
theorem queuesOk_configured {s : State} {addrs : List Addr} (hc : s.p.config = some addrs.zipIdx)
    (hq : s.q = addrs.map fun _ => []) : QueuesOk s := by
  have he : ∀ j, s.queue j = [] := by
    intro j
    rw [State.queue, hq, List.getElem?_map]
    cases addrs[j]? <;> rfl
  refine ⟨queuesBounded_iff.2 fun j => by simp [he], ?_⟩
  unfold queuesConfigured
  rw [hc]
  refine ⟨by simp [List.range_eq_range'], by simp [hq], fun j e _ x hx => ?_⟩
  rw [he] at hx
  cases hx

/-- R235: `Push` keeps a queue's bound. -/
theorem pushSample_length (e : Sample) {l : List Sample} (h : l.length ≤ queueCap) :
    (pushSample e l).length ≤ queueCap := by
  have hcap : queueCap = 10 := rfl
  unfold pushSample
  split <;> simp <;> omega

theorem mem_pushSample {x e : Sample} {l : List Sample} (h : x ∈ pushSample e l) : x ∈ l ∨ x = e := by
  unfold pushSample at h
  split at h
  · exact (List.mem_append.1 h).imp List.mem_of_mem_tail List.mem_singleton.1
  · exact (List.mem_append.1 h).imp_right List.mem_singleton.1

/-- A push changes its own queue alone, where there is one. -/
theorem push_queue (i j : Nat) (e : Sample) (s : State) :
    (s.push i e).queue j = s.queue j ∨ i = j ∧ (s.push i e).queue j = pushSample e (s.queue j) := by
  unfold State.queue
  rw [State.push_q, List.getElem?_modify]
  by_cases hij : i = j
  · cases s.q[j]? with
    | none => left; rfl
    | some l => right; simp [hij]
  · left; simp [hij]

/-- R124: entry `i` pushes to queue `i`. -/
theorem QueuesOk.entry_index {s : State} (h : QueuesOk s) {l : List (Addr × Nat)} (hl : s.p.config = some l) {i : Nat}
    {e : Addr × Nat} (he : l[i]? = some e) : e.2 = i := by
  have h2 := h.2
  unfold queuesConfigured at h2
  rw [hl] at h2
  have hi : (l.map Prod.snd)[i]? = some e.2 := by simp [he]
  rw [h2.1] at hi
  exact (List.getElem?_eq_some_iff.1 hi).elim fun _ h => by simpa using h.symm

/-- R124, R235: a sample of entry `i`'s address, pushed to the entry's queue. -/
theorem QueuesOk.push {s : State} (h : QueuesOk s) {i : Nat} {e : Addr × Nat} (he : s.pollEntry i = some e) (v : Value) :
    QueuesOk (s.push e.2 (e.1, v)) := by
  refine h.of_queues rfl (by simp) (fun j => ?_) fun l hl j e' he' x hx => ?_
  · have hb := queuesBounded_iff.1 h.1 j
    rcases push_queue e.2 j (e.1, v) s with h' | ⟨-, h'⟩ <;> rw [h']
    · exact hb
    · exact pushSample_length _ hb
  · rcases push_queue e.2 j (e.1, v) s with h' | ⟨hj, h'⟩ <;> rw [h'] at hx
    · exact .inl hx
    · refine (mem_pushSample hx).imp_right fun hx' => ?_
      rw [State.pollEntry, hl] at he
      have hi : i = j := (h.entry_index hl he).symm.trans hj
      rw [hi, Option.getD_some, he'] at he
      cases he
      rw [hx']

theorem queuesOk_keptByWork : KeptByWork QueuesOk where
  data h hs := hs.of_eq h.config h.q
  sample e _ hs := hs.of_eq (applySample_config e _) (applySample_q e _)
  clear j _ hs := hs.of_subset rfl (by simp) fun i => clearQueue_queue j i _
  posture hs := hs.of_subset rfl (by simp [posture]) fun j => .inr (posture_queue j _)

theorem Effect.queuesOk {s t : State} (h : Effect s t) (hs : QueuesOk s) : QueuesOk t := by
  cases h with
  | unconfigure hr hl => exact ⟨hs.1, trivial⟩
  | pconfig addrs hr hl => exact queuesOk_configured rfl rfl
  | work ws a running drained hq ht => exact queuesOk_keptByWork.work ws (hs.of_eq rfl rfl)
  | _ => exact hs.of_eq rfl rfl

theorem endPass_q (s : State) : (endPass s).q = s.q := by simp [endPass]

theorem PollMove.queuesOk {s t : State} (h : PollMove s t) (hs : QueuesOk s) : QueuesOk t := by
  have hc := h.frame.config
  cases h with
  | more i x x' s' _ hi hx => exact hs.of_eq hc (xactStep_more_frame hx).q
  | done i x v s' _ hi hx => exact hs.of_eq hc (xactStep_done_frame hx).q
  | push i e x _ hi he => exact (hs.push he x).of_eq rfl rfl
  | endPass _ _ => exact hs.of_eq hc (endPass_q s)
  | _ => exact hs.of_eq rfl rfl

theorem Move.queuesOk {s t : State} (h : Move s t) (hs : QueuesOk s) : QueuesOk t := by
  cases h with
  | wait => exact hs
  | poller ha h => exact h.queuesOk hs
  | resume hw ht => exact queuesOk_keptByWork.work _ (hs.of_eq rfl rfl)
  | join hw ht => exact queuesOk_keptByWork.work _ (hs.of_eq rfl rfl)
  | fetch hw hb hc ht h => exact h.queuesOk (hs.of_eq rfl rfl)
  | device l chunk rest hl => exact hs.of_eq rfl rfl

/-- Settles O55: the consumer's work empties queues and no more, PCONFIG begins with empty ones, and the poller pushes a
sample of its entry to the entry's own queue (`QueuesOk.push`). -/
theorem queueInvariantKept : Obligations.QueueInvariantKept := by
  intro s t hb hc h
  obtain ⟨l, hm⟩ := step_move h
  have hs : QueuesOk (s.withSched l) := ⟨hb, hc⟩
  exact hm.queuesOk hs

end Sys2Proof.Machine
end

section
/-! Thresholds and times (R52, R386, R392), and the waits of each agent (R12, R15, R241). -/

namespace Sys2Proof.Machine

/-! ### Thresholds -/

theorem thresholdsOk_of_eq {s t : State} (h : thresholdsOk s) (hc : t.c = s.c) : thresholdsOk t := by
  unfold thresholdsOk
  rw [hc]
  exact h

/-- R52: a threshold the port accepts is not negative. -/
theorem cfgSet_thresholds {f : CfgField} {v : Rat} {c : Cfg} (hv : cfgAccepts f v = true)
    (hc : 0 ≤ c.startDelay ∧ 0 ≤ c.purgeDuration) :
    0 ≤ (cfgSet f v c).startDelay ∧ 0 ≤ (cfgSet f v c).purgeDuration := by
  cases f with
  | startDelay => exact ⟨of_decide_eq_true hv, hc.2⟩
  | purgeDuration => exact ⟨hc.1, of_decide_eq_true hv⟩
  | purgePulses => exact hc
  | backSpeedEn => exact hc
  | manualReturnEn => exact hc

theorem Effect.thresholdsOk {s t : State} (h : Effect s t) (hs : thresholdsOk s) : thresholdsOk t := by
  cases h with
  | setcfg f v hv => exact cfgSet_thresholds hv hs
  | work ws a running drained hq ht => exact thresholdsOk_of_eq hs (runWork_run ws _).c
  | _ => exact hs

theorem Move.thresholdsOk {s t : State} (h : Move s t) (hs : thresholdsOk s) : thresholdsOk t := by
  cases h with
  | wait => exact hs
  | poller ha h => exact thresholdsOk_of_eq hs h.frame.c
  | resume hw ht => exact thresholdsOk_of_eq hs (runWork_run _ s.resumed).c
  | join hw ht => exact thresholdsOk_of_eq hs (runWork_run _ (s.resumed.sleep ..)).c
  | fetch hw hb hc ht h => exact h.thresholdsOk hs
  | device l chunk rest hl => exact hs

/-! ### Times -/

/-- Where A's previous decode step is as it was, time may go on. -/
theorem timesOk_of_later {s t : State} (h : timesOk s) (ha : t.a.tPrev = s.a.tPrev) (hc : s.clock ≤ t.clock)
    (hr : t.clock ≤ t.reached) : timesOk t :=
  ⟨fun u hu => (h.1 u (ha ▸ hu)).trans hc, hr⟩

/-- A status word of a drain is decoded at a reading of the time input (R350, log 16). -/
theorem applySample_status {e : Sample} {s : State} (h : e.1 = s.param.regs.status) :
    (applySample e s).1.a.tPrev = some (applySample e s).1.clock ∧
    (applySample e s).1.clock = (applySample e s).1.reached := by
  unfold applySample State.decodeNow
  simp only [h, if_true]
  split <;> split <;> simp [setPeriod_tPrev, decodeStep_tPrev]

theorem applySample_other {e : Sample} {s : State} (h : e.1 ≠ s.param.regs.status) :
    (applySample e s).1.a.tPrev = s.a.tPrev ∧ (applySample e s).1.clock = s.clock ∧
    (applySample e s).1.reached = s.reached := by
  unfold applySample State.decodeNow
  simp only [if_neg h]
  split <;> split <;> simp [setPeriod_tPrev]

theorem applySample_timesOk (e : Sample) {s : State} (hs : timesOk s) : timesOk (applySample e s).1 := by
  by_cases h : e.1 = s.param.regs.status
  · obtain ⟨ht, hr⟩ := applySample_status h
    refine ⟨fun u hu => ?_, hr.le⟩
    rw [ht] at hu
    exact (Option.some.inj hu).ge
  · obtain ⟨ht, hc, hr⟩ := applySample_other h
    exact timesOk_of_later hs ht hc.ge (by rw [hc, hr]; exact hs.2)

theorem timesOk_keptByWork : KeptByWork timesOk where
  data h hs := timesOk_of_later hs (by rw [h.a]) h.clock.ge (h.clock.le.trans (hs.2.trans h.reached))
  sample e _ hs := applySample_timesOk e hs
  clear _ _ hs := hs
  posture hs := ⟨fun _ hu => (Option.some_ne_none _ hu.symm).elim, hs.2⟩

theorem Effect.timesOk {s t : State} (h : Effect s t) (hs : timesOk s) : timesOk t := by
  cases h with
  | automaton a k sev ht => exact timesOk_of_later hs ht (le_refl _) hs.2
  | work ws a running drained hq ht =>
    refine timesOk_keptByWork.work ws ⟨fun u hu => ?_, hs.2⟩
    rcases ht with ht | ht
    · exact hs.1 u (ht ▸ hu)
    · exact (Option.some.inj (ht.symm.trans hu)).ge
  | _ => exact hs

theorem PollMove.clock_le_reached {s t : State} (h : PollMove s t) (hs : s.clock ≤ s.reached) : t.clock ≤ t.reached := by
  cases h with
  | more i x x' s' hc hi hx =>
    have hf := xactStep_more_frame hx
    exact hf.clock.le.trans (hs.trans hf.reached)
  | done i x v s' hc hi hx =>
    have hf := xactStep_done_frame hx
    exact hf.clock.le.trans (hs.trans hf.reached)
  | wake i wake hc hi => exact hs.trans (le_max_left _ _)
  | retry i wake hc hi => exact hs.trans (le_max_left _ _)
  | endPass hc hi => exact le_refl _
  | _ => exact hs

theorem fetched_timesOk {it : Item} {rest : List Item} {s : State} (hc : s.clock ≤ it.now) (hs : timesOk s) :
    timesOk (s.fetched it rest) :=
  timesOk_of_later hs rfl hc (le_max_right _ _)

theorem Move.timesOk {s t : State} (h : Move s t) (hs : timesOk s) : timesOk t := by
  cases h with
  | wait => exact hs
  | poller ha h => exact timesOk_of_later hs (by rw [h.frame.a]) h.frame.clock (h.clock_le_reached hs.2)
  | resume hw ht => exact timesOk_keptByWork.work _ hs
  | join hw ht => exact timesOk_keptByWork.work _ (timesOk_of_later hs rfl (le_refl _) (hs.2.trans (le_max_left _ _)))
  | fetch hw hb hc ht h => exact h.timesOk (fetched_timesOk hc hs)
  | device l chunk rest hl => exact hs

/-! ### The time up to which waits are counted -/

theorem countedTo_poller_xact {s : State} {x : Xact} (h : s.p.io = .xact x) : countedTo .poller s = x.countedTo s := by
  simp [countedTo, h]

theorem countedTo_poller_idle {s : State} (h : s.p.io = .idle) : countedTo .poller s = s.reached := by
  simp [countedTo, h]

theorem countedTo_poller_got {s : State} {v : Option Value} (h : s.p.io = .got v) : countedTo .poller s = s.reached := by
  simp [countedTo, h]

theorem countedTo_poller_delay {s : State} {i : Nat} {wake : Time} (hc : s.p.ctl = .delay i) (h : s.p.io = .asleep wake) :
    countedTo .poller s = min s.reached (wake - delayBound s.param .interpoll) := by
  simp [countedTo, h, hc]

theorem countedTo_poller_backoff {s : State} {i : Nat} {wake : Time} (hc : s.p.ctl = .backoff i)
    (h : s.p.io = .asleep wake) : countedTo .poller s = min s.reached (wake - delayBound s.param .backoff) := by
  simp [countedTo, h, hc]

/-- While the poller's progress stays as it is, the time up to which its waits are counted does not go back. -/
theorem countedTo_poller_mono {s t : State} (hp : t.param = s.param) (hr : s.reached ≤ t.reached)
    (hi : t.p.io = s.p.io) (hc : t.p.ctl = s.p.ctl) : countedTo .poller s ≤ countedTo .poller t := by
  unfold countedTo
  dsimp only
  rw [hi, hc, hp]
  split
  · exact Xact.countedTo_mono _ hp hr
  · exact min_le_min_right _ hr
  · exact min_le_min_right _ hr
  · exact hr

theorem timeOf_mono (ws : List Work) {s t : State} (hp : t.param = s.param) (hr : s.reached ≤ t.reached) :
    timeOf ws s ≤ timeOf ws t := by
  match ws with
  | [] => exact hr
  | w :: ws =>
    cases w with
    | xact x k => exact x.countedTo_mono hp hr
    | _ => exact hr

/-- While the consumer's work stays as it is, the time up to which its waits are counted does not go back. -/
theorem countedTo_consumer_mono {s t : State} (hp : t.param = s.param) (hr : s.reached ≤ t.reached)
    (hc : t.con.todo = s.con.todo) : countedTo .consumer s ≤ countedTo .consumer t := by
  rw [countedTo_consumer, countedTo_consumer, hc]
  exact timeOf_mono _ hp hr

theorem timeOf_allQuiet {ws : List Work} (h : allQuiet ws) (s : State) : timeOf ws s = s.reached := by
  cases ws with
  | nil => rfl
  | cons w ws => exact timeOf_quiet (h w List.mem_cons_self) ws s

/-! ### Each agent's time goes on by its own waits -/

/-- What O56 says of the waits in a step. -/
def WaitsFit (s t : State) : Prop :=
  ∃ es, t.out = s.out ++ es ∧ ∀ g, countedTo g s + waitedIn g es ≤ countedTo g t

/-- One agent has moved, and the other's time has not gone back. -/
theorem Adds.fit {g : Agent} {s t : State} (h : Adds g (countedTo g s) s (countedTo g t) t)
    (ho : ∀ g' ≠ g, countedTo g' s ≤ countedTo g' t) : WaitsFit s t := by
  obtain ⟨es, h1, h2, h3⟩ := h.ex
  refine ⟨es, h1, fun g' => ?_⟩
  by_cases hg : g' = g
  · subst hg; exact h3
  · rw [h2 g' hg, add_zero]; exact ho g' hg

theorem Adds.fit_consumer {s t : State} (h : Adds .consumer (countedTo .consumer s) s (countedTo .consumer t) t)
    (ho : countedTo .poller s ≤ countedTo .poller t) : WaitsFit s t := by
  refine h.fit fun g' hg => ?_
  cases g' with
  | poller => exact ho
  | consumer => exact absurd rfl hg

theorem Adds.fit_poller {s t : State} (h : Adds .poller (countedTo .poller s) s (countedTo .poller t) t)
    (ho : countedTo .consumer s ≤ countedTo .consumer t) : WaitsFit s t := by
  refine h.fit fun g' hg => ?_
  cases g' with
  | poller => exact absurd rfl hg
  | consumer => exact ho

/-- Nobody waits. -/
theorem WaitsFit.quiet {s t : State} (es : List Event) (ho : t.out = s.out ++ es) (he : ∀ e ∈ es, e.noWait = true)
    (hg : ∀ g, countedTo g s ≤ countedTo g t) : WaitsFit s t :=
  ⟨es, ho, fun g => by rw [waitedIn_noWait g he, add_zero]; exact hg g⟩

/-- Time passes before. -/
theorem WaitsFit.after {s s' t : State} (h : WaitsFit s' t) (ho : s'.out = s.out)
    (hg : ∀ g, countedTo g s ≤ countedTo g s') : WaitsFit s t := by
  obtain ⟨es, h1, h2⟩ := h
  exact ⟨es, by rw [h1, ho], fun g => (add_le_add_left (hg g) _).trans (h2 g)⟩

/-- Neither agent's time goes back where neither's progress changes. -/
theorem countedTo_mono {s t : State} (hp : t.param = s.param) (hr : s.reached ≤ t.reached) (hi : t.p.io = s.p.io)
    (hc : t.p.ctl = s.p.ctl) (hw : t.con.todo = s.con.todo) (g : Agent) : countedTo g s ≤ countedTo g t := by
  cases g with
  | poller => exact countedTo_poller_mono hp hr hi hc
  | consumer => exact countedTo_consumer_mono hp hr hw

/-- Work of the consumer's, from a state that is as `s` but for A, the run flag and the samples collected, or later. -/
theorem runWork_fits {ws : List Work} {s s0 : State} (h0 : Adds .consumer (countedTo .consumer s) s (timeOf ws s0) s0)
    (hq : tailQuiet ws) (hw : s0.con.todo = []) (hr : s.reached ≤ s0.reached) (hi : s0.p.io = s.p.io)
    (hc : s0.p.ctl = s.p.ctl) : WaitsFit s (runWork ws s0) := by
  have hk := runWork_run ws s0
  refine (h0.trans (runWork_adds ws s0 hq hw)).fit_consumer (countedTo_poller_mono (hk.param.trans h0.param)
    (hr.trans hk.reached) ?_ ?_)
  · rw [hk.p, hi]
  · rw [hk.p, hc]

theorem Effect.waitsFit {s t : State} (h : Effect s t) (hw : s.con.todo = []) (hl : s.p.io = .idle ∨ s.p.alive = true) :
    WaitsFit s t := by
  have same : ∀ {t : State}, t.param = s.param → t.reached = s.reached → t.p.io = s.p.io → t.p.ctl = s.p.ctl →
      t.con.todo = s.con.todo → ∀ g, countedTo g s ≤ countedTo g t :=
    fun hp hr hi hc hw => countedTo_mono hp hr.ge hi hc hw
  cases h with
  | report r => exact .quiet [.result r] rfl (by simp [Event.noWait]) (same rfl rfl rfl rfl rfl)
  | automaton a k sev ht =>
    exact .quiet [.log k sev, .result .unit] (by simp) (by simp [Event.noWait]) (same rfl rfl rfl rfl rfl)
  | setcfg f v hv =>
    exact .quiet [.log (.setConfig f) .info, .result (.bool true)] (by simp) (by simp [Event.noWait])
      (same rfl rfl rfl rfl rfl)
  | unconfigure hr ha => exact .quiet [.result _] rfl (by simp [Event.noWait]) (same rfl rfl rfl rfl rfl)
  | pconfig addrs hr ha => exact .quiet [.result _] rfl (by simp [Event.noWait]) (same rfl rfl rfl rfl rfl)
  | pstart hr ha =>
    have hi : s.p.io = .idle := hl.resolve_right (by simp [ha])
    refine .quiet [.result _] rfl (by simp [Event.noWait]) fun g => ?_
    cases g with
    | poller => rw [countedTo_poller_idle hi, countedTo_poller_idle (by exact hi)]; exact le_refl _
    | consumer => exact countedTo_consumer_mono rfl (le_refl _) rfl
  | work ws a running drained hq ht =>
    refine runWork_fits (Adds.quiet rfl [] (by simp) (by simp) ?_) hq.tail hw (le_refl _) rfl rfl
    rw [timeOf_allQuiet hq, countedTo_consumer]
    exact timeOf_le _ _
  | arrive l => exact .quiet [] (by simp) (by simp) (same rfl rfl rfl rfl rfl)

theorem countedTo_poller_le (s : State) : countedTo .poller s ≤ s.reached := by
  unfold countedTo
  dsimp only
  split
  · exact Xact.countedTo_le _ _
  · exact min_le_left _ _
  · exact min_le_left _ _
  · exact le_refl _

/-- A sleep of the poller's that ends: its bound fits between its beginning and its end (R15). -/
theorem sleep_adds {d : Delay} (hd : d ≠ .join) (wake : Time) (s : State) :
    Adds .poller (min s.reached (wake - delayBound s.param d)) s (s.sleep .poller d wake).reached
      (s.sleep .poller d wake) := by
  refine ⟨rfl, [.sleep .poller d (delayBound s.param d)], rfl, fun g' hg => waitedIn_sleep_other hg.symm _ _, ?_⟩
  rw [waitedIn_sleep _ hd]
  have h := min_le_right s.reached (wake - delayBound s.param d)
  exact le_max_of_le_right (by linarith)

/-- The poller's new progress, after what it has put out. -/
theorem Adds.setPoll {T : Time} {s s' : State} {ctl : PollCtl} {io : PollIo} (h : Adds .poller T s s'.reached s')
    (hc : countedTo .poller (s'.setPoll ctl io) = s'.reached) :
    Adds .poller T s (countedTo .poller (s'.setPoll ctl io)) (s'.setPoll ctl io) :=
  h.trans (.quiet rfl [] (by simp) (by simp) hc.ge)

theorem endPass_adds (s : State) : Adds .poller s.reached s (endPass s).reached (endPass s) := by
  refine Adds.quiet (by simp [endPass]) ((if s.p.rateCb then [.rate (s.readNow.clock - s.p.passT0.getD s.readNow.clock)]
    else []) ++ if s.p.dataCb then [.newData] else []) (by simp [endPass]) ?_ s.reached_le_readNow
  intro e he
  rcases List.mem_append.1 he with h | h <;> (split at h <;> simp_all [Event.noWait])

theorem endPass_io (s : State) : (endPass s).p.io = s.p.io := by simp [endPass]

theorem PollMove.adds {s t : State} (h : PollMove s t) :
    Adds .poller (countedTo .poller s) s (countedTo .poller t) t := by
  have still : Adds .poller (countedTo .poller s) s s.reached s := .refl _ s (countedTo_poller_le s)
  cases h with
  | exit i hc hi hr =>
    exact still.trans (.quiet rfl [] (by simp) (by simp) (countedTo_poller_idle (s := s.pollExit) hi).ge)
  | backOff i hc hi hr ht => exact still.setPoll ((countedTo_poller_backoff rfl rfl).trans (by simp))
  | start i e hc hi hr ht he => exact still.setPoll ((countedTo_poller_xact rfl).trans rfl)
  | more i x x' s' hc hi hx =>
    have hx' := xactStep_adds .poller x s
    rw [hx] at hx'
    rw [countedTo_poller_xact hi, countedTo_poller_xact (s := s'.setPoll s'.p.ctl (.xact x')) rfl]
    exact Adds.trans hx' (.quiet rfl [] (by simp) (by simp) (le_refl _))
  | done i x v s' hc hi hx =>
    have hx' := xactStep_adds .poller x s
    rw [hx] at hx'
    rw [countedTo_poller_xact hi]
    exact Adds.setPoll hx' (countedTo_poller_got rfl)
  | push i e x hc hi he =>
    have hp : Adds .poller (countedTo .poller s) s s.reached (s.push e.2 (e.1, x)) :=
      still.trans (.quiet rfl [] (by simp) (by simp) (le_refl _))
    exact Adds.setPoll hp ((countedTo_poller_delay rfl rfl).trans (by simp))
  | skip i e hc hi he => exact still.setPoll ((countedTo_poller_delay rfl rfl).trans (by simp))
  | wake i wake hc hi =>
    rw [countedTo_poller_delay hc hi]
    exact (sleep_adds (by simp) wake s).setPoll (countedTo_poller_idle rfl)
  | endPass hc hi =>
    rw [countedTo_poller_idle hi, countedTo_poller_idle ((endPass_io s).trans hi)]
    exact endPass_adds s
  | retry i wake hc hi =>
    rw [countedTo_poller_backoff hc hi]
    exact (sleep_adds (by simp) wake s).setPoll (countedTo_poller_idle rfl)

theorem waitedIn_join (g g' : Agent) (t : Time) : waitedIn g [.sleep g' .join t] = 0 := by
  simp [waitedIn]

/-- The end of a stop's wait by its bound: T_JOIN is not counted (R232). -/
theorem join_adds {wake : Time} {ws : List Work} {s : State} (hw : s.con.todo = .join wake :: ws) (hq : allQuiet ws) :
    Adds .consumer (countedTo .consumer s) s (timeOf ws (s.resumed.sleep .consumer .join wake))
      (s.resumed.sleep .consumer .join wake) := by
  refine ⟨rfl, [.sleep .consumer .join (delayBound s.param .join)], rfl, fun g _ => waitedIn_join g _ _, ?_⟩
  rw [waitedIn_join, add_zero, timeOf_allQuiet hq, countedTo_consumer, hw]
  exact le_max_left _ _

theorem Move.waitsFit {s t : State} (h : Move s t) (hs : LinkInv s) : WaitsFit s t := by
  have hquiet := hs.quiet
  cases h with
  | wait => exact .quiet [] (by simp) (by simp) fun _ => le_refl _
  | poller ha h =>
    have hf := h.frame
    exact h.adds.fit_poller (countedTo_consumer_mono hf.param hf.reached (by rw [hf.con]))
  | resume hw ht =>
    rw [hw] at hquiet
    refine runWork_fits (Adds.quiet rfl [] (by simp [State.resumed]) (by simp) ?_) hquiet rfl (le_refl _) rfl rfl
    rw [countedTo_consumer, hw]
    exact timeOf_mono _ rfl (le_refl s.reached)
  | join hw ht =>
    rw [hw] at hquiet
    exact runWork_fits (join_adds hw hquiet) (allQuiet.tail hquiet) rfl (le_max_left _ _) rfl rfl
  | fetch hw hb hc ht h =>
    exact (h.waitsFit hw hs.lives).after rfl (countedTo_mono rfl (le_max_left _ _) rfl rfl rfl)
  | device l chunk rest hl => exact .quiet [] (by simp) (by simp) (countedTo_mono rfl (le_refl _) rfl rfl rfl)

/-- Settles O56: SETCFG stores no negative threshold, a decode step is made at the time input, and the agent that moves
puts out no wait that its own time does not cover (`runWork_adds`, `PollMove.adds`), while the other's does not go back. -/
theorem timeInvariantKept : Obligations.TimeInvariantKept := by
  intro s t h
  obtain ⟨l, hm⟩ := step_move h
  refine ⟨fun h1 h2 => ⟨hm.thresholdsOk h1, hm.timesOk h2⟩, fun hl => ?_⟩
  obtain ⟨hlink, hquiet, hfits, hlives⟩ := hl
  exact hm.waitsFit ⟨hlink, hquiet, hfits, hlives⟩

end Sys2Proof.Machine
end

section
/-! The encoding of an instruction reads back as the instruction, at every port (30_encoding.md R110, R115-R117,
R130). -/

namespace Sys2Proof.Machine

/-- The round trips of the family `RoundTrip`, one for every instruction. -/
theorem roundTrip : ∀ i : Instr, Laws.RoundTrip.Statement i
  | .crc7 bytes => Laws.RoundTrip.crc7 bytes
  | .build address w data => Laws.RoundTrip.build address w data
  | .parse resp addr dev => Laws.RoundTrip.parse resp addr dev
  | .sdecode word => Laws.RoundTrip.sdecode word
  | .connect cfg => Laws.RoundTrip.connect cfg
  | .disconnect => Laws.RoundTrip.disconnect
  | .isconn => Laws.RoundTrip.isconn
  | .rdreg addr => Laws.RoundTrip.rdreg addr
  | .wrreg addr value => Laws.RoundTrip.wrreg addr value
  | .pconfig addrs => Laws.RoundTrip.pconfig addrs
  | .pstart => Laws.RoundTrip.pstart
  | .pstop => Laws.RoundTrip.pstop
  | .decode word => Laws.RoundTrip.decode word
  | .period motor value => Laws.RoundTrip.period motor value
  | .arm aux => Laws.RoundTrip.arm aux
  | .cancel => Laws.RoundTrip.cancel
  | .purge => Laws.RoundTrip.purge
  | .ppend b => Laws.RoundTrip.ppend b
  | .setcfg field value => Laws.RoundTrip.setcfg field value
  | .verify => Laws.RoundTrip.verify
  | .drain => Laws.RoundTrip.drain
  | .readReq dev addr crc => Laws.RoundTrip.readReq dev addr crc
  | .writeReq dev addr data crc => Laws.RoundTrip.writeReq dev addr data crc
  | .response w dev addr data crc x y z v => Laws.RoundTrip.response w dev addr data crc x y z v

theorem decode_encode (i : Instr) (h : i.wf = true) : decode i.port (encode i) = .ok i := by
  simpa using roundTrip i h [] rfl (.inr rfl)

/-- What a port decodes to one instruction only cannot be the encoding of two. -/
theorem encode_injOn_port {i j : Instr} (hi : i.wf = true) (hj : j.wf = true) (hp : i.port = j.port)
    (he : encode i = encode j) : i = j := by
  have h : (.ok i : Except PortRefusal Instr) = .ok j := by
    rw [← decode_encode i hi, ← decode_encode j hj, hp, he]
  exact Except.ok.inj h

/-- Settles O51: by the round trip of every instruction, and the decoder being a function. -/
theorem decodeEncodeAgree : Obligations.DecodeEncodeAgree :=
  ⟨decode_encode, fun _ _ => encode_injOn_port⟩

/-- Settles O52: all but the last are the encodings of what they stand for; the last has the SYNC bits 01. -/
theorem specWordsDecode : Obligations.SpecWordsDecode :=
  ⟨decode_encode .disconnect rfl, decode_encode (.rdreg 0x05) rfl, decode_encode (.arm true) rfl,
    decode_encode (.readReq 1 0x03 0x20) (by decide +kernel),
    decode_encode (.writeReq 1 0x10 5000 0x67) (by decide +kernel),
    decode_encode (.response true 1 0x10 5000 0x22 true false false false) rfl, by decide⟩

end Sys2Proof.Machine
end

section
/-! The fields of the status word and of a response as numbers (R110, R111, R122, R270), and the link frames as
instructions (log 11). -/

namespace Sys2Proof.Machine

/-! ### The status word -/

theorem getLsbD_eq_div_mod (word : Value) (k : Nat) : word.getLsbD k = decide (word.toNat / 2 ^ k % 2 = 1) :=
  Nat.testBit_eq_decide_div_mod_eq

/-- The bits below `n` are those of the remainder by `2 ^ n`. -/
theorem getLsbD_eq_of_mod_eq {word word' : Value} {n k : Nat} (h : word.toNat % 2 ^ n = word'.toNat % 2 ^ n)
    (hk : k < n) : word.getLsbD k = word'.getLsbD k := by
  have hb := congrArg (·.testBit k) h
  simp only [Nat.testBit_mod_two_pow, hk, decide_true, Bool.true_and] at hb
  exact hb

/-- Settles O10: a bit of a word is a digit of its number, and every index is below 11. -/
theorem statusWordLayout : Obligations.StatusWordLayout := by
  refine ⟨fun ix word => ?_, fun word => ?_, fun ix word word' h => ?_⟩
  · simp only [decodeStatus, getLsbD_eq_div_mod, List.map]
  · simp only [decodeStatus, getLsbD_eq_div_mod]
    rfl
  · have hb (k : Fin 11) : word.getLsbD k = word'.getLsbD k := getLsbD_eq_of_mod_eq h k.isLt
    simp only [decodeStatus, hb]

/-! ### The bytes of a frame as numbers -/

theorem byteOf_toNat (t : Bool) (l : BitVec 7) : (byteOf t l).toNat = (if t then 0x80 else 0) + l.toNat := by
  have hl : l.toNat % 2 ^ 8 = l.toNat := Nat.mod_eq_of_lt (l.isLt.trans (by decide))
  have hor : 0x80 + l.toNat = 0x80 ||| l.toNat := Nat.two_pow_add_eq_or_of_lt l.isLt 1
  unfold byteOf
  rw [BitVec.toNat_or, BitVec.toNat_setWidth, hl]
  cases t
  · simp
  · exact hor.symm

theorem dataHigh_toNat (data : Value) : (dataHigh data).toNat = data.toNat / 2 ^ 7 % 0x80 := by
  simp [dataHigh, BitVec.extractLsb'_toNat, Nat.shiftRight_eq_div_pow]

theorem dataLow_toNat (data : Value) : (dataLow data).toNat = data.toNat % 0x80 := by
  simp [dataLow]

/-- Three fields side by side, two bits over three: the or is the sum. -/
theorem or_fields_eq_add {k q d : Nat} (hq : q < 4) (hd : d < 2 ^ 3) :
    2 ^ 5 * k ||| q * 2 ^ 3 ||| d = 2 ^ 5 * k + q * 2 ^ 3 + d := by
  rw [← Nat.two_pow_add_eq_or_of_lt (show q * 2 ^ 3 < 2 ^ 5 by omega) k,
    show 2 ^ 5 * k + q * 2 ^ 3 = 2 ^ 3 * (4 * k + q) by omega, ← Nat.two_pow_add_eq_or_of_lt hd]

/-- R110: the four fields of the header stand side by side. -/
theorem headerByte_toNat (w : Bool) (data : Value) (dev : DevId) :
    (headerByte w data dev).toNat = 0xC0 + (if w then 0x20 else 0) + data.toNat / 2 ^ 14 * 2 ^ 3 + dev.toNat := by
  have hq : data.toNat / 2 ^ 14 < 4 := by have := data.isLt; omega
  have hdata : ((data.extractLsb' 14 2).setWidth 8 <<< 3).toNat = data.toNat / 2 ^ 14 * 2 ^ 3 := by
    simp only [BitVec.toNat_shiftLeft, BitVec.toNat_setWidth, BitVec.extractLsb'_toNat, Nat.shiftRight_eq_div_pow,
      Nat.shiftLeft_eq]
    omega
  have hdev : (dev.setWidth 8).toNat = dev.toNat := BitVec.toNat_setWidth_of_le (by decide)
  have h (k : Nat) := or_fields_eq_add (k := k) hq dev.isLt
  unfold headerByte
  rw [BitVec.toNat_or, BitVec.toNat_or, BitVec.toNat_or, hdata, hdev]
  cases w
  · exact h 6
  · exact h 7

/-! ### The frames as instructions -/

/-- Settles O16: the response's bytes are `responseFrame`'s, read as numbers. -/
theorem responseArrives : Obligations.ResponseArrives := by
  intro s w dev addr data crc x y z v
  refine ⟨_, _, _, _, _, rfl, headerByte_toNat w data dev, byteOf_toNat x addr, ?_, ?_, byteOf_toNat v crc⟩
  · exact (byteOf_toNat y _).trans (by rw [dataHigh_toNat])
  · exact (byteOf_toNat z _).trans (by rw [dataLow_toNat])

/-- Settles O14: one undisturbed transaction (`runWork_xact_ready`), and its result. -/
theorem requestFramesComplete : Obligations.RequestFramesComplete := by
  intro s dev addr crc hs
  have run (x : Xact) (hx : x.phase = .acquire) (k : After) :
      (.next (runWork [.xact x k] s) : Out) = .next (afterXact k (linkValue x.req.addr s) (linkDone x s)).1 := by
    rw [runWork_xact_ready hx k hs]
  exact ⟨run ⟨.read addr, readReqFrame dev addr crc, .acquire⟩ rfl .read,
    fun data => run ⟨.write addr data, writeReqFrame dev addr data crc, .acquire⟩ rfl .write⟩

/-- R170, R171: a read request whose checksum is right is the one BUILD makes. -/
theorem readReqFrame_eq_build {dev : DevId} {addr : Addr} {crc : Crc} (h : (Instr.readReq dev addr crc).wf = true) :
    readReqFrame dev addr crc = build dev addr false 0 := by
  have hc : crc7 [headerByte false 0 dev, byteOf false addr, 0, 0] = crc := by
    simpa [Instr.wf, frameCrcOk, readReqFrame] using h
  rw [← hc]
  rfl

theorem writeReqFrame_eq_build {dev : DevId} {addr : Addr} {data : Value} {crc : Crc}
    (h : (Instr.writeReq dev addr data crc).wf = true) :
    writeReqFrame dev addr data crc = build dev addr true data := by
  have hc : crc7 [headerByte true data dev, byteOf false addr, byteOf false (dataHigh data),
      byteOf false (dataLow data)] = crc := by
    simpa [Instr.wf, frameCrcOk, writeReqFrame] using h
  rw [← hc]
  rfl

theorem command_of_timeOk {s : State} (h : s.timeOk = true) (k : State → State) : command s k = .next (k s) :=
  if_pos h

/-- Settles O15: the frame and the command have the same transaction to run, because their frames are equal. -/
theorem requestFrameIsCommand : Obligations.RequestFrameIsCommand := by
  intro s addr data crc ht
  refine ⟨fun h => ?_, fun h => ?_⟩
  · have he : exec (.rdreg addr) s = _ := command_of_timeOk ht _
    rw [he, readXact, ← readReqFrame_eq_build h]
    rfl
  · have he : exec (.wrreg addr data) s = _ := command_of_timeOk ht _
    rw [he, writeXact, ← writeReqFrame_eq_build h]
    rfl

end Sys2Proof.Machine
end

section
/-! What the host port refuses, and what it accepts: an opcode outside the table (R131), an operand outside its width
(R132). -/

namespace Sys2Proof.Machine

/-! ### Opcodes -/

/-- The host port's opcodes (R130). -/
def hostOpcodes : List Nat :=
  [0x01, 0x02, 0x03, 0x04, 0x10, 0x11, 0x12, 0x13, 0x14, 0x20, 0x21, 0x22, 0x30, 0x31, 0x32, 0x33, 0x34, 0x35, 0x36,
    0x37, 0x38]

theorem operandsOf_eq_none_iff (op : Byte) : operandsOf op = none ↔ op.toNat ∉ hostOpcodes := by
  unfold operandsOf
  split
  case h_22 => simp_all [hostOpcodes]
  all_goals simp [hostOpcodes, *]

theorem decodeHost_illegalCommand_iff (op : Byte) (l : List Byte) :
    decodeHost (op :: l) = .error .illegalCommand ↔ operandsOf op = none := by
  cases ho : operandsOf op with
  | none => simp [decodeHost, ho]
  | some read =>
    cases hr : read l with
    | none => simp [decodeHost, ho, hr]
    | some ir =>
      simp only [decodeHost, ho, hr]
      split <;> simp

/-! ### Numbers outside their width, and inside it -/

section
variable {n : Nat}

theorem putBits_ofNat {w : Nat} (h : n < 2 ^ w) : putBits (BitVec.ofNat w n) = putNat n := by
  rw [putBits, BitVec.toNat_ofNat, Nat.mod_eq_of_lt h]

theorem takeBits_of_le {w : Nat} (h : 2 ^ w ≤ n) (r : List Byte) : takeBits w (putNat n ++ r) = none := by
  simp [takeBits, h.not_gt]

theorem takeBool_of_le (h : 2 ≤ n) (r : List Byte) : takeBool (putNat n ++ r) = none := by
  obtain ⟨k, rfl⟩ := Nat.exists_eq_add_of_le' h
  simp [takeBool]

theorem takeMotor_of_le (h : 2 ≤ n) (r : List Byte) : takeMotor (putNat n ++ r) = none := by
  obtain ⟨k, rfl⟩ := Nat.exists_eq_add_of_le' h
  simp [takeMotor]

theorem takeField_of_le (h : 5 ≤ n) (r : List Byte) : takeField (putNat n ++ r) = none := by
  obtain ⟨k, rfl⟩ := Nat.exists_eq_add_of_le' h
  simp [takeField]

/-- Where bytes stand for it, BUILD's data is read as a number of its width. -/
theorem takeData_putNat (r : List Byte) : takeData (putNat n ++ r) = takeBits 16 (putNat n ++ r) := by
  cases e : putNat n ++ r with
  | nil => simpa [e, takeNat] using takeNat_putNat n r
  | cons b l => rfl

theorem takeBool_end (b : Bool) : takeBool (putBool b) = some (b, []) := by
  simpa using takeBool_putBool b []

/-- R203: the rate omitted. -/
theorem takeBaud_omitted (r : List Byte) : takeBaud (putNat 0 ++ r) = some (38400, r) := by
  simp [takeBaud, baudDefault]

/-- The items of a list before one that is refused are read. -/
theorem takeMany_refused {α : Type} {item : List Byte → Option (α × List Byte)} {put : α → List Byte}
    (hput : ∀ a r, item (put a ++ r) = some (a, r)) {bad : List Byte} (hbad : item bad = none) (l : List α) (k : Nat) :
    takeMany item (l.length + (k + 1)) (l.flatMap put ++ bad) = none := by
  induction l with
  | nil => simp [takeMany, hbad]
  | cons a l ih =>
    rw [List.length_cons, Nat.add_right_comm, List.flatMap_cons, List.append_assoc, takeMany, hput]
    simp only [ih]

theorem takeList_refused {w : Nat} (h : 2 ^ w ≤ n) (l : List (BitVec w)) (k : Nat) (r : List Byte) :
    takeList (takeBits w) (putNat (l.length + 1 + k) ++ (l.flatMap putBits ++ (putNat n ++ r))) = none := by
  simp only [takeList, takeNat_putNat]
  rw [Nat.add_assoc, Nat.add_comm 1]
  exact takeMany_refused takeBits_putBits (takeBits_of_le h r) l k

/-- A list written out with one item as a number of its width. -/
theorem putList_around {w : Nat} (h : n < 2 ^ w) (l l' : List (BitVec w)) :
    putNat (l.length + 1 + l'.length) ++ l.flatMap putBits ++ putNat n ++ l'.flatMap putBits =
      putList putBits (l ++ BitVec.ofNat w n :: l') := by
  simp [putList, putBits_ofNat h, Nat.add_assoc, Nat.add_comm 1]

end

/-! ### The port -/

@[simp] theorem mapOperand_none {α β : Type} (f : α → β) : mapOperand f none = none := rfl

@[simp] theorem andThen_none {α β γ : Type} (next : List Byte → Option (β × List Byte)) (f : α → β → γ) :
    andThen none next f = none := rfl

theorem decode_host_refused {op : Byte} {l : List Byte} {read : List Byte → Option (Instr × List Byte)}
    (h : operandsOf op = some read) (hr : ∀ r, read (l ++ r) = none) :
    decode .host (op :: l) = .error .illegalOperand := by
  have hl : read l = none := by simpa using hr []
  simp [decode, decodeHost, h, hl]

theorem decode_host_read {op : Byte} {l : List Byte} {i : Instr} {read : List Byte → Option (Instr × List Byte)}
    (h : operandsOf op = some read) (hr : ∀ r, read (l ++ r) = some (i, r)) :
    decode .host (op :: l) = if i.wf then .ok i else .error .illegalOperand := by
  have hl : read l = some (i, []) := by simpa using hr []
  simp [decode, decodeHost, h, hl, isPadding]

/-- R170: BUILD's data omitted. -/
theorem decode_build_omitted (a : Nat) (w : Bool) :
    decode .host (0x02 :: (putNat a ++ putBool w)) = .ok (.build a w 0) := by
  have hr : operandsOf 0x02 = some _ := rfl
  exact decodeHost_of_read (r := []) hr (by simp [takeBool_end, takeData]) rfl rfl

/-- R203: CONNECT's rate omitted. -/
theorem decode_connect_omitted (port : List Byte) {timeout : Rat} (h : 0 < timeout) :
    decode .host (0x10 :: (putList putBits port ++ putNat 0 ++ putPosRat timeout)) =
      .ok (.connect ⟨port, 38400, timeout⟩) := by
  rw [decode_host_read (i := .connect ⟨port, 38400, timeout⟩) rfl fun r => by
    simp [takeBaud_omitted, takePosRat_putPosRat _ h]]
  exact if_pos (decide_eq_true h)

/-- A value that is read, and is none of its field. -/
theorem decode_setcfg_refused {f : CfgField} {v : Rat} (h : (Instr.setcfg f v).wf = false) :
    decode .host (0x36 :: (putField f ++ putRat v)) = .error .illegalOperand := by
  rw [decode_host_read (i := .setcfg f v) rfl fun r => by simp, h]
  rfl

/-- Settles O50: what a command's reader takes inside the widths is an encoding, which reads back (`decode_encode`); the
reader stops at a number outside its width, and a negative time is read and is no value of its field. -/
theorem illegalOperandsRefused : Obligations.IllegalOperandsRefused := by
  intro n
  exact ⟨
    -- RDREG
    fun h => decode_host_refused rfl fun r => by simp [takeBits_of_le (w := 7) h],
    fun h => by
      rw [← putBits_ofNat (w := 7) h]
      exact decode_encode (.rdreg _) rfl,
    -- WRREG
    fun v h => decode_host_refused rfl fun r => by simp [takeBits_of_le (w := 7) h],
    fun a h => decode_host_refused rfl fun r => by simp [takeBits_of_le h],
    fun m h hm => by
      rw [← putBits_ofNat (w := 7) h, ← putBits_ofNat hm]
      exact decode_encode (.wrreg _ _) rfl,
    -- CRC7
    fun l l' h => decode_host_refused rfl fun r => by simp [takeList_refused (w := 8) h],
    fun l l' h => by
      rw [putList_around (w := 8) h]
      exact decode_encode (.crc7 _) rfl,
    -- PARSE
    fun l l' a d h => decode_host_refused rfl fun r => by simp [takeList_refused (w := 8) h],
    fun l l' a d h => by
      rw [putList_around (w := 8) h]
      exact decode_encode (.parse _ a d) rfl,
    fun l d h => decode_host_refused rfl fun r => by simp [takeBits_of_le (w := 7) h],
    fun l a h => decode_host_refused rfl fun r => by simp [takeBits_of_le (w := 3) h],
    fun l m h hm => by
      rw [← putBits_ofNat (w := 7) h, ← putBits_ofNat (w := 3) hm]
      exact decode_encode (.parse l _ _) rfl,
    -- PCONFIG
    fun l l' h => decode_host_refused rfl fun r => by simp [takeList_refused (w := 7) h],
    fun l l' h => by
      rw [putList_around (w := 7) h]
      exact decode_encode (.pconfig _) rfl,
    -- BUILD
    fun w d => decode_encode (.build n w d) rfl,
    decode_build_omitted n,
    fun a d h => ⟨decode_host_refused rfl fun r => by simp [takeBool_of_le h],
      decode_host_refused rfl fun r => by simp [takeBool_of_le h]⟩,
    fun a w h => decode_host_refused rfl fun r => by simp [takeData_putNat, takeBits_of_le h],
    -- SDECODE and DECODE
    fun op ho h => by
      rcases List.mem_pair.1 ho with rfl | rfl <;>
        exact decode_host_refused rfl fun r => by simp [takeBits_of_le h],
    fun h => by
      rw [← putBits_ofNat h]
      exact ⟨decode_encode (.sdecode _) rfl, decode_encode (.decode _) rfl⟩,
    -- PERIOD
    fun v h => decode_host_refused rfl fun r => by simp [takeMotor_of_le h],
    fun m h => decode_host_refused rfl fun r => by simp [takeBits_of_le h],
    fun m h => by
      rw [← putBits_ofNat h]
      exact decode_encode (.period m _) rfl,
    -- ARM and PPEND
    fun op ho h => by
      rcases List.mem_pair.1 ho with rfl | rfl <;>
        exact decode_host_refused rfl fun r => by simp [takeBool_of_le h],
    fun b => ⟨decode_encode (.arm b) rfl, decode_encode (.ppend b) rfl⟩,
    -- SETCFG
    fun v h => decode_host_refused rfl fun r => by simp [takeField_of_le h],
    fun v h => ⟨decode_setcfg_refused (decide_eq_false h.not_ge), decode_setcfg_refused (decide_eq_false h.not_ge)⟩,
    fun v h => ⟨decode_encode (.setcfg .startDelay v) (decide_eq_true h),
      decode_encode (.setcfg .purgeDuration v) (decide_eq_true h)⟩,
    -- CONNECT
    fun port timeout h => ⟨decode_connect_omitted port h,
      decode_encode (.connect ⟨port, n, timeout⟩) (decide_eq_true h)⟩⟩

end Sys2Proof.Machine
end

section
/-! What a turn runs: the item or the bytes that stand first, and who moves where the turn's own agent has no step
(log 2). -/

namespace Sys2Proof.Machine

theorem withSched_self {s : State} {l : List Turn} (h : s.env.sched = l) : s.withSched l = s := by
  subst h
  rfl

theorem step_scheduled {s : State} {turn : Turn} {sched : List Turn} (h : s.env.sched = turn :: sched) :
    step s = turnStep turn (s.withSched sched) := by
  unfold step
  rw [h]
  rfl

theorem step_unscheduled {s : State} (h : s.env.sched = []) : step s = unscheduledStep s := by
  unfold step
  rw [h]

/-- A turn put on an empty schedule is the next. -/
theorem step_withSched_singleton {s : State} (turn : Turn) (h : s.env.sched = []) :
    step (s.withSched [turn]) = turnStep turn s :=
  (step_scheduled rfl).trans (congrArg (turnStep turn) (withSched_self h))

/-! ### The consumer -/

theorem turnStep_consumer {s : State} (h : s.consumerCan = true) : turnStep .consumer s = consumerTurn s := if_pos h

theorem unscheduledStep_consumer {s : State} (h : s.consumerCan = true) : unscheduledStep s = consumerTurn s := if_pos h

/-- The consumer moves at its turn, and first where nothing is scheduled. -/
theorem step_consumer {s : State} {sched : List Turn} (h : s.env.sched = [] ∨ s.env.sched = .consumer :: sched)
    (hc : s.consumerCan = true) : step s = consumerTurn (s.withSched s.env.sched.tail) := by
  rcases h with h | h
  · rw [step_unscheduled h, h, List.tail_nil, withSched_self h]
    exact unscheduledStep_consumer hc
  · rw [step_scheduled h, h]
    exact turnStep_consumer hc

theorem consumerCan_idle {s : State} (h : s.con.todo = []) : s.consumerCan = !s.inbox.isEmpty := by
  simp [State.consumerCan, h]

/-- An idle consumer takes the first item. -/
theorem step_fetch {s : State} {it : Item} {rest : List Item} {sched : List Turn} (hw : s.con.todo = [])
    (hb : s.inbox = it :: rest) (h : s.env.sched = [] ∨ s.env.sched = .consumer :: sched) :
    step s = fetchItem it { s.withSched s.env.sched.tail with inbox := rest } := by
  rw [step_consumer h (by simp [consumerCan_idle hw, hb])]
  simp [consumerTurn, State.withSched, hw, hb]

theorem fetched_timeOk {it : Item} {rest : List Item} {s : State} (ht : ∀ t, s.a.tPrev = some t → t ≤ it.now) :
    (s.fetched it rest).timeOk = true := by
  unfold State.timeOk
  split
  · rfl
  next t h => exact decide_eq_true (ht t h)

/-- An item whose time is no earlier than the time input, nor than the previous decode step, runs what it spells
(R386). -/
theorem fetchItem_ok {it : Item} {rest : List Item} {s : State} {i : Instr} (hc : s.clock ≤ it.now)
    (ht : ∀ t, s.a.tPrev = some t → t ≤ it.now) (hd : decode it.port it.bytes = .ok i) :
    fetchItem it { s with inbox := rest } = exec i (s.fetched it rest) :=
  (if_neg hc.not_gt).trans ((if_pos (fetched_timeOk ht)).trans (by rw [hd]; rfl))

/-- R131, R385: what spells nothing is refused, and no more. -/
theorem fetchItem_refused {it : Item} {rest : List Item} {s : State} {r : PortRefusal} (hc : s.clock ≤ it.now)
    (ht : ∀ t, s.a.tPrev = some t → t ≤ it.now) (hd : decode it.port it.bytes = .error r) :
    fetchItem it { s with inbox := rest } = .next ((s.fetched it rest).deliver (.refused r)) :=
  (if_neg hc.not_gt).trans ((if_pos (fetched_timeOk ht)).trans (by rw [hd]; rfl))

/-- Settles O49: the opcodes are read off `operandsOf`; a refused item is fetched and its refusal delivered. -/
theorem illegalOpcodesRefused : Obligations.IllegalOpcodesRefused :=
  ⟨fun op l => (decodeHost_illegalCommand_iff op l).trans (operandsOf_eq_none_iff op),
    fun s _ _ _ _ hs hw hb hc ht hd =>
      (step_fetch hw hb hs).trans (fetchItem_refused (s := s.withSched s.env.sched.tail) hc ht hd)⟩

/-! ### The device and the clock -/

theorem deviceTurn_response {s : State} {chunk : List Byte} {rest : List (List Byte)} {i : Instr}
    (hl : s.linkIn = chunk :: rest) (hd : decode .rx chunk = .ok i) :
    deviceTurn s = exec i { s with linkIn := rest } := by
  have hd' : decodeRx chunk = .ok i := hd
  simp [deviceTurn, hl, hd']

theorem deviceTurn_noFrame {s : State} {chunk : List Byte} {rest : List (List Byte)} {r : PortRefusal}
    (hl : s.linkIn = chunk :: rest) (hd : decode .rx chunk = .error r) :
    deviceTurn s = .next { s with t := { s.t with rx := s.t.rx ++ chunk }, linkIn := rest } := by
  have hd' : decodeRx chunk = .error r := hd
  simp [deviceTurn, hl, hd', State.setRx]

theorem deviceTurn_nothing {s : State} (hl : s.linkIn = []) : deviceTurn s = .next s := by
  simp [deviceTurn, hl]

/-- T_JOIN passes for no one. -/
theorem joinTurn_noStop {s : State} (h : ∀ wake ws, s.con.todo ≠ .join wake :: ws) : joinTurn s = .next s := by
  unfold joinTurn
  split
  next wake ws hw => exact absurd hw (h wake ws)
  next => rfl

/-! ### The poller -/

/-- The poller's step, or nothing. -/
def pollerTurn (s : State) : Out := (pollerStep s).elim (.next s) .next

theorem pollerTurn_cases (s : State) :
    (∀ t, pollerStep s = some t → pollerTurn s = .next t) ∧ (pollerStep s = none → pollerTurn s = .next s) :=
  ⟨fun t h => by simp [pollerTurn, h], fun h => by simp [pollerTurn, h]⟩

theorem turnStep_consumer_given {s : State} (h : s.consumerCan = false) : turnStep .consumer s = pollerTurn s := by
  unfold turnStep pollerTurn
  cases pollerStep s <;> simp [h]

theorem turnStep_poller {s t : State} (h : pollerStep s = some t) : turnStep .poller s = .next t := by
  simp [turnStep, h]

/-- The poller's turn is the consumer's where the poller has no step. -/
theorem turnStep_poller_given {s : State} (h : pollerStep s = none) : turnStep .poller s = turnStep .consumer s := by
  simp [turnStep, h]

theorem unscheduledStep_device {s : State} (hc : s.consumerCan = false) (hl : s.linkIn ≠ []) :
    unscheduledStep s = deviceTurn s := by
  obtain ⟨chunk, rest, hl⟩ := List.exists_cons_of_ne_nil hl
  simp [unscheduledStep, hc, hl]

theorem unscheduledStep_poller {s : State} (hc : s.consumerCan = false) (hl : s.linkIn = []) :
    unscheduledStep s = pollerTurn s := by
  unfold unscheduledStep pollerTurn
  cases pollerStep s <;> simp [hc, hl]

/-! ### Every turn -/

/-- Settles O47: each turn by the lemma about it; with nothing scheduled the first turn of the three that has a step. -/
theorem stepRunsDecoded : Obligations.StepRunsDecoded := by
  refine ⟨?_, ?_, ?_, ?_⟩
  · intro s it rest sched i hw hb hc ht hd hs
    exact (step_fetch hw hb hs).trans (fetchItem_ok (s := s.withSched s.env.sched.tail) hc ht hd)
  · intro s chunk rest sched hl hs
    rw [step_scheduled hs]
    exact ⟨fun i => deviceTurn_response hl, fun r => deviceTurn_noFrame hl⟩
  · intro s sched s0
    refine ⟨fun hs => ?_, fun hs hc => ?_, fun hs hl => ?_, fun hs hj => ?_⟩
    · rw [step_scheduled hs]
      refine ⟨fun t => turnStep_poller, fun hp _ => turnStep_poller_given hp, fun hp hc => ?_⟩
      exact (turnStep_poller_given hp).trans ((turnStep_consumer_given hc).trans ((pollerTurn_cases s0).2 hp))
    · rw [step_scheduled hs, turnStep_consumer_given (s := s.withSched sched) hc]
      exact pollerTurn_cases s0
    · rw [step_scheduled hs]
      exact deviceTurn_nothing hl
    · rw [step_scheduled hs]
      exact joinTurn_noStop hj
  · intro s hs
    refine ⟨fun hc => ?_, fun hc hl => ?_, fun hc hl => ?_, fun hw => ?_⟩
    · rw [step_unscheduled hs, unscheduledStep_consumer hc, ← turnStep_consumer hc]
      exact (step_withSched_singleton .consumer hs).symm
    · rw [step_unscheduled hs, unscheduledStep_device hc hl]
      exact (step_withSched_singleton .device hs).symm
    · rw [step_unscheduled hs, unscheduledStep_poller hc hl]
      exact pollerTurn_cases s
    · simp [consumerCan_idle hw]

end Sys2Proof.Machine
end

section
/-! CRC7 (40_crc7.md): linearity over exclusive-or (R155), from it the detection of one flipped bit (R154), and the
remainder of a polynomial over GF(2) (R152). -/

open Polynomial

namespace Sys2Proof.Machine

/-! ### Linearity -/

/-- What one bit subtracts from the shifted register: R150's 0x09 where the feedback bit is 1. -/
def crcFeedback (fb : Bool) : Crc := if fb then 0x09#7 else 0

theorem crcBit_eq_shift_xor_feedback (c : Crc) (b : Bool) :
    crcBit c b = c <<< 1 ^^^ crcFeedback (b ^^ c.getLsbD 6) := by
  unfold crcBit crcFeedback
  split <;> simp

theorem crcFeedback_xor (a b : Bool) : crcFeedback (a ^^ b) = crcFeedback a ^^^ crcFeedback b := by
  revert a b; decide

theorem crcBit_xor (c d : Crc) (a b : Bool) : crcBit (c ^^^ d) (a ^^ b) = crcBit c a ^^^ crcBit d b := by
  simp only [crcBit_eq_shift_xor_feedback, crcFeedback_xor, BitVec.getLsbD_xor, BitVec.shiftLeft_xor_distrib]
  ac_rfl

theorem crcByte_xor (c d : Crc) (a b : Byte) : crcByte (c ^^^ d) (a ^^^ b) = crcByte c a ^^^ crcByte d b := by
  simp only [crcByte, List.foldl, BitVec.getLsbD_xor, crcBit_xor]

theorem foldl_crcByte_xor (c d : Crc) (a b : List Byte) (h : a.length = b.length) :
    (List.zipWith (· ^^^ ·) a b).foldl crcByte (c ^^^ d) = a.foldl crcByte c ^^^ b.foldl crcByte d := by
  induction a generalizing b c d with
  | nil => rw [List.length_eq_zero_iff.1 h.symm]; rfl
  | cons x a ih =>
    cases b with
    | nil => cases h
    | cons y b =>
      rw [List.zipWith_cons_cons, List.foldl_cons, crcByte_xor]
      exact ih _ _ b (Nat.succ.inj h)

/-- Settles O2: the start value 0 is the exclusive-or of two of them. -/
theorem crcIsLinear : Obligations.CrcIsLinear := fun a b h => foldl_crcByte_xor 0 0 a b h

/-! ### One flipped bit -/

/-- The feedback 0x09 sets bit 0, which the shift leaves clear, so the bit that was shifted out is not lost. -/
theorem eq_zero_of_crcBit_false_eq_zero (c : Crc) (h : crcBit c false = 0) : c = 0 := by
  revert c; decide

theorem crcBit_injective (b : Bool) : Function.Injective (crcBit · b) := by
  intro c d h
  have hd : crcBit (c ^^^ d) false = 0 := calc
    crcBit (c ^^^ d) false = crcBit (c ^^^ d) (b ^^ b) := by rw [Bool.xor_self]
    _ = crcBit c b ^^^ crcBit d b := crcBit_xor c d b b
    _ = 0 := BitVec.xor_eq_zero_iff.2 h
  exact BitVec.xor_eq_zero_iff.1 (eq_zero_of_crcBit_false_eq_zero _ hd)

theorem crcByte_ne {c d : Crc} (h : c ≠ d) (b : Byte) : crcByte c b ≠ crcByte d b :=
  List.foldl_rel (r := (· ≠ ·)) h fun i _ _ _ hne => (crcBit_injective (b.getLsbD i)).ne hne

theorem crcByte_zero_twoPow_ne {j : Nat} (h : j < 8) : crcByte 0 (BitVec.twoPow 8 j) ≠ 0 := by
  revert j; decide

theorem crcByte_flip_ne (c : Crc) (b : Byte) {j : Nat} (h : j < 8) :
    crcByte c (b ^^^ BitVec.twoPow 8 j) ≠ crcByte c b := by
  have hx : crcByte c (b ^^^ BitVec.twoPow 8 j) = crcByte c b ^^^ crcByte 0 (BitVec.twoPow 8 j) := by
    simp [← crcByte_xor]
  rw [hx]
  simpa using crcByte_zero_twoPow_ne h

/-- Settles O3: the checksums differ after the flipped byte, and each byte after it keeps them apart. -/
theorem crcDetectsOneBit : Obligations.CrcDetectsOneBit := by
  intro before after b j h
  simp only [crc7, List.foldl_append, List.foldl_cons]
  exact List.foldl_rel (r := (· ≠ ·)) (crcByte_flip_ne _ b h) fun x _ _ _ hne => crcByte_ne hne x

/-! ### The remainder -/

/-- A bit as a constant polynomial over GF(2). -/
noncomputable def bitPoly (b : Bool) : (ZMod 2)[X] := if b then 1 else 0

/-- A word as a polynomial over GF(2): bit `k` is the coefficient of x^k. -/
noncomputable def wordPoly {n : Nat} (w : BitVec n) : (ZMod 2)[X] :=
  ∑ i : Fin n, bitPoly (w.getLsbD i) * X ^ (i : Nat)

/-- R152's `G(x)`. -/
noncomputable def crcGen : (ZMod 2)[X] := X ^ 7 + X ^ 3 + 1

theorem bitPoly_eq_C (b : Bool) : bitPoly b = C (if b then 1 else 0) := by
  cases b <;> simp [bitPoly]

theorem bitPoly_xor (a b : Bool) : bitPoly (a ^^ b) = bitPoly a + bitPoly b := by
  cases a <;> cases b <;> simp [bitPoly, CharTwo.add_self_eq_zero]

theorem degree_wordPoly_lt {n : Nat} (w : BitVec n) : (wordPoly w).degree < n := by
  simp only [wordPoly, bitPoly_eq_C]
  exact degree_sum_fin_lt _

theorem crcGen_monic : crcGen.Monic := by
  unfold crcGen; monicity!

theorem crcGen_degree : crcGen.degree = (7 : ℕ) := by
  unfold crcGen; compute_degree!

theorem wordPoly_xor {n : Nat} (v w : BitVec n) : wordPoly (v ^^^ w) = wordPoly v + wordPoly w := by
  simp only [wordPoly, BitVec.getLsbD_xor, bitPoly_xor, add_mul, Finset.sum_add_distrib]

/-- The shift is the product by x, less the power that leaves the word. -/
theorem wordPoly_shiftLeft_one {n : Nat} (w : BitVec (n + 1)) :
    wordPoly (w <<< 1) = X * wordPoly w - bitPoly (w.getLsbD n) * X ^ (n + 1) := by
  have hl : wordPoly (w <<< 1) = ∑ i : Fin n, bitPoly (w.getLsbD i) * X ^ (i + 1 : Nat) := by
    simp [wordPoly, Fin.sum_univ_succ, bitPoly]
  have hx : ∑ i : Fin n, bitPoly (w.getLsbD i) * X ^ (i + 1 : Nat) =
      X * ∑ i : Fin n, bitPoly (w.getLsbD i) * X ^ (i : Nat) := by
    rw [Finset.mul_sum]
    exact Finset.sum_congr rfl fun i _ => by ring
  have hw : wordPoly w = ∑ i : Fin n, bitPoly (w.getLsbD i) * X ^ (i : Nat) + bitPoly (w.getLsbD n) * X ^ n :=
    Fin.sum_univ_castSucc _
  rw [hl, hx, hw]
  ring

/-- 0x09 is `G` without its highest power. -/
theorem wordPoly_crcFeedback (fb : Bool) : wordPoly (crcFeedback fb) = bitPoly fb * (crcGen - X ^ 7) := by
  cases fb with
  | false => simp [wordPoly, crcFeedback, bitPoly]
  | true =>
    have hw : wordPoly (0x09#7) = 1 + X ^ 3 := by simp [wordPoly, bitPoly, Fin.sum_univ_seven]
    have hg : crcGen - X ^ 7 = 1 + X ^ 3 := by unfold crcGen; ring
    rw [hg, bitPoly, if_pos rfl, one_mul]
    exact hw

/-- One bit: the product by x and the bit times x^7, with `G` added where the feedback is 1. -/
theorem wordPoly_crcBit (c : Crc) (b : Bool) :
    wordPoly (crcBit c b) = X * wordPoly c + bitPoly b * X ^ 7 + bitPoly (b ^^ c.getLsbD 6) * crcGen := by
  have h2 : (2 : (ZMod 2)[X]) = 0 := CharTwo.two_eq_zero
  rw [crcBit_eq_shift_xor_feedback, wordPoly_xor, wordPoly_shiftLeft_one, wordPoly_crcFeedback, bitPoly_xor]
  linear_combination (-bitPoly b - bitPoly (c.getLsbD 6)) * X ^ 7 * h2

/-- The register `c` is, modulo `G`, the message `m` read so far times x^7. -/
def CrcOf (c : Crc) (m : (ZMod 2)[X]) : Prop := crcGen ∣ m * X ^ 7 - wordPoly c

theorem CrcOf.bit {c : Crc} {m : (ZMod 2)[X]} (h : CrcOf c m) (b : Bool) : CrcOf (crcBit c b) (m * X + bitPoly b) := by
  obtain ⟨q, hq⟩ := h
  refine ⟨X * q - bitPoly (b ^^ c.getLsbD 6), ?_⟩
  rw [wordPoly_crcBit]
  linear_combination X * hq

theorem CrcOf.byte {c : Crc} {m : (ZMod 2)[X]} (h : CrcOf c m) (b : Byte) :
    CrcOf (crcByte c b) (m * X ^ 8 + wordPoly b) := by
  have hb : m * X ^ 8 + wordPoly b =
      [7, 6, 5, 4, 3, 2, 1, 0].foldl (fun m i => m * X + bitPoly (b.getLsbD i)) m := by
    simp only [wordPoly, Fin.sum_univ_eight, Fin.coe_ofNat_eq_mod, Nat.reduceMod, List.foldl]
    ring
  rw [hb]
  exact List.foldl_rel h fun i _ _ _ h => h.bit (b.getLsbD i)

theorem crcOf_crc7 (bytes : List Byte) :
    CrcOf (crc7 bytes) (bytes.foldl (fun m b => m * X ^ 8 + wordPoly b) 0) :=
  List.foldl_rel (by simp [CrcOf, wordPoly, bitPoly]) fun b _ _ _ h => h.byte b

theorem CrcOf.modByMonic {c : Crc} {m : (ZMod 2)[X]} (h : CrcOf c m) : (m * X ^ 7) %ₘ crcGen = wordPoly c := by
  obtain ⟨q, hq⟩ := h
  refine (div_modByMonic_unique q _ crcGen_monic ⟨?_, ?_⟩).2
  · rw [← hq, add_sub_cancel]
  · rw [crcGen_degree]
    exact degree_wordPoly_lt c

/-- Settles O1: the register is the message times x^7 modulo `G`, and has fewer than eight coefficients. -/
theorem crcIsPolynomialRemainder : Obligations.CrcIsPolynomialRemainder :=
  fun bytes => (crcOf_crc7 bytes).modByMonic.symm

/-! ### The pure commands -/

/-- Settles O9: a command whose time is accepted is its change of the state, here the delivery of a result. -/
theorem pureCommandsComplete : Obligations.PureCommandsComplete := fun _ ht =>
  ⟨fun _ => command_of_timeOk ht _, fun _ => command_of_timeOk ht _, command_of_timeOk ht _⟩

end Sys2Proof.Machine
end

section
/-! The frame codec (41_frame_codec.md): what BUILD makes, as numbers (R170), what PARSE accepts (R172), that it reads a
built frame back (R174), and that it refuses a changed one (R175). -/

namespace Sys2Proof.Machine

/-! ### BUILD -/

theorem maskAddr_toNat (address : Nat) : (maskAddr address).toNat = address % 0x80 :=
  BitVec.toNat_ofNat _ _

theorem byteOf_false_toNat (l : BitVec 7) : (byteOf false l).toNat = l.toNat :=
  (byteOf_toNat false l).trans (Nat.zero_add _)

/-- R114: a built frame carries the checksum of its first four bytes. -/
theorem build_crc (dev : DevId) (addr : Addr) (w : Bool) (data : Value) :
    crc7 [(build dev addr w data).b1, (build dev addr w data).b2, (build dev addr w data).b3,
      (build dev addr w data).b4] = low7 (build dev addr w data).b5 :=
  (low7_byteOf false _).symm

/-- Settles O4: the command is its delivery, and each byte of `build` is one of the fields read as a number. -/
theorem buildGivesFrame : Obligations.BuildGivesFrame := by
  intro s address w data ht
  refine ⟨_, command_of_timeOk ht _, ?_, ?_, ?_, ?_, ?_⟩
  · have htop : data.toNat / 2 ^ 14 = data.toNat / 2 ^ 15 % 2 * 2 + data.toNat / 2 ^ 14 % 2 := by
      have := data.isLt
      omega
    refine (headerByte_toNat w data s.t.deviceId).trans ?_
    omega
  · exact (byteOf_false_toNat _).trans (maskAddr_toNat address)
  · exact (byteOf_false_toNat _).trans (dataHigh_toNat data)
  · exact (byteOf_false_toNat _).trans (dataLow_toNat data)
  · exact byteOf_false_toNat _

/-! ### The fields of a reply as numbers -/

theorem syncOf_toNat (b : Byte) : (syncOf b).toNat = b.toNat / 2 ^ 6 := by
  have hb : b.toNat / 2 ^ 6 < 2 ^ 2 := by have := b.isLt; omega
  rw [syncOf, BitVec.extractLsb'_toNat, Nat.shiftRight_eq_div_pow, Nat.mod_eq_of_lt hb]

theorem devOf_toNat (b : Byte) : (devOf b).toNat = b.toNat % 2 ^ 3 := by
  simp [devOf]

theorem low7_toNat (b : Byte) : (low7 b).toNat = b.toNat % 0x80 := by
  simp [low7]

/-- Three fields side by side, seven bits over seven: the or is the sum. -/
theorem or_data_parts_eq_add {k h l : Nat} (hh : h < 2 ^ 7) (hl : l < 2 ^ 7) :
    k * 2 ^ 14 ||| h * 2 ^ 7 ||| l = k * 2 ^ 14 + h * 2 ^ 7 + l := by
  rw [Nat.mul_comm k, ← Nat.two_pow_add_eq_or_of_lt (show h * 2 ^ 7 < 2 ^ 14 by omega) k,
    show 2 ^ 14 * k + h * 2 ^ 7 = 2 ^ 7 * (2 ^ 7 * k + h) by omega, ← Nat.two_pow_add_eq_or_of_lt hl]

/-- R111: the three parts of the data stand side by side. -/
theorem dataOf_toNat (b1 b3 b4 : Byte) :
    (dataOf b1 b3 b4).toNat = b1.toNat / 2 ^ 3 % 4 * 2 ^ 14 + b3.toNat % 0x80 * 2 ^ 7 + b4.toNat % 0x80 := by
  have htop : ((b1.extractLsb' 3 2).setWidth 16 <<< 14).toNat = b1.toNat / 2 ^ 3 % 4 * 2 ^ 14 := by
    simp only [BitVec.toNat_shiftLeft, BitVec.toNat_setWidth, BitVec.extractLsb'_toNat, Nat.shiftRight_eq_div_pow,
      Nat.shiftLeft_eq]
    omega
  have hhigh : ((low7 b3).setWidth 16 <<< 7).toNat = b3.toNat % 0x80 * 2 ^ 7 := by
    simp only [BitVec.toNat_shiftLeft, BitVec.toNat_setWidth, low7_toNat, Nat.shiftLeft_eq]
    omega
  have hlow : ((low7 b4).setWidth 16).toNat = b4.toNat % 0x80 := by
    rw [BitVec.toNat_setWidth_of_le (by decide), low7_toNat]
  rw [dataOf, BitVec.toNat_or, BitVec.toNat_or, htop, hhigh, hlow]
  exact or_data_parts_eq_add (Nat.mod_lt _ (by decide)) (Nat.mod_lt _ (by decide))

/-! ### PARSE -/

/-- R172, R173: PARSE gives a value exactly where there are five bytes and the checks hold. -/
theorem parse_eq_some_iff {resp : List Byte} {addr : Addr} {dev : DevId} {v : Value} :
    parse resp addr dev = some v ↔
      ∃ b1 b2 b3 b4 b5, resp = [b1, b2, b3, b4, b5] ∧ syncOf b1 = 0b11#2 ∧ devOf b1 = dev ∧ low7 b2 = addr ∧
        crc7 [b1, b2, b3, b4] = low7 b5 ∧ v = dataOf b1 b3 b4 := by
  constructor
  · fun_cases parse resp addr dev
    case case5 b1 b2 b3 b4 b5 hsync hdev haddr hcrc =>
      intro h
      exact ⟨b1, b2, b3, b4, b5, rfl, not_not.1 hsync, not_not.1 hdev, not_not.1 haddr, not_not.1 hcrc,
        (Option.some.inj h).symm⟩
    all_goals nofun
  · rintro ⟨b1, b2, b3, b4, b5, rfl, hsync, hdev, haddr, hcrc, rfl⟩
    simp [parse, hsync, hdev, haddr, hcrc]

/-- Settles O5: the command is its delivery, and the checks of `parse` are the rule's, read as numbers. -/
theorem parseAcceptsExactly : Obligations.ParseAcceptsExactly := by
  intro s resp addr dev ht
  refine ⟨_, command_of_timeOk ht _, fun v => parse_eq_some_iff.trans ?_⟩
  simp only [← BitVec.toNat_inj, syncOf_toNat, devOf_toNat, low7_toNat, dataOf_toNat, BitVec.reduceToNat]

/-- R174, R175: PARSE gives a built frame's data back to who expects its address and device id, and to nobody else. -/
theorem parse_build_eq_some_iff {i i' : DevId} {a a' : Addr} {w : Bool} {d v : Value} :
    parse (build i a w d).bytes a' i' = some v ↔ i = i' ∧ a = a' ∧ v = d := by
  rw [parse_eq_some_iff]
  constructor
  · rintro ⟨b1, b2, b3, b4, b5, hf, -, hdev, haddr, -, rfl⟩
    cases hf
    exact ⟨(devOf_headerByte w d i).symm.trans hdev, (low7_byteOf false a).symm.trans haddr,
      dataOf_built w d i false false⟩
  · rintro ⟨rfl, rfl, rfl⟩
    exact ⟨_, _, _, _, _, rfl, syncOf_headerByte w v i, devOf_headerByte w v i, low7_byteOf false a,
      build_crc i a w v, (dataOf_built w v i false false).symm⟩

/-- Settles O6: the case of the frame's own address and device id. -/
theorem parseOfBuild : Obligations.ParseOfBuild := fun _ _ _ =>
  ⟨parse_build_eq_some_iff.2 ⟨rfl, rfl, rfl⟩, parse_build_eq_some_iff.2 ⟨rfl, rfl, rfl⟩⟩

/-- R172: bytes under a checksum that is not theirs are refused. -/
theorem parse_eq_none_of_crc7_ne {l : List Byte} {b5 : Byte} (h : crc7 l ≠ low7 b5) (addr : Addr) (dev : DevId) :
    parse (l ++ [b5]) addr dev = none := by
  refine Option.eq_none_iff_forall_ne_some.2 fun v hv => ?_
  obtain ⟨b1, b2, b3, b4, c5, hl, -, -, -, hcrc, -⟩ := parse_eq_some_iff.1 hv
  obtain ⟨rfl, hb⟩ := List.append_inj' (show l ++ [b5] = [b1, b2, b3, b4] ++ [c5] from hl) rfl
  cases hb
  exact h hcrc

/-- R154, R175: one flipped bit under the checksum of the bytes before the flip. -/
theorem parse_flip_eq_none {before after : List Byte} {b b5 : Byte} (h : crc7 (before ++ b :: after) = low7 b5) {j : Nat}
    (hj : j < 8) (addr : Addr) (dev : DevId) :
    parse (before ++ (b ^^^ BitVec.twoPow 8 j) :: after ++ [b5]) addr dev = none :=
  parse_eq_none_of_crc7_ne (h ▸ crcDetectsOneBit before after b j hj) addr dev

/-- Settles O7: the address and the device id are compared, a flipped bit changes the checksum (R154), and another `b5`
carries another checksum. -/
theorem parseRefusesMutations : Obligations.ParseRefusesMutations := by
  intro i a w d
  have refuse {a' i'} (h : ¬ (i = i' ∧ a = a')) : parse (build i a w d).bytes a' i' = none :=
    Option.eq_none_iff_forall_ne_some.2 fun v hv =>
      have ⟨hi, ha, _⟩ := parse_build_eq_some_iff.1 hv
      h ⟨hi, ha⟩
  refine ⟨fun a' ha => refuse fun h => ha h.2.symm, fun i' hi => refuse fun h => hi h.1.symm, ?_⟩
  rintro f rfl
  have hcrc := build_crc i a w d
  refine ⟨fun j hj => ?_, fun j hj => ?_, fun j hj => ?_, fun j hj => ?_, fun b5 hb => ?_⟩
  · exact parse_flip_eq_none (before := []) hcrc hj a i
  · exact parse_flip_eq_none (before := [_]) hcrc hj a i
  · exact parse_flip_eq_none (before := [_, _]) hcrc hj a i
  · exact parse_flip_eq_none (before := [_, _, _]) hcrc hj a i
  · refine parse_eq_none_of_crc7_ne (l := [_, _, _, _]) (fun h => hb ?_) a i
    rw [← low7_toNat, ← low7_toNat, ← h, hcrc]

end Sys2Proof.Machine
end

section
/-! The lock and the link's traffic at every step (R200, R201, R202, R91): the invariant, move by move. -/

namespace Sys2Proof.Machine

/-- The invariant where the lock, the traffic, the consumer's work and the poller's hold on the link are as they were. -/
theorem LinkInv.of_link {s t : State} (h : LinkInv s) (hl : t.t.lock = s.t.lock) (hw : t.con.todo = s.con.todo)
    (hf : t.p.io.flight = s.p.io.flight) (ho : linkTrace t.out = linkTrace s.out)
    (hfits : t.p.io.fits t.p.ctl = true) (hlives : t.p.io = .idle ∨ t.p.alive = true) : LinkInv t where
  link := by rw [hl, hw, hf, ho]; exact h.link
  quiet := by rw [hw]; exact h.quiet
  fits := hfits
  lives := hlives

/-- An update that takes no lock, does no work, leaves the poller as it is and puts out nothing on the link. -/
theorem LinkInv.offLink {s t : State} (h : LinkInv s) (hl : t.t.lock = s.t.lock) (hw : t.con.todo = s.con.todo)
    (hi : t.p.io = s.p.io) (hc : t.p.ctl = s.p.ctl) (ha : t.p.alive = s.p.alive) (es : List Event)
    (ho : t.out = s.out ++ es) (he : ∀ e ∈ es, e.offLink = true) : LinkInv t :=
  h.of_link hl hw (by rw [hi]) (by rw [ho, linkTrace_offLink _ he]) (by rw [hi, hc]; exact h.fits)
    (by rw [hi, ha]; exact h.lives)

/-- The consumer's work, begun where the link is in order for it, does not touch the poller. -/
theorem runWork_linkInv {ws : List Work} {s : State} (hw : WorkLink ws s) (h0 : s.con.todo = [])
    (hfits : s.p.io.fits s.p.ctl = true) (hlives : s.p.io = .idle ∨ s.p.alive = true) : LinkInv (runWork ws s) := by
  have hp : (runWork ws s).p = s.p := (runWork_run ws s).p
  have hk := runWork_link ws s hw h0
  exact ⟨hk.1, hk.2, by rw [hp]; exact hfits, by rw [hp]; exact hlives⟩

theorem LinkInv.workLink {s : State} {ws : List Work} (h : LinkInv s) (hw : s.con.todo = ws) : WorkLink ws s := by
  subst hw
  exact ⟨h.link, h.quiet⟩

theorem Effect.linkInv {s t : State} (h : Effect s t) (hs : LinkInv s) (hw : s.con.todo = []) : LinkInv t := by
  cases h with
  | report r => exact hs.offLink rfl rfl rfl rfl rfl [.result r] rfl (by simp [Event.offLink])
  | automaton a k sev ht =>
    exact hs.offLink rfl rfl rfl rfl rfl [.log k sev, .result .unit] (by simp) (by simp [Event.offLink])
  | setcfg f v hv =>
    exact hs.offLink rfl rfl rfl rfl rfl [.log (.setConfig f) .info, .result (.bool true)] (by simp)
      (by simp [Event.offLink])
  | unconfigure hr ha => exact hs.offLink rfl rfl rfl rfl rfl [.result (.bool false)] rfl (by simp [Event.offLink])
  | pconfig addrs hr ha => exact hs.offLink rfl rfl rfl rfl rfl [.result (.bool true)] rfl (by simp [Event.offLink])
  | pstart hr ha =>
    have hi : s.p.io = .idle := hs.lives.resolve_right (by simp [ha])
    exact hs.of_link rfl rfl rfl (linkTrace_offLink _ (es := [.result (.bool true)]) (by simp [Event.offLink]))
      (by simp [hi, PollIo.fits]) (.inr rfl)
  | work ws a running drained hq ht =>
    have hk : WorkLink ws s := .quiet hq (hs.workLink hw)
    exact runWork_linkInv (hk.of_eq rfl rfl rfl) hw hs.fits hs.lives
  | arrive l => exact hs.offLink rfl rfl rfl rfl rfl [] (by simp) (by simp)

theorem LinkInv.linkFor_poller {s : State} {x : Xact} (h : LinkInv s) (hi : s.p.io = .xact x) :
    LinkFor .poller s.t.lock x.flight (flightOf s.con.todo) (linkTrace s.out) := by
  have hlink := h.link
  rw [hi] at hlink
  exact hlink

/-- A step of the poller's transaction: the link in order for its new progress. -/
theorem LinkInv.pollerXact {s s' : State} {io : PollIo} {i : Nat} (h : LinkInv s) (hc : s.p.ctl = .read i)
    (ha : s.p.alive = true) (hf : LinkFrame s s') (hio : io.fits (.read i) = true)
    (hl : LinkFor .poller s'.t.lock io.flight (flightOf s.con.todo) (linkTrace s'.out)) :
    LinkInv (s'.setPoll s'.p.ctl io) where
  link := by rw [State.setPoll_con, hf.con]; exact hl
  quiet := by rw [State.setPoll_con, hf.con]; exact h.quiet
  fits := by simpa [hf.p, hc] using hio
  lives := .inr (by simpa [hf.p] using ha)

theorem linkTrace_emitIf (s : State) (b : Bool) {e : Event} (he : e.offLink = true) :
    linkTrace (s.emitIf b e).out = linkTrace s.out :=
  linkTrace_offLink s.out (by cases b <;> simp [he])

/-- The reports at a pass's end are none of the link's (R237, R238). -/
theorem endPass_linkInv {s : State} (hs : LinkInv s) (hi : s.p.io = .idle) : LinkInv (endPass s) := by
  have hio : (endPass s).p.io = .idle := (endPass_io s).trans hi
  refine hs.of_link (by simp [endPass]) (by rw [(endPass_frame s).con]) (by rw [endPass_io]) ?_
    (by rw [hio]; rfl) (.inl hio)
  unfold endPass
  dsimp only
  rw [linkTrace_emitIf _ _ rfl, linkTrace_emitIf _ _ rfl, State.readNow_out]

theorem PollMove.linkInv {s t : State} (h : PollMove s t) (hs : LinkInv s) (ha : s.p.alive = true) : LinkInv t := by
  cases h with
  | exit i hc hi hr => exact hs.of_link rfl rfl rfl rfl (by simp [State.pollExit, hi, PollIo.fits]) (.inl hi)
  | backOff i hc hi hr ht => exact hs.of_link rfl rfl (by rw [hi]; rfl) rfl rfl (.inr ha)
  | start i e hc hi hr ht he => exact hs.of_link rfl rfl (by rw [hi]; rfl) rfl rfl (.inr ha)
  | more i x x' s' hc hi hx =>
    have hk := xactStep_link .poller x s (flightOf s.con.todo) (hs.linkFor_poller hi)
    rw [hx] at hk
    exact hs.pollerXact hc ha (xactStep_more_frame hx) rfl hk.2
  | done i x v s' hc hi hx =>
    have hk := xactStep_link .poller x s (flightOf s.con.todo) (hs.linkFor_poller hi)
    rw [hx] at hk
    exact hs.pollerXact hc ha (xactStep_done_frame hx) rfl hk
  | push i e x hc hi he => exact hs.of_link rfl rfl (by rw [hi]; rfl) rfl rfl (.inr ha)
  | skip i e hc hi he => exact hs.of_link rfl rfl (by rw [hi]; rfl) rfl rfl (.inr ha)
  | wake i wake hc hi =>
    exact hs.of_link rfl rfl (by rw [hi]; rfl)
      (linkTrace_offLink _ (es := [.sleep .poller .interpoll _]) (by simp [Event.offLink])) (by split <;> rfl) (.inl rfl)
  | endPass hc hi => exact endPass_linkInv hs hi
  | retry i wake hc hi =>
    exact hs.of_link rfl rfl (by rw [hi]; rfl)
      (linkTrace_offLink _ (es := [.sleep .poller .backoff _]) (by simp [Event.offLink])) rfl (.inl rfl)

theorem Move.linkInv {s t : State} (h : Move s t) (hs : LinkInv s) : LinkInv t := by
  cases h with
  | wait => exact hs
  | poller ha h => exact h.linkInv hs ha
  | resume hw ht => exact runWork_linkInv (s := s.resumed) ((hs.workLink hw).of_eq rfl rfl rfl) rfl hs.fits hs.lives
  | @join wake ws hw ht =>
    obtain ⟨hlink, hquiet⟩ := hs.workLink hw
    have hfree : WorkLink [] s := ⟨hlink, by intro w hw; cases hw⟩
    have hk : WorkLink ws (s.resumed.sleep .consumer .join wake) :=
      (hfree.quiet (show allQuiet ws from hquiet)).offLink rfl rfl [.sleep .consumer .join _] rfl
        (by simp [Event.offLink])
    exact runWork_linkInv hk rfl hs.fits hs.lives
  | fetch hw hb hc ht h => exact h.linkInv (hs.offLink rfl rfl rfl rfl rfl [] (by simp [State.fetched]) (by simp)) hw
  | device l chunk rest hl => exact hs.offLink rfl rfl rfl rfl rfl [] (by simp) (by simp)

/-- Settles O53: each thing a step can do keeps the invariant: the poller's transaction by `xactStep_link`, the consumer's
work by `runWork_link`; nothing else takes the lock or speaks on the link. -/
theorem linkInvariantKept : Obligations.LinkInvariantKept := by
  intro s t hs h
  obtain ⟨l, hm⟩ := step_move h
  obtain ⟨hlink, hquiet, hfits, hlives⟩ := hs
  exact hm.linkInv ⟨hlink, hquiet, hfits, hlives⟩

end Sys2Proof.Machine
end

section
/-! The transport's commands (42_transport.md): undisturbed they complete (R203, R204, R206, R207), at every schedule the
transactions leave all but the link alone (R361), and a failed reply is reported by its first failing check (R381). -/

namespace Sys2Proof.Machine

/-! ### The code of a failed reply -/

theorem failKind_five (b1 b2 b3 b4 b5 : Byte) (addr : Addr) (dev : DevId) :
    (failKind [b1, b2, b3, b4, b5] addr dev).code =
      if b1.toNat / 2 ^ 6 ≠ 3 then 0x12
      else if b1.toNat % 2 ^ 3 ≠ dev.toNat then 0x13
      else if b2.toNat % 0x80 ≠ addr.toNat then 0x14
      else 0x15 := by
  have hsync : syncOf b1 ≠ 0b11#2 ↔ b1.toNat / 2 ^ 6 ≠ 3 := by
    rw [ne_eq, ← BitVec.toNat_inj, syncOf_toNat]
    rfl
  have hdev : devOf b1 ≠ dev ↔ b1.toNat % 2 ^ 3 ≠ dev.toNat := by rw [ne_eq, ← BitVec.toNat_inj, devOf_toNat]
  have haddr : low7 b2 ≠ addr ↔ b2.toNat % 0x80 ≠ addr.toNat := by rw [ne_eq, ← BitVec.toNat_inj, low7_toNat]
  simp only [failKind, hsync, hdev, haddr, apply_ite ErrorKind.code]
  rfl

theorem failKind_short {r : List Byte} (h0 : r ≠ []) (h5 : r.length < 5) (addr : Addr) (dev : DevId) :
    failKind r addr dev = .shortRead := by
  unfold failKind
  split
  · exact absurd rfl h0
  · exact absurd h5 (by simp)
  · rfl

/-- Settles O8: none, one to four, or five bytes; five by the checks in their order, read as numbers. -/
theorem failKindIsFirstCheck : Obligations.FailKindIsFirstCheck := by
  intro r addr dev hlen _
  by_cases h5 : r.length < 5
  · by_cases h0 : r = []
    · subst h0; rfl
    · rw [failKind_short h0 h5, if_neg (by simpa using h0), if_pos h5]
      rfl
  · obtain ⟨b1, b2, b3, b4, b5, rfl⟩ : ∃ b1 b2 b3 b4 b5, r = [b1, b2, b3, b4, b5] := by
      match r, (show r.length = 5 by omega) with
      | [b1, b2, b3, b4, b5], _ => exact ⟨b1, b2, b3, b4, b5, rfl⟩
    exact failKind_five b1 b2 b3 b4 b5 addr dev

/-! ### A command that is one transaction -/

/-- One undisturbed transaction, and what its command makes of its value. -/
theorem command_xact_ready {s : State} (ht : s.timeOk = true) (hs : s.ready) {x : Xact} (hx : x.phase = .acquire)
    (k : After) :
    command s (fun s => runWork [.xact x k] s) = .next (afterXact k (linkValue x.req.addr s) (linkDone x s)).1 := by
  rw [command_of_timeOk ht, runWork_xact_ready hx k hs]

/-- Settles O11: RDREG is one transaction with result `read`. -/
theorem rdregCompletes : Obligations.RdregCompletes := fun s addr ht hs =>
  command_xact_ready ht hs (x := readXact s.t.deviceId addr) rfl .read

/-- Settles O12: WRREG is one transaction with result `write`. -/
theorem wrregCompletes : Obligations.WrregCompletes := fun s addr value ht hs =>
  command_xact_ready ht hs (x := writeXact s.t.deviceId addr value) rfl .write

/-- A transaction while not connected: NotOpen is reported, and nothing else changes. -/
theorem linkDone_notOpen {s : State} (hc : s.t.connected = false) (x : Xact) :
    linkDone x s = s.raise .notOpen := by
  simp [linkDone, linkRx, linkEnv, linkReached, linkEvents, hc, State.emit]
  rw [← hc]

theorem linkValue_notOpen {s : State} (hc : s.t.connected = false) (addr : Addr) : linkValue addr s = none := by
  simp [linkValue, hc]

/-- Settles O18: the transaction reports NotOpen and has no value; the command reports that. -/
theorem notOpenFails : Obligations.NotOpenFails := by
  intro s addr value ht hs hc
  have run {x : Xact} (hx : x.phase = .acquire) (k : After) :
      command s (fun s => runWork [.xact x k] s) = .next (afterXact k none (s.raise .notOpen)).1 := by
    rw [command_xact_ready ht hs hx k, linkDone_notOpen hc, linkValue_notOpen hc]
  refine ⟨?_, ?_, ?_⟩
  · refine (run (x := readXact s.t.deviceId addr) rfl .read).trans ?_
    simp [afterXact, State.deliver, State.emit]
  · refine (run (x := writeXact s.t.deviceId addr value) rfl .write).trans ?_
    simp [afterXact, State.deliver, State.emit]
  · refine (run (x := readXact s.t.deviceId s.param.regs.verify) rfl .verify).trans ?_
    simp [afterXact, verifyResult, State.deliver, State.emit]

/-- A transaction's work moves the link alone, whatever its result is for. -/
theorem xact_workFrame (x : Xact) (k : After) (s : State) : WorkFrame s (runWork [.xact x k] s) :=
  runWork_frame _ (by simp [Work.linkOnly]) s

/-- Settles O17: each is a transaction's work (`runWork_frame`). -/
theorem transactionsFrame : Obligations.TransactionsFrame := by
  rintro s t i (⟨a, rfl⟩ | ⟨a, v, rfl⟩ | rfl | ⟨d, a, c, rfl⟩ | ⟨d, a, v, c, rfl⟩) h
  · obtain ⟨-, rfl⟩ := command_next (show execRdreg a s = .next t from h)
    exact xact_workFrame _ _ s
  · obtain ⟨-, rfl⟩ := command_next (show execWrreg a v s = .next t from h)
    exact xact_workFrame _ _ s
  · obtain ⟨-, rfl⟩ := command_next (show execVerify s = .next t from h)
    exact xact_workFrame _ _ s
  · cases h; exact xact_workFrame _ _ s
  · cases h; exact xact_workFrame _ _ s

/-! ### The connection -/

theorem execConnect_accepted {s : State} {cfg : PortCfg} (ht : s.timeOk = true) (hcfg : 0 < cfg.timeout) :
    execConnect cfg s = .next (runWork [.connect cfg] s) := by
  rw [execConnect, command_of_timeOk ht, portAccepts, decide_eq_true hcfg, if_pos rfl]

theorem execConnect_refused {s : State} {cfg : PortCfg} (ht : s.timeOk = true) (hcfg : cfg.timeout ≤ 0) :
    execConnect cfg s = .next (s.deliver (.refused .illegalOperand)) := by
  rw [execConnect, command_of_timeOk ht, portAccepts, decide_eq_false hcfg.not_gt]
  rfl

theorem runItem_connect {s : State} (hl : s.t.lock = none) (cfg : PortCfg) :
    runItem (.connect cfg) s = (connectNow cfg s, []) := if_pos hl

theorem runItem_disconnect {s : State} (hl : s.t.lock = none) : runItem .disconnect s = (disconnectNow s, []) :=
  if_pos hl

theorem connectNow_connected {s : State} (hc : s.t.connected = true) (cfg : PortCfg) :
    connectNow cfg s = s.deliver (.bool true) := if_pos hc

/-- Settles O20: the operand is checked, then CONNECT is one piece, done at once. -/
theorem connectCompletes : Obligations.ConnectCompletes := by
  intro s cfg ht
  refine ⟨execConnect_refused ht, fun hs hcfg => ?_⟩
  have run : exec (.connect cfg) s = .next (connectNow cfg s) := by
    refine (execConnect_accepted ht hcfg).trans ?_
    rw [runWork_cons_ready (w := .connect cfg) trivial [] hs, runItem_connect hs.2]
    rfl
  rw [run]
  refine ⟨fun hc => by rw [connectNow_connected hc]; rfl, fun hc ho => ?_, fun hc ho => ?_⟩
  · simp [connectNow, hc, ho, State.emit, State.emitIf, State.deliver]
  · simp [connectNow, hc, ho, State.emit, State.emitIf, State.deliver]
    rw [← hc]

/-- Settles O21: the closing, the posture and the result, one piece after another. -/
theorem disconnectCompletes : Obligations.DisconnectCompletes := by
  intro s ht hs
  refine (command_of_timeOk ht _).trans ?_
  have h1 : (disconnectNow s).ready := hs
  rw [runWork_cons_ready (w := .disconnect) trivial _ hs, runItem_disconnect hs.2,
    runWork_cons_ready (w := .posture) trivial _ h1]
  simp [runWork, runItem, posture, disconnectNow, quiescent, State.deliver, State.emit]

end Sys2Proof.Machine
end

section
/-! The consumer and the lock the poller holds (R201): its work waits at the piece that takes the lock. -/

namespace Sys2Proof.Machine

/-- A piece of work that begins by taking the lock (R201). -/
def Work.takesLock : Work → Prop
  | .xact x _ => x.phase = .acquire
  | .connect _ => True
  | .disconnect => True
  | _ => False

theorem consumerCan_takesLock {w : Work} (hw : w.takesLock) {s : State} {more : List Work}
    (h : s.con.todo = w :: more) : s.consumerCan = true ↔ s.t.lock = none := by
  have hwaits : s.consumerWaits = s.t.lock.isSome := by
    unfold State.consumerWaits
    rw [h]
    cases w with
    | xact x k => simp [show x.phase = .acquire from hw]
    | connect cfg => rfl
    | disconnect => rfl
    | _ => exact hw.elim
  simp [State.consumerCan, h, hwaits]

/-- A transaction that has not begun waits while the lock is held. -/
theorem runXact_wait {x : Xact} (hx : x.phase = .acquire) {s : State} {g : Agent} (hl : s.t.lock = some g) :
    runXact x s = .wait := by
  simp [runXact, runXactN, xactStep, hx, hl]

/-- A piece that takes the lock does nothing while it is held. -/
theorem runItem_wait {w : Work} (hw : w.takesLock) {s : State} {g : Agent} (hl : s.t.lock = some g) :
    runItem w s = (s, [w]) := by
  cases w with
  | xact x k => simp [runItem, runXact_wait hw hl]
  | connect cfg => simp [runItem, hl]
  | disconnect => simp [runItem, hl]
  | _ => exact hw.elim

theorem runWork_wait {w : Work} (hw : w.takesLock) (ws : List Work) {s : State} {g : Agent} (hl : s.t.lock = some g) :
    runWork (w :: ws) s = s.leave (w :: ws) := by
  simp [runWork, runItem_wait hw hl]

theorem proceed_consumer {s : State} {sched : List Turn} (h : s.env.sched = [] ∨ s.env.sched = .consumer :: sched) :
    s.proceed = some (s.withSched s.env.sched.tail) := by
  rcases h with h | h
  · rw [h, List.tail_nil, withSched_self h]; simp [State.proceed, h]
  · simp [State.proceed, h, State.withSched]

/-- The consumer goes on with what it has left. -/
theorem step_resume {s : State} {w : Work} {ws : List Work} {sched : List Turn} (hw : s.con.todo = w :: ws)
    (h : s.env.sched = [] ∨ s.env.sched = .consumer :: sched) (hc : s.consumerCan = true) (ht : s.timeOk = true) :
    step s = .next (runWork (w :: ws) (s.withSched s.env.sched.tail).resumed) := by
  rw [step_consumer h hc, consumerTurn]
  have hw' : (s.withSched s.env.sched.tail).con.todo = w :: ws := hw
  have ht' : (s.withSched s.env.sched.tail).timeOk = true := ht
  rw [hw']
  exact if_pos ht'

/-- What O19 says of an instruction whose work is `ws` where `s` has its parameters and device id. -/
structure WaitsForLock (i : Instr) (ws : List Work) (s : State) : Prop where
  waits : s.t.lock = some .poller → exec i s = .next (s.leave ws)
  can   : ∀ (t : State) (more : List Work), t.con.todo = ws ++ more → (t.consumerCan = true ↔ t.t.lock = none)
  goes  : ∀ (t : State) (sched : List Turn), t.con.todo = ws → t.t.lock = none → t.timeOk = true →
    t.t.deviceId = s.t.deviceId → t.param = s.param → (t.env.sched = [] ∨ t.env.sched = .consumer :: sched) →
    step t = exec i (t.withSched t.env.sched.tail).resumed

/-- An instruction whose work begins by taking the lock. -/
theorem waitsForLock_of_exec {i : Instr} {w : Work} {ws : List Work} {s : State} (hw : w.takesLock)
    (hs : s.timeOk = true) (hi : ∀ t : State, t.timeOk = true → t.t.deviceId = s.t.deviceId → t.param = s.param →
      exec i t = .next (runWork (w :: ws) t)) : WaitsForLock i (w :: ws) s where
  waits hl := by rw [hi s hs rfl rfl, runWork_wait hw ws hl]
  can t more h := consumerCan_takesLock hw h
  goes t sched h hl ht hd hp hsched :=
    (step_resume h hsched ((consumerCan_takesLock hw h).2 hl) ht).trans
      (hi (t.withSched t.env.sched.tail).resumed ht hd hp).symm

theorem runWrites_wait (act : Action) (w : Write) (l : List Write) (ok : Bool) {s : State} {sched : List Turn}
    (h : s.env.sched = [] ∨ s.env.sched = .consumer :: sched) {g : Agent} (hl : s.t.lock = some g) :
    runWrites act (w :: l) ok s =
      (s.withSched s.env.sched.tail, [.xact (writeXact s.t.deviceId w.1 w.2) (.emit act l ok)]) := by
  have hx : runXact (writeXact s.t.deviceId w.1 w.2) (s.withSched s.env.sched.tail) = .wait :=
    runXact_wait rfl (g := g) hl
  simp only [runWrites, proceed_consumer h, hx]

/-- Settles O19: each command's first piece takes the lock (`waitsForLock_of_exec`), as does each write of an action. -/
theorem consumerWaitsForLock : Obligations.ConsumerWaitsForLock := by
  refine ⟨fun s addr value cfg dev crc ht hcfg c hc => ?_,
    fun t x k more hx h => consumerCan_takesLock (w := .xact x k) hx h,
    fun s sched act w l ok hs hl => runWrites_wait act w l ok hs hl⟩
  suffices h : WaitsForLock c.1 c.2 s from ⟨h.waits, h.can, h.goes⟩
  simp only [List.mem_cons, List.not_mem_nil, or_false] at hc
  rcases hc with rfl | rfl | rfl | rfl | rfl | rfl | rfl
  · refine waitsForLock_of_exec rfl ht fun t ht hd _ => ?_
    rw [← hd]; exact command_of_timeOk ht _
  · refine waitsForLock_of_exec rfl ht fun t ht hd _ => ?_
    rw [← hd]; exact command_of_timeOk ht _
  · refine waitsForLock_of_exec rfl ht fun t ht hd hp => ?_
    rw [← hd, ← hp]; exact command_of_timeOk ht _
  · exact waitsForLock_of_exec rfl ht fun t _ _ _ => rfl
  · exact waitsForLock_of_exec rfl ht fun t _ _ _ => rfl
  · exact waitsForLock_of_exec trivial ht fun t ht _ _ => execConnect_accepted ht hcfg
  · exact waitsForLock_of_exec trivial ht fun t ht _ _ => command_of_timeOk ht _

end Sys2Proof.Machine
end

section
/-! An interrupted command goes on, one piece a turn (R200): what a turn that another's follows makes of each piece. -/

namespace Sys2Proof.Machine

/-! ### A turn that another's follows -/

/-- The consumer's unfinished work is `ws`. -/
def State.withTodo (ws : List Work) (s : State) : State := { s with con := { s.con with todo := ws } }

theorem withTodo_self {s : State} {ws : List Work} (h : s.con.todo = ws) : s.withTodo ws = s := by
  subst h
  rfl

theorem proceed_eq_none_iff {s : State} :
    s.proceed = none ↔ ∃ next rest, s.env.sched = next :: rest ∧ next ≠ .consumer := by
  cases h : s.env.sched with
  | nil => simp [State.proceed, h]
  | cons next rest => cases next <;> simp [State.proceed, h]

theorem proceed_none_of_sched {s t : State} (ht : t.env.sched = s.env.sched) (h : s.proceed = none) :
    t.proceed = none := by
  rw [proceed_eq_none_iff] at h ⊢
  rwa [ht]

/-- What a piece leaves stands before the pieces behind it, where another's turn comes next. -/
theorem runWork_interrupted {w : Work} {ws left : List Work} {s s1 : State} (h0 : s.con.todo = [])
    (hr : runItem w s = (s1, left)) (hp : s1.proceed = none) : runWork (w :: ws) s = s1.withTodo (left ++ ws) := by
  have h1 : s1.con.todo = [] := by
    have hb := (runItem_base w s).todo
    rw [hr, h0] at hb
    exact hb
  have hleave (l : List Work) : s1.leave l = s1.withTodo l := by
    simp [State.leave, State.withTodo, h1]
  rw [← hleave]
  cases left with
  | cons l ls => simp [runWork, hr]
  | nil =>
    cases ws with
    | nil => simpa [runWork, hr, hleave] using (withTodo_self h1).symm
    | cons w' ws' => simp [runWork, hr, hp]

/-- The consumer's turn is next and another's follows; `w` stands first in its unfinished work. -/
structure Interrupted (s : State) (w : Work) (behind : List Work) (next : Turn) (rest : List Turn) : Prop where
  timeOk : s.timeOk = true
  sched  : s.env.sched = .consumer :: next :: rest
  other  : next ≠ .consumer
  todo   : s.con.todo = w :: behind

section
variable {s : State} {w : Work} {behind : List Work} {next : Turn} {rest : List Turn}

/-- Whether the consumer waits, the first piece decides. -/
theorem consumerWaits_first (h : s.con.todo = w :: behind) : s.consumerWaits = (s.withTodo [w]).consumerWaits := by
  unfold State.consumerWaits
  rw [h]
  cases w <;> rfl

theorem Interrupted.proceed (h : Interrupted s w behind next rest) :
    ((s.withSched (next :: rest)).withTodo []).proceed = none :=
  proceed_eq_none_iff.2 ⟨next, rest, rfl, h.other⟩

/-- The turn does the piece that stands first, and what it leaves stands before the others. -/
theorem Interrupted.turn (h : Interrupted s w behind next rest) (hc : (s.withTodo [w]).consumerWaits = false)
    {s1 : State} {left : List Work} (hr : runItem w ((s.withSched (next :: rest)).withTodo []) = (s1, left))
    (hs : s1.env.sched = next :: rest) : step s = .next (s1.withTodo (left ++ behind)) := by
  have hcan : s.consumerCan = true := by simp [State.consumerCan, h.todo, consumerWaits_first h.todo, hc]
  rw [step_resume h.todo (.inr h.sched) hcan h.timeOk, h.sched]
  have hp : s1.proceed = none := proceed_eq_none_iff.2 ⟨next, rest, hs, h.other⟩
  exact congrArg _ (runWork_interrupted (s := (s.withSched (next :: rest)).withTodo []) rfl hr hp)

end

/-! ### A step of the transaction -/

theorem xactStep_sched (g : Agent) (x : Xact) (s : State) : (xactStep g x s).All fun t => t.env.sched = s.env.sched := by
  unfold xactStep
  split
  · split
    · rfl
    · trivial
  · unfold sendRequest
    dsimp only
    split
    · split <;> simp [XStep.All]
    · rfl
  · rfl
  · unfold receiveReply
    dsimp only
    split
    · simp [XStep.All]
    · split <;> simp [XStep.All]

/-- Where another's turn comes next a turn is one step of the transaction. -/
theorem runXact_interrupted {x : Xact} {s : State} (h : s.proceed = none) : runXact x s = xactStep .consumer x s := by
  have hs := xactStep_sched .consumer x s
  unfold runXact runXactN
  split
  next e => rw [e]
  next v s' e => rw [e]
  next x' s' e =>
    rw [e] at hs
    rw [e, proceed_none_of_sched hs h]

theorem transactionEnd_congr {s t : State} (hp : t.param = s.param) (hd : t.t.deviceId = s.t.deviceId)
    (hr : t.result = s.result) (k : After) (v : Option Value) : transactionEnd k v t = transactionEnd k v s := by
  unfold transactionEnd
  rw [hp, hd, hr]

section
variable {s s1 : State} {x : Xact} {k : After} {behind : List Work} {next : Turn} {rest : List Turn}

theorem consumerWaits_xact (hx : x.phase = .acquire → s.t.lock = none) :
    (s.withTodo [.xact x k]).consumerWaits = false := by
  by_cases hp : x.phase = .acquire
  · exact (congrArg (_ && Option.isSome ·) (hx hp)).trans (Bool.and_false _)
  · simp [State.consumerWaits, State.withTodo, hp]

/-- The transaction has moved on. -/
theorem Interrupted.xact_more (h : Interrupted s (.xact x k) behind next rest)
    (hx : x.phase = .acquire → s.t.lock = none) {x' : Xact} (e : xactStep .consumer x ((s.withSched (next :: rest)).withTodo []) = .more x' s1) :
    step s = .next (s1.withTodo (.xact x' k :: behind)) := by
  have hs := xactStep_sched .consumer x ((s.withSched (next :: rest)).withTodo [])
  rw [e] at hs
  refine h.turn (consumerWaits_xact hx) (left := [.xact x' k]) ?_ hs
  simp only [runItem, runXact_interrupted h.proceed, e]

/-- The transaction has ended, and its command makes of its value what `transactionEnd` says. -/
theorem Interrupted.xact_done (h : Interrupted s (.xact x k) behind next rest) (hx : x.phase ≠ .acquire)
    {v : Option Value} (e : xactStep .consumer x ((s.withSched (next :: rest)).withTodo []) = .done v s1)
    (hr : s1.result = s.result) :
    let ends := transactionEnd k v s
    step s = .next ({ s1 with out := s1.out ++ ends.1, result := ends.2.1 }.withTodo (ends.2.2 ++ behind)) := by
  have hs := xactStep_sched .consumer x ((s.withSched (next :: rest)).withTodo [])
  have hf := xactStep_done_frame e
  rw [e] at hs
  have hend : transactionEnd k v s1 = transactionEnd k v s := transactionEnd_congr hf.param hf.deviceId hr k v
  refine h.turn (consumerWaits_xact fun hp => absurd hp hx) ?_ hs
  simp only [runItem, runXact_interrupted h.proceed, e]
  rw [afterXact_interrupted k v (proceed_none_of_sched hs h.proceed), hend]

end

/-! ### The steps of a transaction, from any state -/

section
variable {g : Agent} {x : Xact} {s : State}

theorem sendRequest_notOpen (hc : s.t.connected = false) :
    sendRequest g x s = .done none ((s.setLock none).raise .notOpen) := by
  simp [sendRequest, hc]

theorem sendRequest_refused {s' : State} (hc : s.t.connected = true) (ht : s.drawTxOk = (false, s')) :
    sendRequest g x s = .done none { s with
      t := { s.t with lock := none, rx := [] }
      env := s'.env
      out := s.out ++ [.flush g, .txFailed g x.frame.bytes, .log (.error .io) .error] } := by
  rw [sendRequest, if_pos hc, drawTxOk_env s ((s.setRx []).emit (.flush g)) rfl, ht]
  simp [State.emit, State.setRx, State.setLock]

theorem sendRequest_taken {s' : State} (hc : s.t.connected = true) (ht : s.drawTxOk = (true, s')) :
    sendRequest g x s = .more { x with phase := .settle (s.reached + delayBound s.param (settleDelay x.req)) } { s with
      t := { s.t with rx := [] }
      env := s'.env
      out := s.out ++ [.flush g, .tx g x.frame.bytes] } := by
  rw [sendRequest, if_pos hc, drawTxOk_env s ((s.setRx []).emit (.flush g)) rfl, ht]
  simp [State.emit, State.setRx]

theorem logWrite_eq (r : Req) (ok : Bool) (s : State) :
    s.logWrite r ok = { s with out := s.out ++ writeLog r ok } := by
  cases r <;> simp [State.logWrite, writeLog, State.emit]

theorem receiveReply_fails {late : Time} {s' : State} (hr : s.drawRx = (.fails, s')) :
    receiveReply g x late s = .done none { s with
      t := { s.t with lock := none }
      env := s'.env
      out := s.out ++ [.rxFailed g, .log (.error .io) .error] ++ writeLog x.req false } := by
  rw [receiveReply, drawRx_env s s rfl, logWrite_eq, hr]
  simp [State.emit, State.setLock]

theorem receiveReply_bytes {late : Time} {more : List Byte} {s' : State} (hr : s.drawRx = (.bytes more, s')) :
    receiveReply g x late s =
      let r := (s.t.rx ++ more).take 5
      let v := parse r x.req.addr s.t.deviceId
      .done v { s with
        t := { s.t with lock := none, rx := (s.t.rx ++ more).drop 5 }
        env := s'.env
        reached := if r.length < 5 then max s.reached late else s.reached
        out := s.out ++ [.rx g r s.t.portCfg.timeout] ++
          (if v.isSome then [] else [.log (.error (failKind r x.req.addr s.t.deviceId)) .error]) ++
          writeLog x.req v.isSome } := by
  rw [receiveReply, drawRx_env s s rfl, hr]
  dsimp only
  cases hv : parse ((s.t.rx ++ more).take 5) x.req.addr s.t.deviceId <;>
    simp [logWrite_eq, State.emit, State.setLock, State.setRx, State.reachIf]

end

theorem xactStep_acquire {g : Agent} {req : Req} {frame : Frame} {s : State} (hl : s.t.lock = none) :
    xactStep g ⟨req, frame, .acquire⟩ s = .more ⟨req, frame, .send⟩ (s.setLock (some g)) := by
  simp [xactStep, hl]

/-! ### Draws, the schedule and the unfinished work -/

section
variable {s : State} (l : List Turn) (ws : List Work)

theorem drawTxOk_turn {b : Bool} (h : s.drawTxOk.1 = b) :
    ((s.withSched l).withTodo ws).drawTxOk = (b, (s.drawTxOk.2.withSched l).withTodo ws) := by
  subst h
  unfold State.drawTxOk
  dsimp only [State.withTodo, State.withSched]
  split <;> rfl

theorem drawRx_turn {d : RxDraw} (h : s.drawRx.1 = d) :
    ((s.withSched l).withTodo ws).drawRx = (d, (s.drawRx.2.withSched l).withTodo ws) := by
  subst h
  unfold State.drawRx
  dsimp only [State.withTodo, State.withSched]
  split <;> rfl

variable (s)

theorem readAuxConnected_withTodo :
    (s.withTodo ws).readAuxConnected = (s.readAuxConnected.1, s.readAuxConnected.2.withTodo ws) := by
  cases hp : s.param.auxPresent <;> cases hc : s.env.auxConn <;>
    simp [State.readAuxConnected, State.withTodo, State.countDraw, hp, hc]

theorem readAuxRunning_withTodo :
    (s.withTodo ws).readAuxRunning = (s.readAuxRunning.1, s.readAuxRunning.2.withTodo ws) := by
  cases hp : s.param.auxPresent <;> cases hc : s.env.auxRun <;>
    simp [State.readAuxRunning, State.withTodo, State.countDraw, hp, hc]

theorem actionWrites_withTodo (act : Action) :
    actionWrites act (s.withTodo ws) = ((actionWrites act s).1, (actionWrites act s).2.withTodo ws) := by
  cases act with
  | applyFwd =>
    unfold actionWrites State.drawUserFwd
    dsimp only [State.withTodo]
    split <;> rfl
  | _ => rfl

theorem readNow_con (c : Consumer) : ({ s with con := c } : State).readNow = { s.readNow with con := c } := by
  cases h : s.env.ticks <;> simp [State.readNow, State.drawTick, State.countDraw, h]

theorem readNow_withTodo : (s.withTodo ws).readNow = s.readNow.withTodo ws :=
  (readNow_con s { s.con with todo := ws }).trans (by simp [State.withTodo])

theorem drawOpenOk_withTodo : (s.withTodo ws).drawOpenOk = (s.drawOpenOk.1, s.drawOpenOk.2.withTodo ws) := by
  unfold State.drawOpenOk
  dsimp only [State.withTodo]
  split <;> rfl

theorem drawConnectRx_withTodo :
    (s.withTodo ws).drawConnectRx = (s.drawConnectRx.1, s.drawConnectRx.2.withTodo ws) := by
  unfold State.drawConnectRx
  dsimp only [State.withTodo]
  split <;> rfl

theorem connectNow_withTodo (cfg : PortCfg) : connectNow cfg (s.withTodo ws) = (connectNow cfg s).withTodo ws := by
  have ht : (s.withTodo ws).t = s.t := rfl
  simp only [connectNow, ht, drawOpenOk_withTodo, drawConnectRx_withTodo]
  cases s.t.connected
  · cases s.drawOpenOk.1 <;> rfl
  · rfl

end

/-! ### The other pieces, where another's turn comes next -/

theorem afterPiece_interrupted {r : State × List Work} (h : r.1.proceed = none) (rest : List Work)
    (next : State → State × List Work) : afterPiece r rest next = (r.1, r.2 ++ rest) := by
  obtain ⟨s, ws⟩ := r
  cases ws with
  | nil => simp [afterPiece, show s.proceed = none from h]
  | cons w ws => rfl

theorem actionWrites_sched (act : Action) (s : State) : (actionWrites act s).2.env.sched = s.env.sched := by
  cases act <;> simp [actionWrites]

/-- An action begins: its first write is left. -/
theorem runEmission_act_interrupted {act : Action} {s : State} {w : Write} {l : List Write} (h : s.proceed = none)
    (hw : (actionWrites act s).1 = w :: l) :
    runEmission (.act act) s =
      ((actionWrites act s).2, [.xact (writeXact s.t.deviceId w.1 w.2) (.emit act l true)]) := by
  have hp : (actionWrites act s).2.proceed = none := proceed_none_of_sched (actionWrites_sched act s) h
  simp only [runEmission, hw, runWrites, hp, (actionWrites_frame act s).deviceId]

/-- One sample of a drain: the decode step reads the time input, and A is `drainOne`'s (R350). -/
theorem applySample_drainOne (e : Sample) (s : State) :
    applySample e s =
      let s1 := if e.1 = s.param.regs.status then s.readNow else s
      let r := drainOne s.param s.c s1.clock e s.a
      ({ s1 with a := r.1, con := { s.con with drained := s.con.drained ++ [e] } }, r.2) := by
  by_cases h : e.1 = s.param.regs.status
  · simp only [applySample, drainOne, State.decodeNow, if_pos h, readNow_con]
    split <;> split <;> simp
  · simp only [applySample, drainOne, State.decodeNow, if_neg h]
    split <;> split <;> simp

theorem applySample_sched (e : Sample) (s : State) : (applySample e s).1.env.sched = s.env.sched := by
  rw [applySample_drainOne]
  dsimp only
  split <;> simp

/-- A sample of a drain applied: what its decode step puts out is left. -/
theorem runSamples_interrupted {s : State} (h : s.proceed = none) (e : Sample) (l : List Sample) :
    runSamples (e :: l) s =
      ((applySample e s).1, (applySample e s).2.map Work.emission ++ [.samples l]) := by
  have hp : (applySample e s).1.proceed = none := proceed_none_of_sched (applySample_sched e s) h
  rw [runSamples, afterPiece_interrupted (r := ((applySample e s).1, [])) hp, afterPiece_interrupted hp]
  rfl

/-- A queue of a drain emptied: its samples are left. -/
theorem runDrain_interrupted {s : State} (h : s.proceed = none) (j : Nat) (js : List Nat) :
    runDrain (j :: js) s = (s.clearQueue j, [.samples (s.queue j), .drain js]) := by
  have hp : (s.clearQueue j).proceed = none := proceed_none_of_sched (s := s) rfl h
  rw [runDrain, afterPiece_interrupted (r := (s.clearQueue j, [])) hp, afterPiece_interrupted hp]
  rfl

theorem connectNow_sched (cfg : PortCfg) (s : State) : (connectNow cfg s).env.sched = s.env.sched := by
  unfold connectNow
  dsimp only
  split
  · rfl
  · split <;> simp

end Sys2Proof.Machine
end

section
/-! The pieces of DECODE, PURGE, DRAIN, DISCONNECT, CONNECT and PSTOP at an interrupted turn (R301, R305, R307, R345, R350,
R204), and what such a command leaves when it begins. -/

namespace Sys2Proof.Machine

/-! ### Pieces that read an input -/

section
variable {s : State} {behind : List Work} {next : Turn} {rest : List Turn}

/-- An action begins with its first write, which is left (R360). -/
theorem Interrupted.action {act : Action} (h : Interrupted s (.emission (.act act)) behind next rest) {write : Write}
    {writes : List Write}
    (hw : (actionWrites act ((s.withSched (next :: rest)).withTodo behind)).1 = write :: writes) :
    step s = .next { (actionWrites act ((s.withSched (next :: rest)).withTodo behind)).2 with con := { s.con with
      todo := .xact (writeXact s.t.deviceId write.1 write.2) (.emit act writes true) :: behind } } := by
  rw [actionWrites_withTodo] at hw
  have hr := runEmission_act_interrupted (act := act) (w := write) (l := writes) h.proceed
    (by rw [actionWrites_withTodo]; exact hw)
  rw [h.turn rfl hr (actionWrites_sched act _), actionWrites_withTodo, actionWrites_withTodo]
  have hcon : (actionWrites act (s.withSched (next :: rest))).2.con = s.con := (actionWrites_frame act _).con
  rw [← hcon]
  rfl

/-- R301: the peer is asked at this turn, and called where it is connected. -/
theorem Interrupted.auxStart (h : Interrupted s (.emission .auxStart) behind next rest) :
    step s =
      let s0 := (s.withSched (next :: rest)).withTodo behind
      .next { s0.readAuxConnected.2 with
        out := s.out ++ (if s0.readAuxConnected.1 then [.auxSendStart] else []) } := by
  rw [h.turn rfl rfl (by simp [State.withTodo, State.withSched])]
  simp only [readAuxConnected_withTodo]
  simp [State.emitIf, State.withTodo, State.withSched]

/-- R307: the same, where it runs too. -/
theorem Interrupted.auxEnd (h : Interrupted s (.emission .auxEnd) behind next rest) :
    step s =
      let s0 := (s.withSched (next :: rest)).withTodo behind
      .next { s0.readAuxConnected.2.readAuxRunning.2 with
        out := s.out ++
          (if s0.readAuxConnected.1 && s0.readAuxConnected.2.readAuxRunning.1 then [.auxSendEnd] else []) } := by
  rw [h.turn rfl rfl (by simp [State.withTodo, State.withSched])]
  simp only [readAuxConnected_withTodo, readAuxRunning_withTodo]
  simp [State.emitIf, State.withTodo, State.withSched]

/-- R350: one sample of a drain, its decode step at the time input then read. -/
theorem Interrupted.sample {e : Sample} {l : List Sample} (h : Interrupted s (.samples (e :: l)) behind next rest) :
    step s =
      let s0 := (s.withSched (next :: rest)).withTodo behind
      let s1 := if e.1 = s.param.regs.status then s0.readNow else s0
      let r := drainOne s.param s.c s1.clock e s.a
      .next { s1 with
        a := r.1
        con := { todo := r.2.map Work.emission ++ .samples l :: behind, drained := s.con.drained ++ [e] } } := by
  rw [h.turn rfl (runSamples_interrupted h.proceed e l) (applySample_sched e _), applySample_drainOne]
  simp only [readNow_withTodo]
  by_cases he : e.1 = s.param.regs.status
  · simp [he, State.withTodo, State.withSched]
  · simp [he, State.withTodo, State.withSched]

/-- R203: once the lock is free the port opens or does not. -/
theorem Interrupted.connect {cfg : PortCfg} (h : Interrupted s (.connect cfg) behind next rest)
    (hl : s.t.lock = none) :
    step s = .next (connectNow cfg ((s.withSched (next :: rest)).withTodo behind)) := by
  have hr := runItem_connect (s := (s.withSched (next :: rest)).withTodo []) hl cfg
  rw [h.turn (congrArg Option.isSome hl) hr (connectNow_sched cfg _), connectNow_withTodo, connectNow_withTodo]
  rfl

end

/-! ### A command that begins -/

section
variable {s : State}

/-- A command begun: its pieces are the consumer's unfinished work, and its turn runs them. -/
theorem step_begun {ws : List Work} (h0 : s.con.todo = []) (ht : s.timeOk = true) (hws : ws ≠ [])
    (hc : (s.withTodo ws).consumerWaits = false) :
    step ((s.withTodo ws).withSched (.consumer :: s.env.sched)) = .next (runWork ws s) := by
  obtain ⟨w, ws, rfl⟩ := List.exists_cons_of_ne_nil hws
  have hcan : ((s.withTodo (w :: ws)).withSched (.consumer :: s.env.sched)).consumerCan = true := congrArg (!·) hc
  rw [step_resume (sched := s.env.sched) rfl (.inr rfl) hcan ht]
  exact congrArg (fun s => Host.Outcome.next (runWork (w :: ws) s)) (withTodo_self h0)

/-- What a decode step puts out does not wait. -/
theorem consumerWaits_emissions (l : List Emission) (r : Result) :
    (s.withTodo (l.map Work.emission ++ [.done r])).consumerWaits = false := by
  cases l <;> rfl

theorem decodeNow_timeOk (word : Value) : (s.decodeNow word).1.timeOk = true := by
  simp [State.timeOk, State.decodeNow, decodeStep_tPrev]

theorem purgeInit_idle {now : Time} {a : Automaton} (h : a.purgeActive = false) :
    purgeInit now a =
      ({ a with purgeActive := true, purgeCount := 0, purgeLast := now, purgeValve := false },
        [.flowOpen, .logPurgeStart]) := if_neg (Bool.eq_false_iff.1 h)

end

/-! ### Every piece -/

/-- Settles O60: a turn that another's follows is one step of the transaction (`Interrupted.xact_more`,
`Interrupted.xact_done`) or one piece (`Interrupted.turn`), and a command that begins has its pieces to do (`step_begun`). -/
theorem interruptedTransactionGoesOn : Obligations.InterruptedTransactionGoesOn := by
  refine ⟨?_, ?_, ?_⟩
  · intro s req frame k behind next rest ht hs hn stands fails
    have at_ {ph : XPhase} (hw : stands ph) : Interrupted s (.xact ⟨req, frame, ph⟩ k) behind next rest :=
      ⟨ht, hs, hn, hw⟩
    exact ⟨fun hw hl => (at_ hw).xact_more (fun _ => hl) (xactStep_acquire hl),
      fun hw hc => (at_ hw).xact_done nofun (sendRequest_notOpen hc) rfl,
      fun hw hc hd => (at_ hw).xact_done nofun (sendRequest_refused hc (drawTxOk_turn _ _ hd)) rfl,
      fun hw hc hd => (at_ hw).xact_more nofun (sendRequest_taken hc (drawTxOk_turn _ _ hd)),
      fun wake hw => (at_ hw).xact_more nofun rfl,
      fun late more hw hd => (at_ hw).xact_done nofun (receiveReply_bytes (drawRx_turn _ _ hd)) rfl,
      fun late hw hd => (at_ hw).xact_done nofun (receiveReply_fails (drawRx_turn _ _ hd)) rfl⟩
  · intro s w behind next rest ht hs hn hw s0
    have h : Interrupted s w behind next rest := ⟨ht, hs, hn, hw⟩
    refine ⟨?_, ?_, ?_, ?_, ?_, ?_, ?_, ?_, ?_, ?_, ?_, ?_, ?_, ?_, ?_⟩
    -- what a decode step or PURGE puts out
    · rintro act write writes rfl hwr; exact h.action hwr
    · rintro rfl; exact h.turn rfl rfl rfl
    · rintro rfl; exact h.turn rfl rfl rfl
    · rintro rfl; exact h.turn rfl rfl rfl
    · rintro rfl; exact h.auxStart
    · rintro rfl; exact h.auxEnd
    -- DRAIN
    · rintro j js rfl; exact h.turn rfl (runDrain_interrupted h.proceed j js) rfl
    · rintro e l rfl; exact h.sample
    · rintro rfl; exact h.turn rfl rfl rfl
    · rintro rfl; exact h.turn rfl rfl rfl
    -- CONNECT and DISCONNECT
    · rintro cfg rfl hl; exact h.connect hl
    · rintro rfl hl; exact h.turn (congrArg Option.isSome hl) (runItem_disconnect hl) rfl
    · rintro rfl; exact (h.turn rfl rfl rfl).trans (by rw [← List.map_const']; rfl)
    -- PSTOP, and a result
    · rintro wake rfl ha; exact h.turn ha (if_neg (Bool.eq_false_iff.1 ha)) rfl
    · rintro r rfl; exact h.turn rfl rfl rfl
  · intro s ht h0 begun
    refine ⟨fun word => ?_, fun hp => ?_, ?_, fun hl => ⟨?_, fun cfg hcfg => ?_⟩⟩
    · refine (show execDecode word s = _ from command_of_timeOk ht _).trans ?_
      exact (step_begun (s := (s.decodeNow word).1) h0 (decodeNow_timeOk word) (by simp)
        (consumerWaits_emissions _ _)).symm
    · refine (show execPurge s = _ from command_of_timeOk ht _).trans ?_
      rw [purgeInit_idle hp]
      exact (step_begun (s := { s with a := { s.a with purgeActive := true, purgeCount := 0, purgeLast := s.clock
                                                       purgeValve := false } })
        h0 ht (by simp) (consumerWaits_emissions [.flowOpen, .logPurgeStart] .unit)).symm
    · refine (show execDrain s = _ from command_of_timeOk ht _).trans ?_
      exact (step_begun (s := { s with con := { s.con with drained := [] } }) (ws := [.drain _]) h0 ht (by simp)
        rfl).symm
    · refine (show execDisconnect s = _ from command_of_timeOk ht _).trans ?_
      exact (step_begun (ws := [.disconnect, .posture, .done .unit]) h0 ht (by simp) (congrArg Option.isSome hl)).symm
    · refine (execConnect_accepted ht hcfg).trans ?_
      exact (step_begun (ws := [.connect cfg]) h0 ht (by simp) (congrArg Option.isSome hl)).symm

end Sys2Proof.Machine
end

section
/-! The poller's commands (43_poller.md): PCONFIG, PSTART, and PSTOP with the two ends of its wait (R230, R231, R232). -/

namespace Sys2Proof.Machine

/-! ### PCONFIG and PSTART -/

/-- The test that refuses PCONFIG and PSTART fails for a poller that is stopped and has exited. -/
theorem not_running_or_alive {s : State} (hr : s.p.running = false) (hl : s.p.alive = false) :
    ¬ (s.p.running || s.p.alive) = true := by
  simp [hr, hl]

/-- Settles O22: the flags decide, then the list. -/
theorem pconfigCompletes : Obligations.PconfigCompletes := by
  intro s addrs ht
  have run := show execPconfig addrs s = _ from command_of_timeOk ht _
  refine ⟨fun h => run.trans ?_, fun hr hl h => run.trans ?_, fun hr hl h => run.trans ?_⟩
  · rw [if_pos (by simpa using h)]
    rfl
  · subst h
    rw [if_neg (not_running_or_alive hr hl)]
    rfl
  · obtain ⟨a, as, rfl⟩ := List.exists_cons_of_ne_nil h
    rw [if_neg (not_running_or_alive hr hl), ← List.map_const', List.range_eq_range',
      ← List.zipIdx_eq_zip_range']
    rfl

/-- Settles O23: the configuration decides, then the flags. -/
theorem pstartCompletes : Obligations.PstartCompletes := by
  intro s ht
  have run := show execPstart s = _ from command_of_timeOk ht _
  refine ⟨fun h => run.trans ?_, fun hc hr hl => run.trans ?_⟩
  · cases hc : s.p.config with
    | none => rfl
    | some l => exact congrArg _ (if_pos (by simpa [hc] using h))
  · obtain ⟨l, hc⟩ := Option.ne_none_iff_exists'.1 hc
    rw [hc]
    exact (congrArg _ (if_neg (not_running_or_alive hr hl))).trans rfl

/-! ### PSTOP -/

section
variable {s : State} {wake : Time} {ws : List Work}

/-- A stop's wait is over where no poller lives, and what is behind it is done. -/
theorem runWork_join_exited (hl : s.p.alive = false) (hs : s.env.sched = []) (r : Result) :
    runWork [.join wake, .done r] s = s.deliver r := by
  have hi : runItem (.join wake) s = (s, []) := if_neg (Bool.eq_false_iff.1 hl)
  have hp : s.proceed = some s := by simp [State.proceed, hs]
  simp only [runWork, hi, hp]
  rfl

/-- A stop waits while the poller lives. -/
theorem runWork_join_waits (hl : s.p.alive = true) : runWork (.join wake :: ws) s = s.leave (.join wake :: ws) := by
  have hi : runItem (.join wake) s = (s, [.join wake]) := if_pos hl
  simp only [runWork, hi]
  rfl

theorem consumerCan_join (h : s.con.todo = .join wake :: ws) : s.consumerCan = !s.p.alive := by
  simp [State.consumerCan, State.consumerWaits, h]

/-- The poller has exited: at the consumer's turn the stop ends. -/
theorem step_stop_exited {r : Result} (h : s.con.todo = [.join wake, .done r]) (hs : s.env.sched = [.consumer])
    (ht : s.timeOk = true) (hl : s.p.alive = false) : step s = .next ((s.withSched []).resumed.deliver r) := by
  have hcan : s.consumerCan = true := by simp [consumerCan_join h, hl]
  rw [step_resume h (.inr hs) hcan ht, hs]
  exact congrArg _ (runWork_join_exited (s := (s.withSched []).resumed) hl rfl r)

/-- T_JOIN passes: the stop ends, whether or not the poller has exited. -/
theorem step_stop_timeout {r : Result} (h : s.con.todo = [.join wake, .done r]) (hs : s.env.sched = [.joinTimeout])
    (ht : s.timeOk = true) :
    step s = .next (((s.withSched []).resumed.sleep .consumer .join wake).deliver r) := by
  rw [step_scheduled hs]
  have h' : (s.withSched []).con.todo = [.join wake, .done r] := h
  unfold turnStep joinTurn
  dsimp only
  rw [h']
  exact if_pos ht

end

/-- Settles O24: the wait stands first in the consumer's work (`runWork_join_waits`) until the poller has exited
(`step_stop_exited`) or T_JOIN passes (`step_stop_timeout`). -/
theorem pstopCompletes : Obligations.PstopCompletes := by
  intro s ht hs
  have run := show execPstop s = _ from command_of_timeOk ht _
  refine ⟨fun hl => run.trans ?_, fun hl h0 => ?_⟩
  · exact congrArg _ (runWork_join_exited (s := { s with p := { s.p with running := false } }) hl hs .unit)
  · rw [runWork_join_waits (s := { s with p := { s.p with running := false } }) hl] at run
    have htodo : [Work.join (s.wakeAt .join), .done .unit] ++ s.con.todo = [.join (s.wakeAt .join), .done .unit] := by
      rw [h0, List.append_nil]
    have hcon : ({ s.con with todo := [] } : Consumer) = s.con := by rw [← h0]
    have henv : ({ s.env with sched := [] } : Env) = s.env := by rw [← hs]
    refine ⟨_, run, rfl, (consumerCan_join rfl).trans (congrArg (!·) hl), ?_, ?_⟩
    · refine Eq.trans (step_stop_exited (wake := s.wakeAt .join) (r := .unit) htodo rfl ht rfl) ?_
      simp [State.resumed, State.withSched, State.deliver, State.emit, hcon, henv]
    · refine Eq.trans (step_stop_timeout (wake := s.wakeAt .join) (r := .unit) htodo rfl ht) ?_
      simp [State.resumed, State.withSched, State.deliver, State.emit, State.reach, hcon, henv]

end Sys2Proof.Machine
end

section
/-! The sample queues under pushes (R235, R19), and the poller's step at each control state (R234). -/

namespace Sys2Proof.Machine

/-! ### The newest ten samples -/

/-- Settles O25: by induction over the samples pushed. A push into a full queue drops the oldest sample, which is not
among the newest ten of all either. -/
theorem pushKeepsNewestTen : Obligations.PushKeepsNewestTen := by
  intro l new
  induction new generalizing l with
  | nil => intro hl; simp [Nat.sub_eq_zero_of_le hl]
  | cons e new ih =>
    intro hl
    rw [List.foldl_cons, ih _ (pushSample_length e hl), pushSample]
    split
    next hfull =>
      obtain ⟨x, xs, rfl⟩ := List.exists_cons_of_length_pos (Nat.lt_of_lt_of_le (by decide) hfull)
      have hdrop : ((x :: xs) ++ e :: new).length - queueCap = ((xs ++ [e]) ++ new).length - queueCap + 1 := by
        simp only [List.length_append, List.length_cons, List.length_nil] at hfull ⊢
        omega
      rw [hdrop]
      simp
    next => simp

/-! ### The step at each control state -/

section
variable {s : State} {i : Nat}

theorem pollerStep_check (ha : s.p.alive = true) (hc : s.p.ctl = .read i) (hi : s.p.io = .idle) :
    pollerStep s = pollCheck i s := by
  simp [pollerStep, ha, hc, hi]

theorem pollerStep_wait {x : Xact} (hc : s.p.ctl = .read i) (hi : s.p.io = .xact x) (hx : xactStep .poller x s = .wait) :
    pollerStep s = none := by
  simp [pollerStep, hc, hi, hx]

/-- The transaction goes on. -/
theorem pollerStep_more {x x' : Xact} {s' : State} (ha : s.p.alive = true) (hc : s.p.ctl = .read i)
    (hi : s.p.io = .xact x) (hx : xactStep .poller x s = .more x' s') :
    pollerStep s = some (s'.setPoll s'.p.ctl (.xact x')) := by
  simp [pollerStep, ha, hc, hi, hx]

/-- The transaction ends. -/
theorem pollerStep_done {x : Xact} {v : Option Value} {s' : State} (ha : s.p.alive = true) (hc : s.p.ctl = .read i)
    (hi : s.p.io = .xact x) (hx : xactStep .poller x s = .done v s') :
    pollerStep s = some (s'.setPoll s'.p.ctl (.got v)) := by
  simp [pollerStep, ha, hc, hi, hx]

theorem pollerStep_push {v : Option Value} (ha : s.p.alive = true) (hc : s.p.ctl = .read i) (hi : s.p.io = .got v) :
    pollerStep s = pollPush i v s := by
  simp [pollerStep, ha, hc, hi]

theorem pollerStep_delay {wake : Time} (ha : s.p.alive = true) (hc : s.p.ctl = .delay i) (hi : s.p.io = .asleep wake) :
    pollerStep s = some ((s.sleep .poller .interpoll wake).setPoll
      (if i + 1 < (s.p.config.getD []).length then .read (i + 1) else .endPass) .idle) := by
  simp [pollerStep, ha, hc, hi]

theorem pollerStep_endPass (ha : s.p.alive = true) (hc : s.p.ctl = .endPass) (hi : s.p.io = .idle) :
    pollerStep s = some (endPass s) := by
  simp [pollerStep, ha, hc, hi]

theorem pollerStep_backoff {wake : Time} (ha : s.p.alive = true) (hc : s.p.ctl = .backoff i)
    (hi : s.p.io = .asleep wake) :
    pollerStep s = some ((s.sleep .poller .backoff wake).setPoll (.read i) .idle) := by
  simp [pollerStep, ha, hc, hi]

theorem pollEntry_eq {l : List (Addr × Nat)} (hl : s.p.config = some l) : s.pollEntry i = l[i]? := by
  simp [State.pollEntry, hl]

theorem pollCheck_stopped (hr : s.p.running = false) : pollCheck i s = some s.pollExit := by
  simp [pollCheck, hr]

theorem pollCheck_notOpen (hr : s.p.running = true) (ht : s.t.connected = false) :
    pollCheck i s = some (s.setPoll (.backoff i) (.asleep (s.wakeAt .backoff))) := by
  simp [pollCheck, hr, ht]

theorem pollCheck_open {e : Addr × Nat} (hr : s.p.running = true) (ht : s.t.connected = true)
    (he : s.pollEntry i = some e) :
    pollCheck i s = some (s.setPoll (.read i) (.xact (readXact s.t.deviceId e.1))) := by
  simp [pollCheck, hr, ht, he]

theorem pollPush_some {e : Addr × Nat} {x : Value} (he : s.pollEntry i = some e) :
    pollPush i (some x) s = some ((s.push e.2 (e.1, x)).setPoll (.delay i) (.asleep (s.wakeAt .interpoll))) := by
  simp [pollPush, he]

theorem pollPush_none {e : Addr × Nat} (he : s.pollEntry i = some e) :
    pollPush i none s = some (s.setPoll (.delay i) (.asleep (s.wakeAt .interpoll))) := by
  simp [pollPush, he]

end

theorem endPass_eq {s : State} {t0 : Time} (hc : s.p.passT0 = some t0) :
    endPass s = { s.readNow with
      p := { s.p with ctl := .read 0, passT0 := some s.readNow.clock }
      out := s.out ++ (if s.p.rateCb then [.rate (s.readNow.clock - t0)] else []) ++
        (if s.p.dataCb then [.newData] else []) } := by
  simp [endPass, State.emitIf, hc]

/-- Settles O26: at each control state the equation of the step there, and at each step of the transaction the
transaction's own. -/
theorem pollerControl : Obligations.PollerControl := by
  intro s l ha hl
  refine ⟨?_, ?_, ?_, ?_, ?_, ?_, ?_, ?_, ?_, ?_, ?_, ?_⟩
  · intro i hc hi hr
    rw [pollerStep_check ha hc hi, pollCheck_stopped hr]
    rfl
  · intro i hc hi hr ht
    rw [pollerStep_check ha hc hi, pollCheck_notOpen hr ht]
    rfl
  · intro i a j hc hi hr ht he
    rw [pollerStep_check ha hc hi, pollCheck_open hr ht ((pollEntry_eq hl).trans he), ← hc]
    rfl
  · rintro i ⟨req, frame, phase⟩ hc hi rfl
    refine ⟨fun hlock => ?_, fun hlock => ?_⟩
    · exact pollerStep_wait hc hi (by simp [xactStep, hlock])
    · exact pollerStep_more ha hc hi (xactStep_acquire hlock)
  · intro i req frame hc hi
    refine ⟨fun ht => ?_, fun ht hd => ?_, fun ht hd => ?_⟩
    · exact pollerStep_done ha hc hi (sendRequest_notOpen ht)
    · exact pollerStep_done ha hc hi (sendRequest_refused ht (Prod.ext hd rfl))
    · exact pollerStep_more ha hc hi (sendRequest_taken ht (Prod.ext hd rfl))
  · intro i req frame wake hc hi
    exact pollerStep_more ha hc hi rfl
  · intro i req frame late hc hi
    refine ⟨fun more hd => ?_, fun hd => ?_⟩
    · exact pollerStep_done ha hc hi (receiveReply_bytes (Prod.ext hd rfl))
    · exact pollerStep_done ha hc hi (receiveReply_fails (Prod.ext hd rfl))
  · intro i a j x hc hi he
    rw [pollerStep_push ha hc hi, pollPush_some ((pollEntry_eq hl).trans he)]
    rfl
  · intro i a j hc hi he
    rw [pollerStep_push ha hc hi, pollPush_none ((pollEntry_eq hl).trans he)]
    rfl
  · intro i wake hc hi
    rw [pollerStep_delay ha hc hi, hl]
    rfl
  · intro t0 hc hi h0
    rw [pollerStep_endPass ha hc hi, endPass_eq h0]
    exact ⟨rfl, s.clock_le_readNow, s.reached_le_readNow⟩
  · intro i wake hc hi
    rw [pollerStep_backoff ha hc hi]
    rfl

end Sys2Proof.Machine
end

section
/-! The poller's step beside the rest of the machine: a whole undisturbed read (R206, R210, R241), what it leaves alone and
does not read (R240, R32, R391), and the one step that ends it (R233). -/

namespace Sys2Proof.Machine

/-! ### A transaction neither reads nor writes P, A and C -/

/-- P, A and C replaced: what a step of a transaction does not touch. -/
def State.withPAC (p : Poller) (a : Automaton) (c : Cfg) (s : State) : State := { s with p := p, a := a, c := c }

/-- The same step, its state changed. -/
def XStep.map (f : State → State) : XStep → XStep
  | .wait => .wait
  | .more x s => .more x (f s)
  | .done v s => .done v (f s)

section
variable (g : Agent) (x : Xact) (p : Poller) (a : Automaton) (c : Cfg) (s : State)

theorem sendRequest_withPAC :
    sendRequest g x (s.withPAC p a c) = (sendRequest g x s).map (State.withPAC p a c) := by
  have hdraw := drawTxOk_env s (s.withPAC p a c) rfl
  cases ht : s.t.connected with
  | false =>
    rw [sendRequest_notOpen ht, sendRequest_notOpen (s := s.withPAC p a c) ht]
    rfl
  | true =>
    cases hd : s.drawTxOk with
    | mk ok s' =>
      rw [hd] at hdraw
      cases ok with
      | false =>
        rw [sendRequest_refused ht hd, sendRequest_refused (s := s.withPAC p a c) ht hdraw]
        rfl
      | true =>
        rw [sendRequest_taken ht hd, sendRequest_taken (s := s.withPAC p a c) ht hdraw]
        rfl

theorem receiveReply_withPAC (late : Time) :
    receiveReply g x late (s.withPAC p a c) = (receiveReply g x late s).map (State.withPAC p a c) := by
  have hdraw := drawRx_env s (s.withPAC p a c) rfl
  cases hd : s.drawRx with
  | mk d s' =>
    rw [hd] at hdraw
    cases d with
    | fails =>
      rw [receiveReply_fails hd, receiveReply_fails (s := s.withPAC p a c) hdraw]
      rfl
    | bytes more =>
      rw [receiveReply_bytes hd, receiveReply_bytes (s := s.withPAC p a c) hdraw]
      rfl

theorem xactStep_withPAC : xactStep g x (s.withPAC p a c) = (xactStep g x s).map (State.withPAC p a c) := by
  obtain ⟨req, frame, phase⟩ := x
  cases phase with
  | acquire =>
    unfold xactStep
    dsimp only [State.withPAC]
    split <;> rfl
  | send => exact sendRequest_withPAC g _ p a c s
  | settle wake => rfl
  | receive late => exact receiveReply_withPAC g _ p a c s late

end

/-! ### One whole read -/

/-- The poller comes from `s` to `t` by steps of its own. -/
def PollerReaches (s t : State) : Prop := ∃ n, pollerSteps n s = some t

theorem PollerReaches.refl (s : State) : PollerReaches s s := ⟨0, rfl⟩

theorem PollerReaches.head {s s' t : State} (h : pollerStep s = some s') (k : PollerReaches s' t) :
    PollerReaches s t := by
  obtain ⟨n, hn⟩ := k
  exact ⟨n + 1, by simp [pollerSteps, h, hn]⟩

theorem PollerReaches.trans {s s' t : State} (h : PollerReaches s s') (k : PollerReaches s' t) : PollerReaches s t := by
  obtain ⟨n, hn⟩ := h
  induction n generalizing s with
  | zero => cases hn; exact k
  | succ n ih =>
    obtain ⟨s1, h1, h2⟩ := Option.bind_eq_some_iff.1 hn
    exact .head h1 (ih h2)

/-- The last step of a read. -/
theorem PollerReaches.push {s t : State} {i : Nat} {v : Option Value} (ha : s.p.alive = true) (hc : s.p.ctl = .read i)
    (hi : s.p.io = .got v) (h : pollPush i v s = some t) : PollerReaches s t :=
  .head ((pollerStep_push ha hc hi).trans h) (.refl t)

/-- The state after an undisturbed transaction of agent `g`. -/
def linkDoneBy (g : Agent) (x : Xact) (s : State) : State :=
  { s with t := { s.t with rx := linkRx s }, env := linkEnv s, reached := linkReached x.req s
           out := s.out ++ linkEvents g x s }

section
variable {s : State} {i : Nat}

/-- The poller's transaction does not see how far the poller notes it to be. -/
theorem xactStep_setPoll (x : Xact) (ctl : PollCtl) (io : PollIo) :
    xactStep .poller x (s.setPoll ctl io) =
      (xactStep .poller x s).map (State.withPAC { s.p with ctl := ctl, io := io } s.a s.c) :=
  xactStep_withPAC .poller x { s.p with ctl := ctl, io := io } s.a s.c s

/-- A step of a transaction from `s` is the poller's step, its progress noted. -/
theorem pollerStep_setPoll_more {x x' : Xact} {s' : State} (ha : s.p.alive = true)
    (hx : xactStep .poller x s = .more x' s') :
    pollerStep (s.setPoll (.read i) (.xact x)) = some (s'.setPoll (.read i) (.xact x')) := by
  have hf := xactStep_more_frame hx
  have hx' := xactStep_setPoll x (.read i) (.xact x) (s := s)
  rw [hx] at hx'
  rw [pollerStep_more (s := s.setPoll (.read i) (.xact x)) ha rfl rfl hx', ← hf.p, ← hf.a, ← hf.c]
  rfl

/-- The last step of a transaction from `s`. -/
theorem pollerStep_setPoll_done {x : Xact} {v : Option Value} {s' : State} (ha : s.p.alive = true)
    (hx : xactStep .poller x s = .done v s') :
    pollerStep (s.setPoll (.read i) (.xact x)) = some (s'.setPoll (.read i) (.got v)) := by
  have hf := xactStep_done_frame hx
  have hx' := xactStep_setPoll x (.read i) (.xact x) (s := s)
  rw [hx] at hx'
  rw [pollerStep_done (s := s.setPoll (.read i) (.xact x)) ha rfl rfl hx', ← hf.p, ← hf.a, ← hf.c]
  rfl

/-- An undisturbed transaction of the poller, from the lock to its value. -/
theorem pollerReaches_value {req : Req} {frame : Frame} (ha : s.p.alive = true) (hc : s.t.connected = true)
    (hl : s.t.lock = none) :
    PollerReaches (s.setPoll (.read i) (.xact ⟨req, frame, .acquire⟩))
      ((linkDoneBy .poller ⟨req, frame, .acquire⟩ s).setPoll (.read i) (.got (linkValue req.addr s))) := by
  refine .head (pollerStep_setPoll_more ha (xactStep_acquire hl)) ?_
  cases ht : s.drawTxOk.1 with
  | false =>
    have hdone : linkDoneBy .poller ⟨req, frame, .acquire⟩ s =
        { s with t := { s.t with rx := [] }, env := s.drawTxOk.2.env
                 out := s.out ++ [.flush .poller, .txFailed .poller frame.bytes, .log (.error .io) .error] } := by
      simp [linkDoneBy, linkRx, linkEnv, linkReached, linkEvents, hc, ht]
    have hvalue : linkValue req.addr s = none := by simp [linkValue, replyOf, hc, ht]
    rw [hdone, hvalue]
    exact .head (pollerStep_setPoll_done ha (send_fails hl hc ht)) (.refl _)
  | true =>
    refine .head (pollerStep_setPoll_more ha (send_ok hc ht)) ?_
    refine .head (pollerStep_setPoll_more ha settle_eq) ?_
    exact .head (pollerStep_setPoll_done ha (receive_eq hl hc ht)) (.refl _)

/-- A request that was sent has waited out its settle delay (R241). -/
theorem settled_le_linkReached (r : Req) (hc : s.t.connected = true) (ht : s.drawTxOk.1 = true) :
    s.reached + delayBound s.param (settleDelay r) ≤ linkReached r s := by
  simp only [linkReached, hc, ht, if_true]
  split
  · exact le_refl _
  · exact le_max_if _ _ _

end

/-- Settles O27: the flag check begins the read, the transaction runs undisturbed (`pollerReaches_value`), and its value
is pushed or none is. -/
theorem pollerReadsRegister : Obligations.PollerReadsRegister := by
  intro s l i a j ha hr hl hc hi he ht hlock
  have hentry : s.pollEntry i = some (a, j) := (pollEntry_eq hl).trans he
  have hgot (v : Option Value) :
      ((linkDoneBy .poller (readXact s.t.deviceId a) s).setPoll (.read i) (.got v)).pollEntry i = some (a, j) := hentry
  have hread : PollerReaches s
      ((linkDoneBy .poller (readXact s.t.deviceId a) s).setPoll (.read i) (.got (linkValue a s))) := by
    refine .head ?_ (pollerReaches_value (req := .read a) ha ht hlock)
    rw [pollerStep_check ha hc hi, pollCheck_open hr ht hentry]
    rfl
  refine exists_and_right.2 ⟨hread.trans ?_, settled_le_linkReached (.read a) ht⟩
  cases linkValue a s with
  | some x => exact .push ha rfl rfl (pollPush_some (hgot (some x)))
  | none => exact .push ha rfl rfl (pollPush_none (hgot none))

/-! ### What the poller leaves alone -/

theorem xactStep_result (g : Agent) (x : Xact) (s : State) : (xactStep g x s).All fun t => t.result = s.result := by
  unfold xactStep
  split
  · split
    · rfl
    · trivial
  · unfold sendRequest
    dsimp only
    split
    · split <;> simp [XStep.All]
    · rfl
  · rfl
  · unfold receiveReply
    dsimp only
    split
    · simp [XStep.All]
    · split <;> simp [XStep.All]

/-- What a step of the poller leaves alone beside what `PollFrame` names (R240). -/
structure PollKeeps (s t : State) : Prop where
  running   : t.p.running = s.p.running
  connected : t.t.connected = s.t.connected
  portCfg   : t.t.portCfg = s.t.portCfg
  inbox     : t.inbox = s.inbox
  linkIn    : t.linkIn = s.linkIn
  result    : t.result = s.result
  sched     : t.env.sched = s.env.sched

theorem LinkFrame.pollKeeps {s t : State} (h : LinkFrame s t) (hr : t.result = s.result)
    (hs : t.env.sched = s.env.sched) (ctl : PollCtl) (io : PollIo) : PollKeeps s (t.setPoll ctl io) :=
  ⟨by simp [h.p], h.connected, h.portCfg, h.inbox, h.linkIn, hr, hs⟩

theorem xactStep_keeps (x : Xact) (s : State) :
    (xactStep .poller x s).All fun t => ∀ ctl io, PollKeeps s (t.setPoll ctl io) := by
  have hf := xactStep_frame .poller x s
  have hr := xactStep_result .poller x s
  have hs := xactStep_sched .poller x s
  cases hx : xactStep .poller x s with
  | wait => trivial
  | more x' t => rw [hx] at hf hr hs; exact LinkFrame.pollKeeps hf hr hs
  | done v t => rw [hx] at hf hr hs; exact LinkFrame.pollKeeps hf hr hs

theorem endPass_keeps (s : State) : PollKeeps s (endPass s) := by
  constructor <;> simp [endPass]

theorem PollMove.keeps {s t : State} (h : PollMove s t) : PollKeeps s t := by
  cases h with
  | more i x x' s' hc hi hx => have hk := xactStep_keeps x s; rw [hx] at hk; exact hk _ _
  | done i x v s' hc hi hx => have hk := xactStep_keeps x s; rw [hx] at hk; exact hk _ _
  | endPass hc hi => exact endPass_keeps s
  | _ => constructor <;> rfl

/-! ### Other A and C: the same step -/

theorem readNow_withAC (s : State) (a : Automaton) (c : Cfg) :
    ({ s with a := a, c := c } : State).readNow = { s.readNow with a := a, c := c } := by
  cases h : s.env.ticks <;> simp [State.readNow, State.drawTick, State.countDraw, h]

theorem endPass_withAC (s : State) (a : Automaton) (c : Cfg) :
    endPass { s with a := a, c := c } = { endPass s with a := a, c := c } := by
  simp only [endPass, readNow_withAC]
  rfl

theorem xactStep_withAC (x : Xact) (a : Automaton) (c : Cfg) (s : State) :
    xactStep .poller x { s with a := a, c := c } =
      (xactStep .poller x s).map fun t => { t with a := a, c := c } := by
  have h := xactStep_withPAC .poller x s.p a c s
  have hf := xactStep_frame .poller x s
  refine Eq.trans h ?_
  cases hx : xactStep .poller x s with
  | wait => rfl
  | more x' t => rw [hx] at hf; simp only [XStep.map, State.withPAC, ← (show LinkFrame s t from hf).p]
  | done v t => rw [hx] at hf; simp only [XStep.map, State.withPAC, ← (show LinkFrame s t from hf).p]

theorem pollCheck_withAC (i : Nat) (s : State) (a : Automaton) (c : Cfg) :
    pollCheck i { s with a := a, c := c } = (pollCheck i s).map fun t => { t with a := a, c := c } := by
  unfold pollCheck
  dsimp only
  split
  · rfl
  · split
    · rfl
    · rw [Option.map_map]
      rfl

theorem pollPush_withAC (i : Nat) (v : Option Value) (s : State) (a : Automaton) (c : Cfg) :
    pollPush i v { s with a := a, c := c } = (pollPush i v s).map fun t => { t with a := a, c := c } := by
  unfold pollPush
  rw [Option.map_map]
  cases v <;> rfl

/-- R240: branch by branch, the poller's step with other A and C is the same. -/
theorem pollerStep_withAC (s : State) (a : Automaton) (c : Cfg) :
    pollerStep { s with a := a, c := c } = (pollerStep s).map fun t => { t with a := a, c := c } := by
  unfold pollerStep
  dsimp only
  split
  · rfl
  · split
    next i hc hi => exact pollCheck_withAC i s a c
    next i x hc hi =>
      rw [xactStep_withAC]
      cases xactStep .poller x s <;> rfl
    next i v hc hi => exact pollPush_withAC i v s a c
    next i wake hc hi => rfl
    next hc hi => exact congrArg some (endPass_withAC s a c)
    next i wake hc hi => rfl
    next => rfl

/-- Settles O28: each of the poller's moves keeps the rest (`PollMove.frame`, `PollMove.keeps`), and each of its branches
is the same whatever A and C are (`pollerStep_withAC`). -/
theorem pollerIsolation : Obligations.PollerIsolation := by
  refine ⟨fun s t h => ?_, pollerStep_withAC⟩
  have hm := (pollerStep_move h).2
  obtain ⟨hrun, hconn, hport, hin, hlink, hres, hsched⟩ := hm.keeps
  have hf := hm.frame
  exact ⟨hf.a, hf.c, hrun, hf.config, hf.rateCb, hf.dataCb, hconn, hf.deviceId, hport, hf.con, hin, hlink, hf.param,
    hres, hsched⟩

/-! ### The poller's exit -/

theorem endPass_alive (s : State) : (endPass s).p.alive = s.p.alive := by simp [endPass]

/-- A move of the poller leaves it alive, or is its exit (R233). -/
theorem PollMove.alive_or_exit {s t : State} (h : PollMove s t) :
    t.p.alive = s.p.alive ∨
      (s.p.running = false ∧ s.p.io = .idle ∧ (∃ i, s.p.ctl = .read i) ∧
        t.p = { s.p with alive := false, ctl := .idle }) := by
  cases h with
  | exit i hc hi hr => exact .inr ⟨hr, hi, ⟨i, hc⟩, rfl⟩
  | more i x x' s' hc hi hx => exact .inl (by simp [(xactStep_more_frame hx).p])
  | done i x v s' hc hi hx => exact .inl (by simp [(xactStep_done_frame hx).p])
  | endPass hc hi => exact .inl (endPass_alive s)
  | _ => exact .inl rfl

/-- No instruction ends the poller. -/
theorem Effect.alive {s t : State} (h : Effect s t) (ha : s.p.alive = true) : t.p.alive = true := by
  cases h with
  | work ws a running drained hq ht => exact (congrArg Poller.alive (runWork_run ws _).p).trans ha
  | pstart hr hl => rfl
  | _ => exact ha

/-- Settles O29: of all moves the poller's own exit alone clears the flag. -/
theorem pollerExitsOnlyAtFlagCheck : Obligations.PollerExitsOnlyAtFlagCheck := by
  intro s t h ha hdead
  obtain ⟨l, hm⟩ := step_move h
  have dead (hk : t.p.alive = true) {P : Prop} : P := absurd (hk.symm.trans hdead) (by decide)
  cases hm with
  | wait => exact dead ha
  | poller _ hp => exact hp.alive_or_exit.resolve_left fun hk => dead (hk.trans ha)
  | resume hw ht => exact dead ((congrArg Poller.alive (runWork_run _ _).p).trans ha)
  | join hw ht => exact dead ((congrArg Poller.alive (runWork_run _ _).p).trans ha)
  | fetch hw hb hc ht he => exact dead (he.alive ha)
  | device l chunk rest hl => exact dead ha

end Sys2Proof.Machine
end

section
/-! The decode step field by field (45_automaton_decode.md R291-R305): A after the step from A before it. -/

namespace Sys2Proof.Machine

/-! ### Flags, time and position (R291-R295) -/

theorem phase1_position (par : Params) (old new : Flags) (dt : Time) (a : Automaton) :
    (phase1 par old new dt a).position =
      (if rising old.begBlk new.begBlk && !old.m1Running then 0 else a.position) +
        (if new.m1Fwd then travel par dt a else 0) - (if new.m1Back then travel par dt a else 0) := by
  have hf : travel par dt (homeReset old new a) = travel par dt a := travel_of_period par dt (by simp)
  have hb : travel par dt (integrateForward par new dt (homeReset old new a)) = travel par dt a :=
    travel_of_period par dt (by simp)
  rw [phase1, integrateBackward_position, integrateForward_position, homeReset_position, hf, hb]

theorem phase1_elapsed (par : Params) (old new : Flags) (dt : Time) (a : Automaton) :
    (phase1 par old new dt a).elapsed =
      (if rising old.begBlk new.begBlk && !old.m1Running then 0 else a.elapsed) + (if new.m1Fwd then dt else 0) := by
  rw [phase1, integrateBackward_elapsed, integrateForward_elapsed, homeReset_elapsed]

section
variable (par : Params) (c : Cfg) (now : Time) (word : Value) (a : Automaton)

theorem decodeStep_position : (decodeStep par c now word a).1.position =
    (if rising a.flags.begBlk (decodeStatus par.statusIndex word).begBlk && !a.flags.m1Running then 0 else a.position) +
      (if (decodeStatus par.statusIndex word).m1Fwd then travel par (decodeDt now a) a else 0) -
      (if (decodeStatus par.statusIndex word).m1Back then travel par (decodeDt now a) a else 0) := by
  have ht (b : Automaton) (h : b.periodM1 = a.periodM1) :
      travel par (decodeDt now a) b = travel par (decodeDt now a) a := travel_of_period par _ h
  simp [decodeStep, phase1_position, ht]

theorem decodeStep_elapsed : (decodeStep par c now word a).1.elapsed =
    (if rising a.flags.begBlk (decodeStatus par.statusIndex word).begBlk && !a.flags.m1Running then 0 else a.elapsed) +
      (if (decodeStatus par.statusIndex word).m1Fwd then decodeDt now a else 0) := by
  simp [decodeStep, phase1_elapsed]

theorem decodeStep_override : (decodeStep par c now word a).1.override =
    ((a.override || rising a.flags.m1Back (decodeStatus par.statusIndex word).m1Back && c.backSpeedEn) &&
      !((decodeStatus par.statusIndex word).begBlk && c.backSpeedEn)) := by
  simp [decodeStep, phase1, overrideOn_override, overrideOff_override]

end

/-- R293's condition, the edge written out. -/
theorem homeReset_condition (old new : Flags) : (rising old.begBlk new.begBlk && !old.m1Running) =
    (!old.begBlk && new.begBlk && !(old.m1Fwd || old.m1Back)) := by
  rw [rising, Bool.and_comm new.begBlk, Flags.m1Running]

/-- Settles O32: position and elapsed time are phase 1's alone, and the travel is the period's of before the step. -/
theorem decodeIntegrates : Obligations.DecodeIntegrates := by
  intro par c now word a
  have hpos := decodeStep_position par c now word a
  have helapsed := decodeStep_elapsed par c now word a
  rw [homeReset_condition] at hpos helapsed
  refine ⟨decodeStep_flags .., decodeStep_tPrev .., hpos.trans ?_, helapsed, decodeStep_periodM1 ..,
    decodeStep_periodM2 ..⟩
  unfold travel
  cases a.periodM1 <;> rfl

/-- Settles O33: phase 2 sets the override before it clears it, and phase 4 alone writes the arm flag. -/
theorem decodeOverrideAndStart : Obligations.DecodeOverrideAndStart := by
  intro par c now word a
  refine ⟨?_, ?_, decodeStep_armTime .., decodeStep_armAux ..⟩
  · rw [decodeStep_override]
    cases c.backSpeedEn <;> cases (decodeStatus par.statusIndex word).begBlk <;> simp [rising]
  · simp [decodeStep_armed]

/-! ### The purge (R298, R303-R305, R345) -/

/-- R303's first test, as phase 5 makes it: only while a sequence runs. -/
theorem purgeActive_and_toggleDue (c : Cfg) (now : Time) (a : Automaton) : (a.purgeActive && toggleDue c now a) =
    (a.purgeActive && decide (a.purgeCount < 2 * c.purgePulses) && decide (c.purgeDuration ≤ now - a.purgeLast)) :=
  (Bool.and_assoc ..).symm

theorem purgeEnds_eq (c : Cfg) (now : Time) (a : Automaton) : purgeEnds c now a =
    (a.purgeActive && decide (2 * c.purgePulses ≤
      if a.purgeActive && toggleDue c now a then a.purgeCount + 1 else a.purgeCount)) := by
  unfold purgeEnds
  cases a.purgeActive <;> rfl

theorem purgeStep_purgeValve_ite (c : Cfg) (now : Time) (a : Automaton) : (purgeStep c now a).1.purgeValve =
    if purgeEnds c now a then false
    else if a.purgeActive && toggleDue c now a then !a.purgeValve else a.purgeValve := by
  rw [purgeStep_purgeValve]
  cases purgeEnds c now a <;> cases a.purgeActive && toggleDue c now a <;> simp

section
variable (par : Params) (c : Cfg) (now : Time) (word : Value) (a : Automaton)

/-- A as the step's first four phases leave it, which is how phase 5 finds it. -/
def beforePurge : Automaton :=
  let new := decodeStatus par.statusIndex word
  let a1 := phase1 par a.flags new (decodeDt now a) { a with tPrev := some now, flags := new }
  (manualStart c now (returnStroke c new now (overrideOff c new (overrideOn c a.flags new a1).1).1).1).1

theorem decodeStep_fst : (decodeStep par c now word a).1 = (purgeStep c now (beforePurge par c now word a)).1 := rfl

theorem beforePurge_purgeActive : (beforePurge par c now word a).purgeActive =
    (a.purgeActive || purgeBegins c (decodeStatus par.statusIndex word) a) := by
  simp [beforePurge, phase1, returnStroke_purgeActive, purgeBegins]

theorem beforePurge_purgeCount : (beforePurge par c now word a).purgeCount =
    if purgeBegins c (decodeStatus par.statusIndex word) a then 0 else a.purgeCount := by
  simp [beforePurge, phase1, returnStroke_purgeCount, purgeBegins]

theorem beforePurge_purgeLast : (beforePurge par c now word a).purgeLast =
    if purgeBegins c (decodeStatus par.statusIndex word) a then now else a.purgeLast := by
  simp [beforePurge, phase1, returnStroke_purgeLast, purgeBegins]

theorem beforePurge_purgeValve : (beforePurge par c now word a).purgeValve =
    if purgeBegins c (decodeStatus par.statusIndex word) a then false else a.purgeValve := by
  simp [beforePurge, phase1, returnStroke_purgeValve, purgeBegins]

theorem beforePurge_purgePending : (beforePurge par c now word a).purgePending =
    (a.purgePending && !(c.manualReturnEn && (decodeStatus par.statusIndex word).endBlk &&
      !(decodeStatus par.statusIndex word).m1Back)) := by
  simp [beforePurge, phase1, returnStroke_purgePending]

theorem decodeStep_purgePending : (decodeStep par c now word a).1.purgePending =
    (a.purgePending && !(c.manualReturnEn && (decodeStatus par.statusIndex word).endBlk &&
      !(decodeStatus par.statusIndex word).m1Back)) := by
  rw [decodeStep_fst, purgeStep_purgePending, beforePurge_purgePending]

end

/-- Settles O34: phase 5's toggle and end, at the purge as the return stroke leaves it. -/
theorem decodePurge : Obligations.DecodePurge := by
  intro par c now word a
  refine ⟨?_, ?_, ?_, ?_, decodeStep_purgePending ..⟩
  · rw [decodeStep_fst, purgeStep_purgeActive, purgeEnds_eq, purgeActive_and_toggleDue, beforePurge_purgeActive,
      beforePurge_purgeCount, beforePurge_purgeLast]
    rfl
  · rw [decodeStep_fst, purgeStep_purgeCount, purgeActive_and_toggleDue, beforePurge_purgeActive,
      beforePurge_purgeCount, beforePurge_purgeLast]
    rfl
  · rw [decodeStep_fst, purgeStep_purgeLast, purgeActive_and_toggleDue, beforePurge_purgeActive,
      beforePurge_purgeCount, beforePurge_purgeLast]
    rfl
  · rw [decodeStep_fst, purgeStep_purgeValve_ite, purgeEnds_eq, purgeActive_and_toggleDue, beforePurge_purgeActive,
      beforePurge_purgeCount, beforePurge_purgeLast, beforePurge_purgeValve]
    rfl

end Sys2Proof.Machine
end

section
/-! What the decode step puts out (R311), and the actions among it. -/

namespace Sys2Proof.Machine

/-! ### All emissions -/

theorem and_and_rotate (x y z : Bool) : (x && y && z) = (z && x && y) := by
  rw [Bool.and_comm, Bool.and_assoc]

/-- R311: each phase's part under its own condition, phase 5's at the purge it finds. -/
theorem decodeStep_emissions (par : Params) (c : Cfg) (now : Time) (word : Value) (a : Automaton) :
    (decodeStep par c now word a).2 =
      let new := decodeStatus par.statusIndex word
      let back := c.backSpeedEn && new.m1Back && !a.flags.m1Back
      let fires := a.armed && decide (c.startDelay ≤ now - a.armTime)
      (if back then [.act (.setPeriodM1 backPeriod)] else [] : List Emission) ++
      (if c.backSpeedEn && new.begBlk && (a.override || back) then [.act .applyFwd] else [] : List Emission) ++
      (if c.manualReturnEn && new.endBlk && !new.m1Back then [.act .m2Fwd, .act .m1Back] else [] : List Emission) ++
      (if purgeBegins c new a then [.flowOpen, .logPurgeStart] else [] : List Emission) ++ stopMotor2 new ++
      (if fires then [.act .m1Fwd, .act .m2Fwd] else [] : List Emission) ++
      (if fires && a.armAux then [.auxStart] else [] : List Emission) ++
      (purgeStep c now (beforePurge par c now word a)).2 ++ auxShutdown new := by
  simp [decodeStep, beforePurge, phase1, purgeBegins, rising, overrideOn_emissions, overrideOff_emissions,
    overrideOn_override, returnStroke_emissions, manualStart_emissions, and_and_rotate _ _ c.backSpeedEn,
    and_and_rotate _ _ c.manualReturnEn]

/-- Settles O35: `decodeStep_emissions`, with phase 5's part at the purge as the return stroke leaves it. -/
theorem decodeEmits : Obligations.DecodeEmits := by
  intro par c now word a
  rw [decodeStep_emissions, purgeStep_emissions, purgeEnds_eq, purgeActive_and_toggleDue, beforePurge_purgeActive,
    beforePurge_purgeCount, beforePurge_purgeLast, beforePurge_purgeValve]
  simp only [List.append_assoc]
  rfl

/-! ### The actions among emissions -/

theorem actionsOf_nil : actionsOf [] = [] := rfl
theorem actionsOf_act_cons (act : Action) (l : List Emission) : actionsOf (.act act :: l) = act :: actionsOf l := rfl
theorem actionsOf_flowOpen_cons (l : List Emission) : actionsOf (.flowOpen :: l) = actionsOf l := rfl
theorem actionsOf_flowStart_cons (l : List Emission) : actionsOf (.flowStart :: l) = actionsOf l := rfl
theorem actionsOf_auxStart_cons (l : List Emission) : actionsOf (.auxStart :: l) = actionsOf l := rfl
theorem actionsOf_auxEnd_cons (l : List Emission) : actionsOf (.auxEnd :: l) = actionsOf l := rfl
theorem actionsOf_logPurgeStart_cons (l : List Emission) : actionsOf (.logPurgeStart :: l) = actionsOf l := rfl

theorem actionsOf_ite (b : Bool) (l : List Emission) :
    actionsOf (if b then l else []) = if b then actionsOf l else [] := by
  cases b <;> rfl

theorem actionsOf_purgeStep (c : Cfg) (now : Time) (a : Automaton) : actionsOf (purgeStep c now a).2 =
    (if a.purgeActive && toggleDue c now a then [if a.purgeValve then .valve2Off else .valve2On] else []) ++
      (if purgeEnds c now a then [.valve2Off] else []) := by
  simp only [purgeStep_emissions, actionsOf_append, actionsOf_ite, actionsOf_nil, actionsOf_act_cons,
    actionsOf_flowStart_cons]

theorem actionsOf_decodeStep (par : Params) (c : Cfg) (now : Time) (word : Value) (a : Automaton) :
    actionsOf (decodeStep par c now word a).2 =
      let new := decodeStatus par.statusIndex word
      let back := c.backSpeedEn && new.m1Back && !a.flags.m1Back
      (if back then [.setPeriodM1 backPeriod] else [] : List Action) ++
      (if c.backSpeedEn && new.begBlk && (a.override || back) then [.applyFwd] else [] : List Action) ++
      (if c.manualReturnEn && new.endBlk && !new.m1Back then [.m2Fwd, .m1Back] else [] : List Action) ++
      (if new.begBlk && new.m2Running && !new.m1Running then [.m2Stop] else [] : List Action) ++
      (if a.armed && decide (c.startDelay ≤ now - a.armTime) then [.m1Fwd, .m2Fwd] else [] : List Action) ++
      actionsOf (purgeStep c now (beforePurge par c now word a)).2 := by
  simp only [decodeStep_emissions, stopMotor2, auxShutdown, actionsOf_append, actionsOf_ite, actionsOf_nil,
    actionsOf_act_cons, actionsOf_flowOpen_cons, actionsOf_auxStart_cons, actionsOf_auxEnd_cons,
    actionsOf_logPurgeStart_cons, ite_self, List.append_nil]

theorem valveActions_append (l l' : List Emission) : valveActions (l ++ l') = valveActions l ++ valveActions l' := by
  simp [valveActions, actionsOf_append]

/-- Phase 5 alone commands valve 2, and nothing else (R303-R305). -/
theorem valveActions_decodeStep (par : Params) (c : Cfg) (now : Time) (word : Value) (a : Automaton) :
    valveActions (decodeStep par c now word a).2 = actionsOf (purgeStep c now (beforePurge par c now word a)).2 := by
  rw [valveActions, actionsOf_decodeStep, actionsOf_purgeStep]
  cases (beforePurge par c now word a).purgeValve <;> simp [List.filter_append, apply_ite (List.filter _)]

/-! ### The forward pair (R300, R301) -/

/-- Each M1_FWD among actions has M2_FWD at once after it (R301). -/
def Paired (l : List Action) : Prop :=
  ∀ before after, l = before ++ .m1Fwd :: after → ∃ rest, after = .m2Fwd :: rest

theorem paired_of_not_mem {l : List Action} (h : .m1Fwd ∉ l) : Paired l := by
  rintro before after rfl
  simp at h

theorem paired_pair : Paired [.m1Fwd, .m2Fwd] := by
  intro before after h
  match before with
  | [] => exact ⟨[], (List.cons.inj h).2.symm⟩
  | [_] => cases (List.cons.inj (List.cons.inj h).2).1
  | _ :: _ :: _ => simp at h

theorem Paired.append {l l' : List Action} (h : Paired l) (h' : Paired l') : Paired (l ++ l') := by
  intro before after e
  obtain ⟨as, hb, hl⟩ | ⟨bs, hb, hl⟩ := List.append_eq_append_iff.1 e
  · exact h' as after hl
  · cases bs with
    | nil => exact h' [] after (by simpa using hl.symm)
    | cons x bs =>
      obtain ⟨rfl, rfl⟩ := List.cons.inj hl
      obtain ⟨rest, rfl⟩ := h before bs hb
      exact ⟨rest ++ l', rfl⟩

theorem Paired.ite {l : List Action} (b : Bool) (h : Paired l) : Paired (if b then l else []) := by
  cases b with
  | true => exact h
  | false => exact paired_of_not_mem List.not_mem_nil

section
variable (par : Params) (c : Cfg) (now : Time) (word : Value) (a : Automaton)

/-- The pair where the deferred start fires, and no M1_FWD beside it. -/
theorem decodeStep_pair : ∃ pre post, actionsOf (decodeStep par c now word a).2 =
      pre ++ (if a.armed && decide (c.startDelay ≤ now - a.armTime) then [.m1Fwd, .m2Fwd] else []) ++ post ∧
    .m1Fwd ∉ pre ∧ .m1Fwd ∉ post := by
  refine ⟨_, _, actionsOf_decodeStep .., by simp, ?_⟩
  rw [actionsOf_purgeStep]
  cases (beforePurge par c now word a).purgeValve <;> simp

theorem decodeStep_paired : Paired (actionsOf (decodeStep par c now word a).2) := by
  obtain ⟨pre, post, h, hpre, hpost⟩ := decodeStep_pair par c now word a
  rw [h]
  exact ((paired_of_not_mem hpre).append (paired_pair.ite _)).append (paired_of_not_mem hpost)

theorem decodeStep_count_m1Fwd : (actionsOf (decodeStep par c now word a).2).count .m1Fwd =
    if a.armed && decide (c.startDelay ≤ now - a.armTime) then 1 else 0 := by
  obtain ⟨pre, post, h, hpre, hpost⟩ := decodeStep_pair par c now word a
  rw [h, List.count_append, List.count_append, List.count_eq_zero_of_not_mem hpre, List.count_eq_zero_of_not_mem hpost]
  split <;> rfl

end

end Sys2Proof.Machine
end

section
/-! Runs of decode steps: the deferred start (R300, R301), the purge sequence (R303-R305), the forward run (R312). -/

namespace Sys2Proof.Machine

/-- A run and one step more. -/
theorem decodeRun_concat (par : Params) (c : Cfg) (l : List (Time × Value)) (e : Time × Value) (a : Automaton) :
    decodeRun par c (l ++ [e]) a =
      ((decodeStep par c e.1 e.2 (decodeRun par c l a).1).1,
        (decodeRun par c l a).2 ++ (decodeStep par c e.1 e.2 (decodeRun par c l a).1).2) := by
  induction l generalizing a with
  | nil => simp [decodeRun]
  | cons d l ih => simp [decodeRun, ih]

/-! ### The deferred start -/

section
variable (par : Params) (c : Cfg) (l : List (Time × Value)) (a : Automaton)

theorem decodeRun_armTime : (decodeRun par c l a).1.armTime = a.armTime := by
  induction l using List.reverseRecOn with
  | nil => rfl
  | append_singleton l e ih => rw [decodeRun_concat, decodeStep_armTime, ih]

theorem decodeRun_armed : (decodeRun par c l a).1.armed =
    (a.armed && !l.any fun e => decide (c.startDelay ≤ e.1 - a.armTime)) := by
  induction l using List.reverseRecOn with
  | nil => simp [decodeRun]
  | append_singleton l e ih =>
    rw [decodeRun_concat, decodeStep_armed, ih, decodeRun_armTime]
    simp [Bool.and_assoc]

theorem decodeRun_count_m1Fwd : (actionsOf (decodeRun par c l a).2).count .m1Fwd =
    if a.armed && l.any fun e => decide (c.startDelay ≤ e.1 - a.armTime) then 1 else 0 := by
  induction l using List.reverseRecOn with
  | nil => simp [decodeRun, actionsOf_nil]
  | append_singleton l e ih =>
    rw [decodeRun_concat, actionsOf_append, List.count_append, ih, decodeStep_count_m1Fwd, decodeRun_armed,
      decodeRun_armTime, List.any_append]
    cases a.armed <;> cases l.any fun e => decide (c.startDelay ≤ e.1 - a.armTime) <;> simp

theorem decodeRun_paired : Paired (actionsOf (decodeRun par c l a).2) := by
  induction l using List.reverseRecOn with
  | nil => exact paired_of_not_mem List.not_mem_nil
  | append_singleton l e ih =>
    rw [decodeRun_concat, actionsOf_append]
    exact Paired.append ih (decodeStep_paired par c e.1 e.2 _)

end

/-- Settles O38: by induction on the run from its end; a step fires where the run before it has not and its delay has
passed. -/
theorem manualStartFiresOnce : Obligations.ManualStartFiresOnce := fun par c l a =>
  ⟨decodeRun_count_m1Fwd par c l a, decodeRun_armed par c l a, decodeRun_paired par c l a⟩

/-! ### The purge sequence -/

/-- How A stands to `acts`, the commands to valve 2 since its purge began: as many toggles as counted, and the forced
off once the sequence has ended; while it runs the valve tells which toggle is next. -/
structure PurgeTrace (c : Cfg) (a : Automaton) (acts : List Action) : Prop where
  pending : a.purgePending = false
  acts    : acts = (List.range a.purgeCount).map toggleAction ++ (if a.purgeActive then [] else [.valve2Off])
  bound   : a.purgeCount ≤ 2 * c.purgePulses
  ended   : a.purgeActive = false → a.purgeCount = 2 * c.purgePulses
  valve   : a.purgeActive = true → a.purgeValve = decide (a.purgeCount % 2 = 1)

theorem purgeInit_trace (c : Cfg) (now : Time) {a : Automaton} (ha : a.purgeActive = false)
    (hp : a.purgePending = false) : PurgeTrace c (purgeInit now a).1 [] := by
  constructor <;> simp [purgeInit, ha, hp]

theorem toggleAction_of_valve {a : Automaton} (h : a.purgeValve = decide (a.purgeCount % 2 = 1)) :
    (if a.purgeValve then .valve2Off else .valve2On) = toggleAction a.purgeCount := by
  unfold toggleAction
  obtain h0 | h1 := Nat.mod_two_eq_zero_or_one a.purgeCount
  · simp [h, h0]
  · simp [h, h1]

/-- R304: a toggle that is due is the next of the sequence. -/
theorem PurgeTrace.toggle {c : Cfg} {now : Time} {a : Automaton} {acts : List Action} (h : PurgeTrace c a acts)
    (ha : a.purgeActive = true) (hd : toggleDue c now a = true) :
    PurgeTrace c (purgeToggle now a).1 (acts ++ actionsOf (purgeToggle now a).2) := by
  obtain ⟨hpending, hacts, -, -, hvalve⟩ := h
  have hv := hvalve ha
  obtain ⟨hlt, -⟩ : a.purgeCount < 2 * c.purgePulses ∧ c.purgeDuration ≤ now - a.purgeLast := by
    simpa [toggleDue] using hd
  refine ⟨hpending, ?_, hlt, fun he => absurd (ha.symm.trans he) (by decide), fun _ => ?_⟩
  · simp [hacts, ha, purgeToggle, actionsOf_act_cons, actionsOf_nil, toggleAction_of_valve hv, List.range_succ]
  · obtain h0 | h1 := Nat.mod_two_eq_zero_or_one a.purgeCount
    · simp [purgeToggle, hv, h0, Nat.add_mod]
    · simp [purgeToggle, hv, h1, Nat.add_mod]

/-- R305: the sequence ends with the valve forced off, once all toggles are made. -/
theorem PurgeTrace.finish {c : Cfg} {a : Automaton} {acts : List Action} (h : PurgeTrace c a acts)
    (ha : a.purgeActive = true) : PurgeTrace c (purgeEnd c a).1 (acts ++ actionsOf (purgeEnd c a).2) := by
  unfold purgeEnd
  split
  next hc =>
    obtain ⟨hpending, hacts, hbound, -, -⟩ := h
    exact ⟨hpending, by simp [hacts, ha, actionsOf_act_cons, actionsOf_flowStart_cons, actionsOf_nil], hbound,
      fun _ => le_antisymm hbound hc, fun hf => by cases hf⟩
  next => simpa [actionsOf_nil] using h

theorem PurgeTrace.purgeStep {c : Cfg} {a : Automaton} {acts : List Action} (now : Time) (h : PurgeTrace c a acts) :
    PurgeTrace c (purgeStep c now a).1 (acts ++ actionsOf (purgeStep c now a).2) := by
  unfold Machine.purgeStep
  split
  next ha =>
    dsimp only
    split
    next hd =>
      rw [actionsOf_append, ← List.append_assoc]
      exact (h.toggle ha hd).finish ha
    next => exact h.finish ha
  next => simpa [actionsOf_nil] using h

/-- With none pending, no purge begins before phase 5. -/
theorem PurgeTrace.beforePurge {c : Cfg} {a : Automaton} {acts : List Action} (par : Params) (now : Time) (word : Value)
    (h : PurgeTrace c a acts) : PurgeTrace c (beforePurge par c now word a) acts := by
  have hbegins : purgeBegins c (decodeStatus par.statusIndex word) a = false := by simp [purgeBegins, h.pending]
  obtain ⟨hpending, hacts, hbound, hended, hvalve⟩ := h
  constructor
  case pending => rw [beforePurge_purgePending, hpending, Bool.false_and]
  all_goals simpa [beforePurge_purgeActive, beforePurge_purgeCount, beforePurge_purgeValve, hbegins]

theorem PurgeTrace.decodeStep {c : Cfg} {a : Automaton} {acts : List Action} (par : Params) (now : Time) (word : Value)
    (h : PurgeTrace c a acts) :
    PurgeTrace c (decodeStep par c now word a).1 (acts ++ valveActions (decodeStep par c now word a).2) := by
  rw [decodeStep_fst, valveActions_decodeStep]
  exact (h.beforePurge par now word).purgeStep now

theorem PurgeTrace.decodeRun {c : Cfg} {a : Automaton} (par : Params) (l : List (Time × Value))
    (h : PurgeTrace c a []) : PurgeTrace c (decodeRun par c l a).1 (valveActions (decodeRun par c l a).2) := by
  induction l using List.reverseRecOn with
  | nil => exact h
  | append_singleton l e ih =>
    rw [decodeRun_concat, valveActions_append]
    exact PurgeTrace.decodeStep par e.1 e.2 ih

/-- Settles O39: `PurgeTrace` holds after the initiation, and every step keeps it. -/
theorem purgeTogglesTwicePerPulse : Obligations.PurgeTogglesTwicePerPulse := by
  intro par c now l a ha hp
  have h := (purgeInit_trace c now ha hp).decodeRun par l
  exact ⟨h.acts, h.bound, h.ended⟩

/-! ### The forward run (R312) -/

/-- Motor 1 has run forward at period `p` since `t0`, when position and elapsed time were reset, and the flags are such
that the next step does not reset them. -/
structure ForwardSince (par : Params) (p : Value) (t0 : Time) (a : Automaton) : Prop where
  period : a.periodM1 = some p
  since  : ∃ t, a.tPrev = some t ∧ a.position = speedOf par p * (t - t0) ∧ a.elapsed = t - t0
  away   : a.flags.begBlk = true ∨ a.flags.m1Fwd = true

section
variable {par : Params} {p : Value} {t0 : Time} {a : Automaton} {word : Value} (c : Cfg)

/-- The sample at home, with motor 1 still, begins it. -/
theorem forwardSince_home (hp : a.periodM1 = some p) (h0 : a.flags.begBlk = false) (h1 : a.flags.m1Fwd = false)
    (h2 : a.flags.m1Back = false) (hb : (decodeStatus par.statusIndex word).begBlk = true)
    (hf : (decodeStatus par.statusIndex word).m1Fwd = false) (hk : (decodeStatus par.statusIndex word).m1Back = false) :
    ForwardSince par p t0 (decodeStep par c t0 word a).1 := by
  have hhome : (rising a.flags.begBlk (decodeStatus par.statusIndex word).begBlk && !a.flags.m1Running) = true := by
    simp [rising, Flags.m1Running, h0, h1, h2, hb]
  refine ⟨by rw [decodeStep_periodM1, hp], ⟨t0, decodeStep_tPrev .., ?_, ?_⟩, by rw [decodeStep_flags]; exact .inl hb⟩
  · rw [decodeStep_position, hhome, hf, hk]; simp
  · rw [decodeStep_elapsed, hhome, hf]; simp

/-- A forward sample adds the time since the one before it. -/
theorem ForwardSince.step (now : Time) (h : ForwardSince par p t0 a)
    (hf : (decodeStatus par.statusIndex word).m1Fwd = true) (hb : (decodeStatus par.statusIndex word).m1Back = false) :
    ForwardSince par p t0 (decodeStep par c now word a).1 := by
  obtain ⟨hp, ⟨t, ht, hpos, helapsed⟩, haway⟩ := h
  have hdt : decodeDt now a = now - t := by simp [decodeDt, ht]
  have hhome : (rising a.flags.begBlk (decodeStatus par.statusIndex word).begBlk && !a.flags.m1Running) = false := by
    rcases haway with h | h <;> simp [rising, Flags.m1Running, h]
  refine ⟨by rw [decodeStep_periodM1, hp], ⟨now, decodeStep_tPrev .., ?_, ?_⟩, by rw [decodeStep_flags]; exact .inr hf⟩
  · rw [decodeStep_position, hhome, hf, hb, hdt, hpos]
    simp only [travel, hp, Bool.false_eq_true, if_false, if_true]
    ring
  · rw [decodeStep_elapsed, hhome, hf, hdt, helapsed]
    simp

theorem ForwardSince.run {l : List (Time × Value)} (h : ForwardSince par p t0 a)
    (hl : ∀ x ∈ l, (decodeStatus par.statusIndex x.2).m1Fwd = true ∧
      (decodeStatus par.statusIndex x.2).m1Back = false) : ForwardSince par p t0 (decodeRun par c l a).1 := by
  induction l generalizing a with
  | nil => exact h
  | cons e l ih =>
    obtain ⟨he, hl⟩ := List.forall_mem_cons.1 hl
    exact ih (h.step c e.1 he.1 he.2) hl

end

/-- Settles O37: after the run the motor has gone forward since the first sample, until the last. -/
theorem positionIsTwenty : Obligations.PositionIsTwenty := by
  intro par c a p t0 w0 l e hp hspeed h0 h1 h2 hb hf hk hl ht
  have h := (forwardSince_home (t0 := t0) c hp h0 h1 h2 hb hf hk).run c hl
  obtain ⟨t, htPrev, hpos, helapsed⟩ := h.since
  have hte : e.1 = t := by
    rw [decodeRun_concat, decodeStep_tPrev] at htPrev
    exact Option.some.inj htPrev
  rw [← hte, ht] at hpos helapsed
  refine ⟨hpos.trans ?_, helapsed⟩
  rw [hspeed]; norm_num

end Sys2Proof.Machine
end

section
/-! DECODE as a command (R290, R308, R311): at every schedule its change of A, undisturbed all that it puts out; and
what each emission does at the ports (R55, R301, R305, R307, R345, R360, R403). -/

namespace Sys2Proof.Machine

theorem exec_decode {s : State} (h : s.timeOk = true) (word : Value) : exec (.decode word) s =
    .next (runWork ((s.decodeNow word).2.map Work.emission ++ [.done .unit]) (s.decodeNow word).1) :=
  if_pos h

/-- What a decode step or PURGE puts out, and then its result, moves the link alone. -/
theorem emissions_done_linkOnly (l : List Emission) (r : Result) :
    ∀ w ∈ l.map Work.emission ++ [.done r], w.linkOnly = true := by
  simp only [List.mem_append, List.mem_map, List.mem_singleton]
  rintro w (⟨e, -, rfl⟩ | rfl)
  · rfl
  · rfl

/-- Settles O30: A changes before the work begins, and the work is the link's (`runWork_frame`). -/
theorem decodeChangesAutomaton : Obligations.DecodeChangesAutomaton := fun _ word ht =>
  ⟨_, exec_decode ht word, runWork_frame _ (emissions_done_linkOnly _ _) _⟩

/-- Settles O31: undisturbed the emissions are performed one after another, and the result follows
(`runWork_emissions_ready`). -/
theorem decodeCompletes : Obligations.DecodeCompletes := by
  intro s word ht hs
  have hs' : (s.decodeNow word).1.ready := hs
  obtain ⟨t, hframe, hready, hperforms, hrun⟩ := runWork_emissions_ready (s.decodeNow word).2 .unit hs'
  obtain ⟨es, conn, run, hout, hes⟩ := hperforms.performed
  have hact : actionsIn es = actionsOf (s.decodeNow word).2 := by rw [actionsIn_eq, hes, actionsOf_performs]
  refine ⟨t.deliver .unit, es, conn, run, (exec_decode ht word).trans (congrArg _ hrun), hframe.a, ?_, hes, hact,
    hframe.con, hready, rfl⟩
  exact congrArg (· ++ [Event.result .unit]) hout

/-! ### Each emission -/

theorem actionWrites_ne_nil (act : Action) (s : State) : (actionWrites act s).1 ≠ [] := by
  cases act <;> simp [actionWrites, WriteList.toList]

/-- APPLY_FWD_SETTINGS alone reads an input for its writes. -/
theorem actionWrites_state {act : Action} (h : act ≠ .applyFwd) (s : State) : (actionWrites act s).2 = s := by
  cases act with
  | applyFwd => exact absurd rfl h
  | _ => rfl

theorem readAux_absent {s : State} (h : s.param.auxPresent = false) :
    s.readAuxConnected = (false, s) ∧ s.readAuxRunning = (false, s) := by
  simp [State.readAuxConnected, State.readAuxRunning, h]

/-- Settles O36: reading the auxiliary peer puts nothing out itself; the rest is each emission's own definition. -/
theorem emissionsPerform : Obligations.EmissionsPerform := by
  intro s
  refine ⟨?_, ?_, rfl, rfl, readAux_absent, ⟨rfl, rfl, rfl, rfl, rfl, rfl⟩, fun _ => rfl, rfl, fun act =>
    ⟨actionWrites_ne_nil act s, fun h => actionWrites_state h s, rfl⟩⟩
  · simp [runEmission]
  · simp [runEmission]

end Sys2Proof.Machine
end

section
/-! Which instruction writes what, at every schedule (R291, R32, R33, R38, R43, R52, R361). -/

namespace Sys2Proof.Machine

/-! ### Frames -/

theorem deliver_workFrame (r : Result) (s : State) : WorkFrame s (s.deliver r) := by
  constructor <;> simp

theorem log_deliver_workFrame (k : LogKind) (sev : Severity) (r : Result) (s : State) :
    WorkFrame s ((s.log k sev).deliver r) := by
  constructor <;> simp

theorem setRx_workFrame (l : List Byte) (s : State) : WorkFrame s (s.setRx l) := by
  constructor <;> simp

/-- PSTOP's work: it waits, or its result comes, at once or at a later turn. -/
theorem join_workFrame (wake : Time) (r : Result) (s : State) : WorkFrame s (runWork [.join wake, .done r] s) := by
  cases hl : s.p.alive with
  | true => rw [runWork_join_waits hl]; exact leave_frame _ s
  | false =>
    have hi : runItem (.join wake) s = (s, []) := if_neg (Bool.eq_false_iff.1 hl)
    unfold runWork
    rw [hi]
    dsimp only
    split
    next s' h => exact (proceed_frame h).toWork.trans (runWork_frame _ (by simp [Work.linkOnly]) s')
    next => exact leave_frame _ s

/-- A single piece: what it does, with nothing left over or with what it leaves. -/
theorem runWork_singleton (w : Work) (s : State) :
    runWork [w] s = (runItem w s).1 ∨ ∃ ws, runWork [w] s = (runItem w s).1.leave ws := by
  unfold runWork
  split
  next s1 l ls e => exact .inr ⟨_, by rw [e]⟩
  next s1 e => exact .inl (by rw [e])

/-- CONNECT writes neither A nor the queues. -/
theorem connect_keeps (cfg : PortCfg) (s : State) :
    (runWork [.connect cfg] s).a = s.a ∧ (runWork [.connect cfg] s).q = s.q := by
  have h : (runItem (.connect cfg) s).1.a = s.a ∧ (runItem (.connect cfg) s).1.q = s.q := by
    unfold runItem
    dsimp only
    split
    · exact ⟨(connectNow_data cfg s).a, (connectNow_data cfg s).q⟩
    · exact ⟨rfl, rfl⟩
  obtain e | ⟨ws, e⟩ := runWork_singleton (.connect cfg) s
  · rw [e]; exact h
  · rw [e]; exact h

/-- The connection and its configuration are as they were. -/
def SamePort (s s' : State) : Prop := s'.t.connected = s.t.connected ∧ s'.t.portCfg = s.t.portCfg

theorem SamePort.trans {s s' s'' : State} (h : SamePort s s') (k : SamePort s' s'') : SamePort s s'' :=
  ⟨k.1.trans h.1, k.2.trans h.2⟩

theorem LinkFrame.port {s s' : State} (h : LinkFrame s s') : SamePort s s' := ⟨h.connected, h.portCfg⟩

theorem afterPiece_port {s : State} {r : State × List Work} {rest : List Work} {next : State → State × List Work}
    (h : SamePort s r.1) (hn : ∀ s', SamePort s' (next s').1) : SamePort s (afterPiece r rest next).1 := by
  unfold afterPiece
  split
  · split
    next s' e => exact (h.trans (proceed_frame e).port).trans (hn s')
    next => exact h
  · exact h

theorem applySample_port (e : Sample) (s : State) : SamePort s (applySample e s).1 := by
  unfold SamePort applySample State.decodeNow
  dsimp only
  split <;> split <;> split <;> simp

theorem runSamples_port (l : List Sample) (s : State) : SamePort s (runSamples l s).1 := by
  induction l generalizing s with
  | nil => exact ⟨rfl, rfl⟩
  | cons e rest ih =>
    exact afterPiece_port (afterPiece_port (applySample_port e s) fun s' => (runEmissions_frame _ s').port) ih

theorem runDrain_port (js : List Nat) (s : State) : SamePort s (runDrain js s).1 := by
  induction js generalizing s with
  | nil => exact ⟨rfl, rfl⟩
  | cons j js ih => exact afterPiece_port (afterPiece_port ⟨rfl, rfl⟩ (runSamples_port (s.queue j))) ih

theorem drain_port (js : List Nat) (s : State) : SamePort s (runWork [.drain js] s) := by
  obtain e | ⟨ws, e⟩ := runWork_singleton (.drain js) s
  · rw [e]; exact runDrain_port js s
  · rw [e]; exact runDrain_port js s

/-! ### Every instruction -/

/-- What each instruction writes beyond the link, at every schedule: what it leaves alone is the frame's, around the
state with its own change. -/
inductive Written (s t : State) : Instr → Prop
  /-- RDREG, WRREG, VERIFY, the frames, the commands that answer alone, and those that are refused. -/
  | link {i : Instr} (h : WorkFrame s t) : Written s t i
  | decode {word : Value} (a : Automaton) (h : WorkFrame { s with a := a } t) : Written s t (.decode word)
  /-- PERIOD, ARM, CANCEL, PURGE, PPEND. -/
  | automaton {i : Instr} (a : Automaton) (h : WorkFrame { s with a := a } t)
      (hi : (∃ m v, i = .period m v) ∨ (∃ b, i = .arm b) ∨ i = .cancel ∨ i = .purge ∨ ∃ b, i = .ppend b)
      (hf : a.flags = s.a.flags) (hp : a.tPrev = s.a.tPrev) : Written s t i
  | setcfg {f : CfgField} {v : Rat} (c : Cfg) (h : WorkFrame { s with c := c } t) : Written s t (.setcfg f v)
  | connect {cfg : PortCfg} (h : RunFrame s t) (ha : t.a = s.a) (hq : t.q = s.q) : Written s t (.connect cfg)
  | disconnect (h : RunFrame s t) : Written s t .disconnect
  | drain (con : Consumer) (h : RunFrame { s with con := con } t) (hp : SamePort s t) : Written s t .drain
  | pconfig {l : List Addr} (p : Poller) (q : List (List Sample)) (h : WorkFrame { s with p := p, q := q } t) :
      Written s t (.pconfig l)
  /-- PSTART, PSTOP. -/
  | poller {i : Instr} (p : Poller) (h : WorkFrame { s with p := p } t) (hi : i = .pstart ∨ i = .pstop)
      (hc : p.config = s.p.config) : Written s t i

theorem setPeriod_flags (m : Motor) (v : Value) (a : Automaton) : (setPeriod m v a).flags = a.flags := by
  cases m <;> rfl

theorem execConnect_written {cfg : PortCfg} {s t : State} (h : execConnect cfg s = .next t) :
    Written s t (.connect cfg) := by
  obtain ⟨-, rfl⟩ := command_next h
  split
  · exact .connect (runWork_run _ s) (connect_keeps cfg s).1 (connect_keeps cfg s).2
  · exact .link (deliver_workFrame _ s)

theorem execPconfig_written {l : List Addr} {s t : State} (h : execPconfig l s = .next t) :
    Written s t (.pconfig l) := by
  obtain ⟨-, rfl⟩ := command_next h
  split
  · exact .link (deliver_workFrame _ s)
  · split
    · exact .pconfig _ s.q (deliver_workFrame _ _)
    · exact .pconfig _ _ (deliver_workFrame _ _)

theorem execPstart_written {s t : State} (h : execPstart s = .next t) : Written s t .pstart := by
  obtain ⟨-, rfl⟩ := command_next h
  split
  · exact .link (deliver_workFrame _ s)
  · split
    · exact .link (deliver_workFrame _ s)
    · exact .poller _ (deliver_workFrame _ _) (.inl rfl) rfl

theorem execSetcfg_written {f : CfgField} {v : Rat} {s t : State} (h : execSetcfg f v s = .next t) :
    Written s t (.setcfg f v) := by
  obtain ⟨-, rfl⟩ := command_next h
  split
  · exact .setcfg _ (log_deliver_workFrame _ _ _ _)
  · exact .link (deliver_workFrame _ s)

theorem exec_written {i : Instr} {s t : State} (h : exec i s = .next t) : Written s t i := by
  cases i with
  | crc7 bytes => obtain ⟨-, rfl⟩ := command_next h; exact .link (deliver_workFrame _ s)
  | build address w data => obtain ⟨-, rfl⟩ := command_next h; exact .link (deliver_workFrame _ s)
  | parse resp addr dev => obtain ⟨-, rfl⟩ := command_next h; exact .link (deliver_workFrame _ s)
  | sdecode word => obtain ⟨-, rfl⟩ := command_next h; exact .link (deliver_workFrame _ s)
  | connect cfg => exact execConnect_written h
  | disconnect => obtain ⟨-, rfl⟩ := command_next h; exact .disconnect (runWork_run _ s)
  | isconn => obtain ⟨-, rfl⟩ := command_next h; exact .link (deliver_workFrame _ s)
  | rdreg addr => exact .link (transactionsFrame s t _ (.inl ⟨_, rfl⟩) h)
  | wrreg addr value => exact .link (transactionsFrame s t _ (.inr (.inl ⟨_, _, rfl⟩)) h)
  | pconfig addrs => exact execPconfig_written h
  | pstart => exact execPstart_written h
  | pstop =>
    obtain ⟨-, rfl⟩ := command_next (show execPstop s = .next t from h)
    exact .poller _ (join_workFrame _ _ _) (.inr rfl) rfl
  | decode word =>
    obtain ⟨-, rfl⟩ := command_next (show execDecode word s = .next t from h)
    exact .decode _ (runWork_frame _ (emissions_done_linkOnly _ _) _)
  | period motor value =>
    obtain ⟨-, rfl⟩ := command_next (show execPeriod motor value s = .next t from h)
    exact .automaton _ (log_deliver_workFrame _ _ _ _) (.inl ⟨_, _, rfl⟩) (setPeriod_flags ..) (setPeriod_tPrev ..)
  | arm aux =>
    obtain ⟨-, rfl⟩ := command_next (show execArm aux s = .next t from h)
    exact .automaton _ (log_deliver_workFrame _ _ _ _) (.inr (.inl ⟨_, rfl⟩)) rfl rfl
  | cancel =>
    obtain ⟨-, rfl⟩ := command_next (show execCancel s = .next t from h)
    exact .automaton _ (log_deliver_workFrame _ _ _ _) (by simp) rfl rfl
  | purge =>
    obtain ⟨-, rfl⟩ := command_next (show execPurge s = .next t from h)
    exact .automaton _ (runWork_frame _ (emissions_done_linkOnly _ _) _) (by simp) (purgeInit_flags ..)
      (purgeInit_tPrev ..)
  | ppend b =>
    obtain ⟨-, rfl⟩ := command_next (show execPpend b s = .next t from h)
    exact .automaton _ (log_deliver_workFrame _ _ _ _) (by simp) rfl rfl
  | setcfg field value => exact execSetcfg_written h
  | verify => exact .link (transactionsFrame s t _ (by simp) h)
  | drain =>
    obtain ⟨-, rfl⟩ := command_next (show execDrain s = .next t from h)
    exact .drain _ (runWork_run _ _) (drain_port _ { s with con := { s.con with drained := [] } })
  | readReq dev addr crc => exact .link (transactionsFrame s t _ (by simp) h)
  | writeReq dev addr data crc => exact .link (transactionsFrame s t _ (by simp) h)
  | response w dev addr data crc x y z v => cases h; exact .link (setRx_workFrame _ s)

/-- Settles O58: what the frame around each instruction's own change leaves alone (`exec_written`). -/
theorem onlyTheseCommandsWrite : Obligations.OnlyTheseCommandsWrite := by
  intro i s t h
  replace h := exec_written h
  cases h with
  | link h => simp [h.param, h.connected, h.deviceId, h.portCfg, h.p, h.q, h.a, h.c, h.inbox, h.linkIn]
  | decode a h => simp [h.param, h.connected, h.deviceId, h.portCfg, h.p, h.q, h.c, h.inbox, h.linkIn]
  | automaton a h hi hf hp =>
    simp [h.param, h.connected, h.deviceId, h.portCfg, h.p, h.q, h.c, h.inbox, h.linkIn, h.a, hf,
      hp, hi, -Bool.exists_bool]
  | setcfg c h => simp [h.param, h.connected, h.deviceId, h.portCfg, h.p, h.q, h.a, h.inbox, h.linkIn]
  | connect h ha hq => simp [h.param, h.deviceId, h.p, hq, ha, h.c, h.inbox, h.linkIn]
  | disconnect h => simp [h.param, h.deviceId, h.p, h.c, h.inbox, h.linkIn]
  | drain con h hp => simp [h.param, hp.1, h.deviceId, hp.2, h.p, h.c, h.inbox, h.linkIn]
  | pconfig p q h => simp [h.param, h.connected, h.deviceId, h.portCfg, h.a, h.c, h.inbox, h.linkIn]
  | poller p h hi hc =>
    simp [h.param, h.connected, h.deviceId, h.portCfg, h.q, h.a, h.c, h.inbox, h.linkIn, h.p, hc, hi]

end Sys2Proof.Machine
end

section
/-! The automaton's host commands (46_automaton_ops.md): ARM, CANCEL, PERIOD, PPEND and SETCFG are one report and a result
(R340, R341, R343, R346, R347); PURGE and VERIFY, undisturbed, their work done (R345, R348). -/

namespace Sys2Proof.Machine

/-! ### One report and a result -/

/-- A report and then the result. -/
theorem State.log_deliver (s : State) (k : LogKind) (sev : Severity) (r : Result) :
    (s.log k sev).deliver r = { s with out := s.out ++ [.log k sev, .result r], result := some r } := by
  simp [State.deliver, State.emit]

/-- A command that changes the state, reports it and answers. -/
theorem command_log_deliver {s : State} (ht : s.timeOk = true) (change : State → State) (k : LogKind) (sev : Severity)
    (r : Result) :
    command s (fun s => ((change s).log k sev).deliver r) =
      .next { change s with out := (change s).out ++ [.log k sev, .result r], result := some r } := by
  rw [command_of_timeOk ht, State.log_deliver]

/-- Settles O40: the arm flag, for ARM the time and the aux flag, and one report (`command_log_deliver`). -/
theorem armAndCancelComplete : Obligations.ArmAndCancelComplete := fun _ ht =>
  ⟨fun aux => command_log_deliver ht
      (fun s => { s with a := { s.a with armed := true, armTime := s.clock, armAux := aux } }) .arm .info .unit,
    command_log_deliver ht (fun s => { s with a := { s.a with armed := false } }) .cancel .info .unit⟩

/-- Settles O41: the period or the pending mark, and one report (`command_log_deliver`). -/
theorem periodAndPendingComplete : Obligations.PeriodAndPendingComplete := by
  intro s ht
  have period (m : Motor) (v : Value) := command_log_deliver ht (fun s => { s with a := setPeriod m v s.a })
    (.period m) (Config.periodSeverity m v) .unit
  exact ⟨period .m1, period .m2, fun b => command_log_deliver ht
    (fun s => { s with a := { s.a with purgePending := b } }) .purgePending (Config.pendingSeverity b) .unit⟩

/-! ### SETCFG -/

theorem execSetcfg_stored {s : State} (ht : s.timeOk = true) {f : CfgField} {v : Rat} (hv : cfgAccepts f v = true) :
    execSetcfg f v s =
      .next { s with c := cfgSet f v s.c, out := s.out ++ [.log (.setConfig f) .info, .result (.bool true)]
                     result := some (.bool true) } := by
  rw [execSetcfg, command_of_timeOk ht, if_pos hv, State.log_deliver]

theorem execSetcfg_refused {s : State} (ht : s.timeOk = true) {f : CfgField} {v : Rat} (hv : cfgAccepts f v = false) :
    execSetcfg f v s = .next (s.deliver (.refused .illegalOperand)) := by
  rw [execSetcfg, command_of_timeOk ht, if_neg (Bool.eq_false_iff.1 hv)]

/-- R52: the number of pulses is a natural number. -/
theorem cfgAccepts_purgePulses_iff (v : Rat) : cfgAccepts .purgePulses v = true ↔ ∃ n : Nat, v = n := by
  simp only [cfgAccepts, Bool.and_eq_true, decide_eq_true_eq]
  constructor
  · rintro ⟨h0, hd⟩
    lift v to ℤ using hd
    lift v to ℕ using by exact_mod_cast h0
    exact ⟨v, rfl⟩
  · rintro ⟨n, rfl⟩
    exact ⟨Nat.cast_nonneg n, Rat.den_natCast n⟩

/-- Settles O42: a value is stored or refused as `cfgAccepts` says of its field. -/
theorem setcfgCompletes : Obligations.SetcfgCompletes := by
  intro s v ht stored refused
  have refuse {f : CfgField} (hv : cfgAccepts f v = false) : refused f := execSetcfg_refused ht hv
  refine ⟨fun h => execSetcfg_stored ht (decide_eq_true h), fun h => refuse (decide_eq_false h.not_ge),
    fun h => execSetcfg_stored ht (decide_eq_true h), fun h => refuse (decide_eq_false h.not_ge), ?_, ?_, ?_, ?_⟩
  · rintro n rfl
    exact execSetcfg_stored ht ((cfgAccepts_purgePulses_iff _).2 ⟨n, rfl⟩)
  · exact fun h => refuse (Bool.eq_false_iff.2 fun hv => ((cfgAccepts_purgePulses_iff v).1 hv).elim h)
  · rintro b rfl
    cases b with
    | false => exact ⟨execSetcfg_stored ht rfl, execSetcfg_stored ht rfl⟩
    | true => exact ⟨execSetcfg_stored ht rfl, execSetcfg_stored ht rfl⟩
  · intro h0 h1
    exact ⟨refuse (by simp [cfgAccepts, h0, h1]), refuse (by simp [cfgAccepts, h0, h1])⟩

/-! ### PURGE -/

theorem purgeInit_running {now : Time} {a : Automaton} (h : a.purgeActive = true) : purgeInit now a = (a, []) :=
  if_pos h

/-- What PURGE puts out, and its result: the hook's call, where the sensor is attached, and the report. -/
theorem runWork_purgeStart {s : State} (hs : s.ready) :
    runWork [.emission .flowOpen, .emission .logPurgeStart, .done .unit] s =
      { s with out := s.out ++ (if s.param.flowPresent then [.flowOpen] else []) ++ [.log .purgeStart .info, .result .unit]
               result := some .unit } := by
  have hopened : (runItem (.emission .flowOpen) s).1.ready := hs
  rw [runWork_cons_ready (w := .emission .flowOpen) trivial _ hs,
    runWork_cons_ready (w := .emission .logPurgeStart) trivial _ hopened]
  exact State.log_deliver _ .purgeStart .info .unit

/-- Settles O43: nothing to put out while a sequence runs (`purgeInit_running`); else what `runWork_purgeStart` says. -/
theorem purgeCompletes : Obligations.PurgeCompletes := by
  intro s ht hs
  have run := show execPurge s = _ from command_of_timeOk ht _
  refine ⟨fun h => run.trans ?_, fun h => run.trans ?_⟩
  · rw [purgeInit_running h]
    rfl
  · rw [purgeInit_idle h]
    exact congrArg Host.Outcome.next (runWork_purgeStart hs)

/-! ### VERIFY -/

/-- R348: VERIFY's report and result, as `transactionEnd` lists them. -/
theorem verifyResult_eq (v : Option Value) (s : State) :
    verifyResult v s = { s with out := s.out ++ (transactionEnd .verify v s).1
                                result := (transactionEnd .verify v s).2.1 } := by
  cases v with
  | none => exact State.log_deliver s .verifyFailed .warning _
  | some x =>
    by_cases hc : x.extractLsb' 8 8 = s.param.idCode
    · rw [verifyResult, if_pos hc, State.log_deliver]
      simp [transactionEnd, lowerByte_eq, (upperByte_eq x _).1 hc]
    · rw [verifyResult, if_neg hc, State.log_deliver]
      simp [transactionEnd, mt (upperByte_eq x _).2 hc]

/-- Settles O13: VERIFY is one transaction, and its value is tested by `verifyResult`. -/
theorem verifyCompletes : Obligations.VerifyCompletes := by
  intro s ht hs version
  refine (command_xact_ready ht hs (x := readXact s.t.deviceId s.param.regs.verify) rfl .verify).trans ?_
  exact congrArg Host.Outcome.next (verifyResult_eq _ _)

end Sys2Proof.Machine
end

section
/-! The order in which DRAIN visits the queues (R350, R352). -/

namespace Sys2Proof.Machine

/-- The order visits the queues of a configuration, each once where each has a queue of its own. -/
theorem drainOrder_perm (par : Params) {l : List (Addr × Nat)} (h : (l.map Prod.snd).Nodup) :
    (drainOrder par (some l)).Perm (l.map Prod.snd) := by
  refine (List.perm_ext_iff_of_nodup ?_ h).2 fun j => ?_
  · refine ((List.nodup_dedup _).filter _).append (h.filter _) fun j hfirst hrest => ?_
    simp only [List.mem_filter, Bool.not_eq_true', List.contains_eq_mem, decide_eq_false_iff_not] at hfirst hrest
    exact hrest.2 hfirst
  · by_cases hj : j ∈ par.drainOrder <;> simp [drainOrder, hj]

theorem drainOrder_default {par : Params} (h : par.drainOrder = []) (l : List (Addr × Nat)) :
    drainOrder par (some l) = l.map Prod.snd := by
  simp [drainOrder, h]

/-- Settles O45: the entries' queue numbers are all different, so the order is a permutation of them (`drainOrder_perm`). -/
theorem drainOrderVisitsEachQueueOnce : Obligations.DrainOrderVisitsEachQueueOnce := by
  intro par l hl
  rw [← hl]
  exact ⟨drainOrder_perm par (hl ▸ List.nodup_range), fun h => drainOrder_default h l⟩

end Sys2Proof.Machine
end

section
/-! An action's writes, undisturbed (R360, R308): each is attempted, in order, and the action's one report is the last. -/

namespace Sys2Proof.Machine

/-! ### Connected -/

/-- The events `es` are those of the writes `l`, each attempted in its turn; `ok` says that all succeeded. -/
structure Attempted (dev : DevId) (l : List Write) (es : List Event) (ok : Bool) : Prop where
  requests : requestsIn es = l.map fun w => (build dev w.1 true w.2).bytes
  flushes  : es.count (.flush .consumer) = l.length
  actions  : actionsIn es = []
  writes   : (writesOkIn es).Sublist l
  ok_iff   : ok = true ↔ writesOkIn es = l

theorem Attempted.nil (dev : DevId) : Attempted dev [] [] true :=
  ⟨rfl, rfl, rfl, .slnil, by simp [writesOkIn]⟩

theorem Attempted.append {dev : DevId} {l l' : List Write} {es es' : List Event} {ok ok' : Bool}
    (h : Attempted dev l es ok) (k : Attempted dev l' es' ok') : Attempted dev (l ++ l') (es ++ es') (ok && ok') := by
  have happ : writesOkIn (es ++ es') = writesOkIn es ++ writesOkIn es' := List.filterMap_append ..
  have hreq : requestsIn (es ++ es') = requestsIn es ++ requestsIn es' := List.filterMap_append ..
  have hact : actionsIn (es ++ es') = actionsIn es ++ actionsIn es' := List.filterMap_append ..
  refine ⟨by rw [hreq, h.requests, k.requests, List.map_append], ?_, by rw [hact, h.actions, k.actions]; rfl,
    happ ▸ h.writes.append k.writes, ?_⟩
  · rw [List.count_append, h.flushes, k.flushes, List.length_append]
  · rw [Bool.and_eq_true, h.ok_iff, k.ok_iff, happ]
    refine ⟨fun ⟨e, e'⟩ => by rw [e, e'], fun e => List.append_inj e ?_⟩
    -- neither part has more reports of success than writes, so together they have as many only if each has
    have hlen := congrArg List.length e
    have hle := h.writes.length_le
    have hle' := k.writes.length_le
    simp only [List.length_append] at hlen
    omega

/-- One undisturbed write while connected. -/
theorem linkEvents_attempted {s : State} (hc : s.t.connected = true) (w : Write) :
    Attempted s.t.deviceId [w] (linkEvents .consumer (writeXact s.t.deviceId w.1 w.2) s) (linkValue w.1 s).isSome := by
  cases ht : s.drawTxOk.1 with
  | false =>
    constructor <;>
      simp [linkEvents, linkValue, replyOf, hc, ht, writeXact, requestsIn, actionsIn, writesOkIn]
  | true =>
    cases hr : s.drawTxOk.2.drawRx.1 with
    | fails =>
      constructor <;>
        simp [linkEvents, linkValue, replyOf, hc, ht, hr, writeXact, writeLog, requestsIn, actionsIn, writesOkIn]
    | bytes more =>
      cases hp : parse (more.take 5) w.1 s.t.deviceId <;> constructor <;>
        simp [linkEvents, linkValue, replyOf, hc, ht, hr, hp, writeXact, writeLog, Req.addr, requestsIn, actionsIn,
          writesOkIn]

/-- The first write of an undisturbed action, and then the others. -/
theorem runWrites_cons_ready {s : State} (hs : s.ready) (act : Action) (w : Write) (l : List Write) (ok : Bool) :
    runWrites act (w :: l) ok s =
      runWrites act l (ok && (linkValue w.1 s).isSome) (linkDone (writeXact s.t.deviceId w.1 w.2) s) := by
  simp only [runWrites, proceed_ready hs, runXact_ready (x := writeXact s.t.deviceId w.1 w.2) rfl hs]
  rfl

/-- Connected, an action puts out what its writes do, and then its report. -/
theorem runWrites_attempted (act : Action) (l : List Write) (ok : Bool) {s : State} (hs : s.ready)
    (hc : s.t.connected = true) :
    ∃ es allOk, Attempted s.t.deviceId l es allOk ∧ (runWrites act l ok s).1.out =
      s.out ++ es ++ [.log (.command act) (if ok && allOk then .success else .error)] := by
  induction l generalizing ok s with
  | nil => exact ⟨[], true, .nil _, by simp [runWrites]⟩
  | cons w l ih =>
    obtain ⟨es, allOk, h, hout⟩ := ih (ok && (linkValue w.1 s).isSome)
      (ready_after_xact hs (writeXact s.t.deviceId w.1 w.2)) hc
    refine ⟨_, _, (linkEvents_attempted hc w).append h, ?_⟩
    rw [runWrites_cons_ready hs, hout, Bool.and_assoc]
    simp [linkDone]

/-! ### Not connected -/

/-- Not connected, an undisturbed action reports NotOpen for each write, and then itself: a success only where there was
nothing to write. -/
theorem runWrites_notOpen (act : Action) (l : List Write) (ok : Bool) {s : State} (hs : s.ready)
    (hc : s.t.connected = false) :
    runWrites act l ok s =
      ({ s with out := s.out ++ List.replicate l.length (.log (.error .notOpen) .error) ++
          [.log (.command act) (if ok && l.isEmpty then .success else .error)] }, []) := by
  induction l generalizing ok s with
  | nil => simp [runWrites, State.emit]
  | cons w l ih =>
    have hs' : (s.raise .notOpen).ready := hs
    rw [runWrites_cons_ready hs, linkDone_notOpen hc, linkValue_notOpen hc, ih _ hs' hc]
    simp [State.emit, List.replicate_succ]

/-- Settles O46: connected, the reports of success are the writes themselves exactly when all succeeded
(`runWrites_attempted`); not connected, none is sent (`runWrites_notOpen`). -/
theorem actionAttemptsEveryWrite : Obligations.ActionAttemptsEveryWrite := by
  intro s act l hs
  refine ⟨fun hc => ?_, fun hc => ?_⟩
  · obtain ⟨es, allOk, h, hout⟩ := runWrites_attempted act l true hs hc
    refine ⟨es, _, hout, (runWrites_ready act l true hs).1.1, h.requests, h.flushes, h.actions, ?_, ?_⟩
    · rw [← h.ok_iff]
      cases allOk <;> simp
    · cases allOk <;> simp
  · rw [runWrites_notOpen act l true hs hc]
    simp

end Sys2Proof.Machine
end

section
/-! DRAIN, undisturbed (R350, R351, R352, R96, R343): queue after queue in the drain order, each sample applied and all
that its decode step puts out performed before the next. -/

namespace Sys2Proof.Machine

/-! ### Runs of samples -/

theorem drainRun_append (par : Params) (c : Cfg) (l l' : List (Time × Sample)) (a : Automaton) :
    drainRun par c (l ++ l') a =
      ((drainRun par c l' (drainRun par c l a).1).1,
        (drainRun par c l a).2 ++ (drainRun par c l' (drainRun par c l a).1).2) := by
  induction l generalizing a with
  | nil => rfl
  | cons e l ih => simp [drainRun, ih]

theorem drainRun_singleton (par : Params) (c : Cfg) (t : Time) (e : Sample) (a : Automaton) :
    drainRun par c [(t, e)] a = drainOne par c t e a := by
  simp [drainRun]

/-- Part of a drain: from `s` to `s'` the queues `js` are emptied, and the samples `l` are applied, each at its time. -/
structure Drained (s : State) (js : List Nat) (l : List (Time × Sample)) (s' : State) : Prop where
  c        : s'.c = s.c
  times    : (s.clock :: l.map Prod.fst).Pairwise (· ≤ ·)
  clock    : ∀ u ∈ s.clock :: l.map Prod.fst, u ≤ s'.clock
  a        : s'.a = (drainRun s.param s.c l s.a).1
  performs : PerformsFrom s (drainRun s.param s.c l s.a).2 s'
  drained  : s'.con.drained = s.con.drained ++ l.map Prod.snd
  queue    : ∀ j, s'.queue j = if j ∈ js then [] else s.queue j
  queues   : s'.q.length = s.q.length

/-- Nothing is drained between a state and itself. -/
theorem Drained.refl (s : State) : Drained s [] [] s := by
  refine ⟨rfl, List.pairwise_singleton _ _, by simp, rfl, ?_, by simp, by simp, rfl⟩
  exact .unasked [] (by simp) rfl rfl rfl fun _ _ _ => rfl

theorem Drained.trans {s s' s'' : State} {js js' : List Nat} {l l' : List (Time × Sample)} (h : Drained s js l s')
    (k : Drained s' js' l' s'') : Drained s (js ++ js') (l ++ l') s'' := by
  have hrun : drainRun s.param s.c (l ++ l') s.a =
      ((drainRun s'.param s'.c l' s'.a).1, (drainRun s.param s.c l s.a).2 ++ (drainRun s'.param s'.c l' s'.a).2) := by
    rw [drainRun_append, h.performs.param, h.c, h.a]
  obtain ⟨hfirst, hl'⟩ := List.pairwise_cons.1 k.times
  have hlater := k.clock s'.clock List.mem_cons_self
  refine ⟨k.c.trans h.c, ?_, ?_, by rw [hrun, k.a], by rw [hrun]; exact h.performs.trans k.performs, ?_, fun j => ?_,
    k.queues.trans h.queues⟩
  · rw [List.map_append, ← List.cons_append, List.pairwise_append]
    exact ⟨h.times, hl', fun u hu v hv => (h.clock u hu).trans (hfirst v hv)⟩
  · rw [List.map_append, ← List.cons_append, List.forall_mem_append]
    exact ⟨fun u hu => (h.clock u hu).trans hlater, fun u hu => k.clock u (List.mem_cons_of_mem _ hu)⟩
  · rw [k.drained, h.drained, List.map_append, List.append_assoc]
  · rw [k.queue, h.queue]
    by_cases hj : j ∈ js <;> simp [hj]

/-! ### One queue -/

theorem readNow_aux (s : State) :
    s.readNow.env.auxConn = s.env.auxConn ∧ s.readNow.env.auxRun = s.env.auxRun := by
  unfold State.readNow State.drawTick
  split <;> exact ⟨rfl, rfl⟩

theorem clearQueue_queue_eq (i j : Nat) (s : State) :
    (s.clearQueue i).queue j = if j = i then [] else s.queue j := by
  by_cases h : j = i
  · subst h
    cases hj : s.q[j]? <;> simp [State.queue, hj]
  · simp [State.queue, h, Ne.symm h]

/-- A queue emptied. -/
theorem clearQueue_drained (j : Nat) (s : State) : Drained s [j] [] (s.clearQueue j) := by
  refine ⟨rfl, List.pairwise_singleton _ _, by simp, rfl, ?_, by simp, fun i => ?_, by simp⟩
  · exact .unasked [] (by simp) rfl rfl rfl fun _ _ _ => rfl
  · rw [clearQueue_queue_eq]
    simp

/-- One sample applied (R350's tests): A is `drainOne`'s at the time input then read, and nothing is put out yet. -/
theorem applySample_effect (e : Sample) (s : State) :
    (applySample e s).1.a = (drainOne s.param s.c (applySample e s).1.clock e s.a).1 ∧
    (applySample e s).2 = (drainOne s.param s.c (applySample e s).1.clock e s.a).2 ∧
    (applySample e s).1.con.drained = s.con.drained ++ [e] ∧
    PerformsFrom s [] (applySample e s).1 := by
  rw [applySample_drainOne]
  refine ⟨rfl, rfl, rfl, .unasked [] ?_ ?_ ?_ ?_ fun _ _ _ => rfl⟩ <;> dsimp only <;> split
  all_goals simp [readNow_aux]

/-- One sample applied, and what its decode step puts out performed. -/
theorem sample_drained (e : Sample) {s : State} (hs : s.ready) :
    ∃ t, Drained s [] [(t, e)] (runEmissions (applySample e s).2 (applySample e s).1).1 := by
  obtain ⟨ha, hputs, hdrained, hquiet⟩ := applySample_effect e s
  have hbase := applySample_base e s
  have hframe := runEmissions_frame (applySample e s).2 (applySample e s).1
  have hperforms := (runEmissions_ready (applySample e s).2 (applySample_ready e hs)).2
  have hq := hframe.q.trans (applySample_q e s)
  refine ⟨(applySample e s).1.clock, hframe.c.trans hbase.c, ?_, ?_, ?_, ?_, ?_, fun j => ?_, by rw [hq]⟩
  · simpa using hbase.clock
  · simpa [hframe.clock] using hbase.clock
  · rw [hframe.a, ha, drainRun_singleton]
  · rw [drainRun_singleton, ← hputs]
    exact hquiet.trans hperforms
  · rw [hframe.con]
    exact hdrained
  · simp [State.queue, hq]

/-- The samples of a queue, oldest first. -/
theorem runSamples_drained (xs : List Sample) {s : State} (hs : s.ready) :
    ∃ l, l.map Prod.snd = xs ∧ Drained s [] l (runSamples xs s).1 := by
  induction xs generalizing s with
  | nil => exact ⟨[], rfl, .refl s⟩
  | cons e xs ih =>
    have hdone := (runEmissions_ready (applySample e s).2 (applySample_ready e hs)).1
    obtain ⟨t, h⟩ := sample_drained e hs
    obtain ⟨l, hl, k⟩ := ih hdone.2
    rw [runSamples, afterPiece_ready (r := (_, [])) ⟨rfl, applySample_ready e hs⟩, afterPiece_ready hdone]
    exact ⟨(t, e) :: l, congrArg (e :: ·) hl, h.trans k⟩

/-! ### Queue after queue -/

/-- Every queue visited is emptied and its samples applied; then the samples collected are the result. -/
theorem runDrain_drained (js : List Nat) (hjs : js.Nodup) {s : State} (hs : s.ready) :
    ∃ l s', l.map Prod.snd = js.flatMap (fun j => s.queue j) ∧ Drained s js l s' ∧
      (runDrain js s).1 = { s'.deliver (.samples s'.con.drained) with con := { s'.con with drained := [] } } := by
  induction js generalizing s with
  | nil => exact ⟨[], s, rfl, .refl s, rfl⟩
  | cons j js ih =>
    obtain ⟨hj, hjs⟩ := List.nodup_cons.1 hjs
    have hcleared : (s.clearQueue j).ready := hs
    have hdone := runSamples_ready (s.queue j) hcleared
    obtain ⟨l, hl, h⟩ := runSamples_drained (s.queue j) hcleared
    obtain ⟨l', s', hl', h', hrun⟩ := ih hjs hdone.2
    have hqueue := (clearQueue_drained j s).trans h
    refine ⟨l ++ l', s', ?_, hqueue.trans h', ?_⟩
    · -- the queues still to come are as they were
      have hlater : ∀ i ∈ js, (runSamples (s.queue j) (s.clearQueue j)).1.queue i = s.queue i := fun i hi => by
        rw [hqueue.queue, if_neg]
        simpa using fun hij : i = j => hj (hij ▸ hi)
      rw [List.map_append, hl, hl', List.flatMap_cons, List.flatMap_congr hlater]
    · rw [runDrain, afterPiece_ready (r := (s.clearQueue j, [])) ⟨rfl, hcleared⟩, afterPiece_ready hdone]
      exact hrun

theorem exec_drain {s : State} (ht : s.timeOk = true) (hs : s.ready) : exec .drain s =
    .next (runDrain (drainOrder s.param s.p.config) { s with con := { s.con with drained := [] } }).1 :=
  (show execDrain s = _ from command_of_timeOk ht _).trans
    (congrArg Host.Outcome.next (runWork_cons_ready (w := .drain _) trivial [] hs))

/-- Of the transport an undisturbed drain changes the receive buffer alone. -/
theorem runDrain_transport (js : List Nat) {s : State} (hs : s.ready) :
    (runDrain js s).1.t = { s.t with rx := (runDrain js s).1.t.rx } := by
  obtain ⟨hconnected, hportCfg⟩ := runDrain_port js s
  have hlock := (runDrain_ready js hs).2.2.trans hs.2.symm
  dsimp only
  rw [← hconnected, ← hportCfg, ← hlock, ← (runDrain_base js s).deviceId]

/-- Settles O44: `runDrain_drained`, and the frames of the drain (`runDrain_base`, `runDrain_transport`). -/
theorem drainCompletes : Obligations.DrainCompletes := by
  intro s ht hs hjs
  have hs0 : State.ready { s with con := { s.con with drained := [] } } := hs
  obtain ⟨l, s', hl, h, hrun⟩ := runDrain_drained _ hjs hs0
  obtain ⟨es, conn, run, hout, hes⟩ := h.performs.performed
  have hdrained : s'.con.drained = l.map Prod.snd := h.drained
  have hbase := runDrain_base (drainOrder s.param s.p.config) { s with con := { s.con with drained := [] } }
  have htransport := runDrain_transport (drainOrder s.param s.p.config) hs0
  have hready := (runDrain_ready (drainOrder s.param s.p.config) hs0).2
  rw [hrun, hdrained] at hbase htransport hready
  rw [exec_drain ht hs, hrun, hdrained]
  refine ⟨_, es, conn, run, l, rfl, hl, h.times, h.a, ?_, hes, ?_, rfl, h.queue, h.queues, hbase.param, hbase.p, hbase.c,
    ?_, htransport, hbase.inbox, hbase.linkIn, hready⟩
  · exact congrArg (· ++ [Event.result (.samples (l.map Prod.snd))]) hout
  · rw [actionsIn_eq, hes, actionsOf_performs]
  · exact congrArg (Consumer.mk · []) hbase.todo

end Sys2Proof.Machine
end

section
/-! The time input and the one fault (R386): a host command is stuck exactly where time goes back, a frame of the link never,
and an item whose time goes back is stuck before its bytes are read. -/

namespace Sys2Proof.Machine

/-- The time input is earlier than the previous decode step. -/
theorem timeOk_eq_false_iff {s : State} : s.timeOk = false ↔ ∃ t, s.a.tPrev = some t ∧ s.clock < t := by
  unfold State.timeOk
  split <;> simp [*]

theorem command_of_timeBack {s : State} (h : s.timeOk = false) (k : State → State) :
    command s k = .fault .timeBackwards :=
  if_neg (Bool.eq_false_iff.1 h)

/-- A host command is total but for the check of the time input. -/
theorem exec_host {i : Instr} (h : i.port = .host) : ∃ k, ∀ s, exec i s = command s k := by
  cases i with
  | readReq | writeReq | response => cases h
  | _ => exact ⟨_, fun _ => rfl⟩

/-- A frame of the link is total: no time input is checked. -/
theorem exec_link {i : Instr} (h : i.port ≠ .host) (s : State) : ∃ t, exec i s = .next t := by
  cases i with
  | readReq | writeReq | response => exact ⟨_, rfl⟩
  | _ => exact absurd rfl h

/-- R386's two grounds, whatever the item's bytes spell. -/
theorem fetchItem_timeBack {it : Item} {s : State} (h : it.now < s.clock ∨ ∃ t, s.a.tPrev = some t ∧ it.now < t) :
    fetchItem it s = .fault .timeBackwards := by
  unfold fetchItem
  split
  · rfl
  next hc => exact if_neg (Bool.eq_false_iff.1 (timeOk_eq_false_iff.2 (h.resolve_left hc)))

/-- Settles O48: a host command is its check of the time input (`exec_host`), and an item fetched at a time that goes back
is not run (`fetchItem_timeBack`). -/
theorem commandsNeverTrap : Obligations.CommandsNeverTrap := by
  refine ⟨fun i s => ⟨fun hi ht => ?_, fun hi ht => ?_, fun hi => exec_link hi s⟩,
    fun s it rest sched hs hw hb h => (step_fetch hw hb hs).trans (fetchItem_timeBack h)⟩
  · obtain ⟨k, hk⟩ := exec_host hi
    exact (hk s).trans (command_of_timeBack ht k)
  · obtain ⟨k, hk⟩ := exec_host hi
    exact ⟨_, (hk s).trans (command_of_timeOk ht k)⟩

end Sys2Proof.Machine
end
